-- ==== Sys2Proof/Word.lean ====
section
/-! DEFINITION. The words of the block (00_scope.md R8, R9): bytes, and the 16-bit and 32-bit values of its wire
fields and counters. Sizes, lengths, offsets and addresses are naturals (R12: they never wrap). -/

namespace Sys2Proof

/-- A byte is 8 bits (R9). -/
abbrev Byte := BitVec 8

/-- A 16-bit wire field: SEQ, EXT, LEN, LINE, OFF (R91, R95, R96). -/
abbrev Half := BitVec 16

/-- A 32-bit value: the counters, the timestamp, the extended sequence number, the SSRC (R21, R22, R91, R94). -/
abbrev Word := BitVec 32

/-- A byte string (R9): element 0 is transmitted first and stored at the lowest address. -/
abbrev Bytes := List Byte

end Sys2Proof
end

