-- ==== Sys2Proof/Config.lean ====
section
/-! DEFINITION. The configuration record CFG (10_state.md R40 to R51), and the free values of the model: values the
spec leaves open ("any value" of 93_implementation_defined.md), as constants with no body, so that no proof can see
what they are. CFG is a field of State that no operation writes, so a claim about every state is a claim about every
configuration. -/

namespace Sys2Proof

/-- CFG, a record of twelve fields (R40), under the spec's names. Which values are legal is `Cfg.wf` (R52). -/
structure Cfg where
  /-- RTP_VERSION, 2 bits (R41). -/
  rtpVersion : BitVec 2
  /-- PAYLOAD_TYPE, 7 bits (R42). -/
  payloadType : BitVec 7
  /-- SSRC, 32 bits (R43). -/
  ssrc : Word
  /-- SAMPLE_RATE, natural; the value is 90000 (R44). -/
  sampleRate : Nat
  /-- FRAME_RATE, natural, 1 .. SAMPLE_RATE (R45). -/
  frameRate : Nat
  /-- MTU_BUDGET, natural, less than 2^32: the largest encoded packet (R46). -/
  mtuBudget : Nat
  /-- MAX_LINES, natural, 1 .. 65535: the most descriptors of one packet (R47). -/
  maxLines : Nat
  /-- LH_SLOT, one of 2, 4, 8: bytes of one descriptor field on the wire (R48). -/
  lhSlot : Nat
  /-- RX_HEIGHT, natural, 1 .. 65536 (R49). -/
  rxHeight : Nat
  /-- RX_WIDTH, natural, at least 1 (R50). -/
  rxWidth : Nat
  /-- RX_BPP, natural, at least 1, RX_WIDTH * RX_BPP at most 65535 (R50). -/
  rxBpp : Nat
  /-- RX_VALIDATE, 1 bit (R51). -/
  rxValidate : Bool
  deriving DecidableEq, Repr, Inhabited

/-- The configuration of the state after reset: the spec's fixed values and defaults where it gives them (R41, R42,
R44, R48, R51), and for the OPEN fields the example values of 95_test_vectors.md.
DESIGN CHOICE, unsafe (log entry 5): the OPEN values; PRESUMED by the spec itself (log entry 6): RTP_VERSION = 2 and
PAYLOAD_TYPE = 96. Claims are stated for every well-formed CFG and rest on none of them. -/
def Cfg.atReset : Cfg where
  rtpVersion := 2
  payloadType := 96
  ssrc := 0x12345678
  sampleRate := 90000
  frameRate := 25
  mtuBudget := 50
  maxLines := 2
  lhSlot := 2
  rxHeight := 2
  rxWidth := 4
  rxBpp := 3
  rxValidate := true

/-- FREE VALUE (U16, log entry 11): what TRANSPORT answers to the n-th `Send` that the list of given answers does not
cover; `true` is `Ok`, `false` is `IoError`. -/
opaque Config.freeSendOk : Nat → Bool

/-- FREE VALUE (U14, log entry 9): `tx_ts` once no TX_FRAME runs. -/
opaque Config.freeTxTs : Nat → Word

/-- FREE VALUE (U14, log entry 9): `tx_row` once no TX_FRAME runs. -/
opaque Config.freeTxRow : Nat → BitVec 17

/-- FREE VALUE (U14, log entry 9): `tx_off` once no TX_FRAME runs. -/
opaque Config.freeTxOff : Nat → Half

/-- FREE VALUE (U14, log entry 9): `tx_sent` once no TX_FRAME runs. -/
opaque Config.freeTxSent : Nat → Word

/-- FREE VALUE (U14, log entry 9): what `acc_n` is drawn from once no TX_FRAME runs. -/
opaque Config.freeAccN : Nat → Nat

/-- FREE VALUE (U14, log entry 9): what `acc_size` is drawn from once no TX_FRAME runs. -/
opaque Config.freeAccSize : Nat → Nat

/-- FREE VALUE (U14, log entry 9): what the entries of `acc_lh`, triples of 16 bits, are drawn from once no TX_FRAME
runs. -/
opaque Config.freeAccLh : Nat → List (Half × Half × Half)

/-- FREE VALUE (U14, log entry 9): `acc_data` once no TX_FRAME runs. -/
opaque Config.freeAccData : Nat → Bytes

/-- FREE VALUE (U15, log entry 10): `rx_ext_hi` after RX_INIT and reset, while `rx_seq_valid = 0`. -/
opaque Config.freeRxExtHi : Nat → Word

end Sys2Proof
end

