-- ==== Sys2Proof/Syntax.lean ====
section
/-! DEFINITION. The instructions: one constructor of `Instr` per row of spec/opcode_table.json (30_encoding.md R110,
R111, R115), with the typed operands of R112, and the form in which they come to the block (`Encoded`). -/

namespace Sys2Proof

/-- A line descriptor (R96): three 16-bit unsigned fields, none of whose bits is a flag. -/
structure LineDesc where
  /-- LEN: bytes of pixel data of the fragment. -/
  len : Half
  /-- LINE: 0-based row index. -/
  line : Half
  /-- OFF: byte offset into the row. -/
  off : Half
  deriving DecidableEq, Repr, Inhabited

/-- The two engines, each with its own command port (R5, R110). -/
inductive Engine where
  | txe
  | rxe
  deriving DecidableEq, Repr, Inhabited

/-- The instructions. The twelve operations (R110), the four reserved codes (R111), the four wire-format rows
(R115). -/
inductive Instr where
  /-- TX_INIT (R220). -/
  | txInit (seqInit frameInit : Word)
  /-- ENC_HDR (R130). -/
  | encHdr (m : Bool) (xseq ts : Word) (lines : List LineDesc)
  /-- DEC_HDR (R135). -/
  | decHdr (b : Bytes)
  /-- NEXT_SEQ (R150). -/
  | nextSeq
  /-- TS_FRAME (R152). -/
  | tsFrame (k : Word)
  /-- TX_FRAME (R165, R166). -/
  | txFrame (frame : Bytes) (height width bpp : Nat)
  /-- TX_FLUSH (R167). -/
  | txFlush (m : Bool)
  /-- RX_FRAME (R190); the operand is opaque (U25). -/
  | rxFrame (timeout : Nat)
  /-- RX_DGRAM (R191). -/
  | rxDgram (b : Bytes)
  /-- RX_EXPIRE (R197). -/
  | rxExpire
  /-- RX_IOERR (R198). -/
  | rxIoerr
  /-- RX_INIT (R221). -/
  | rxInit
  /-- Command code 0x0, reserved (R111). -/
  | reserved0
  /-- Command code 0xD, reserved (R111). -/
  | reservedD
  /-- Command code 0xE, reserved (R111). -/
  | reservedE
  /-- Command code 0xF, reserved (R111). -/
  | reservedF
  /-- PKT_TX: word 0 of a packet as TXE emits it (R92); its free fields are M and SEQ. -/
  | pktTx (m : Bool) (seq : Half)
  /-- PKT_RX: word 0 as DEC_HDR accepts it (R102, R135 check 2); V is fixed, the rest is reported. -/
  | pktRx (p x : Bool) (cc : BitVec 4) (m : Bool) (pt : BitVec 7) (seq : Half)
  /-- PAYLOAD_EXT: the 16-bit EXT field (R95). -/
  | payloadExt (ext : Half)
  /-- LINE_DESC: the 48 value bits of a descriptor (R96). -/
  | lineDesc (len line off : Half)
  deriving DecidableEq, Repr, Inhabited

/-- The operands that stand beside a command code, "as typed values, not packed into an instruction word" (R112): one
field per operand name of R112's table. A command reads only its own; the default of every field is zero or empty. -/
structure Operands where
  seqInit : Word := 0
  frameInit : Word := 0
  m : Bool := false
  xseq : Word := 0
  ts : Word := 0
  lines : List LineDesc := []
  b : Bytes := []
  k : Word := 0
  frame : Bytes := []
  height : Nat := 0
  width : Nat := 0
  bpp : Nat := 0
  timeout : Nat := 0
  deriving DecidableEq, Repr, Inhabited

/-- An instruction as it comes to the block: a 4-bit command code with its operands (R110, R112), or the bytes of a
wire-format element (R91, R95, R96), first transmitted byte first. -/
inductive Encoded where
  | cmd (code : BitVec 4) (ops : Operands)
  | wire (bytes : Bytes)
  deriving DecidableEq, Repr, Inhabited

/-- Why a byte string is no instruction. -/
inductive Reject where
  /-- Four bytes whose top two bits are not RTP_VERSION: neither PKT_TX nor PKT_RX (R102, R115). -/
  | versionBits (found : BitVec 2)
  /-- No wire-format row has this many bytes. -/
  | noSuchElement (nbytes : Nat)
  deriving DecidableEq, Repr, Inhabited

end Sys2Proof
end

