-- ==== Sys2Proof/WellFormed.lean ====
section
/-! DEFINITION. Which instructions are well formed: those that one encoding stands for. Operands are typed, so the
widths of R112 hold by type; operand values outside a command's limits are not ill-formed, they have an effect
(`Err(ArgError)`, R130, R165). -/

namespace Sys2Proof

/-- Every word PKT_TX stands for also fits PKT_RX's wider pattern (R115: mask 0xFF7F0000 against 0xC0000000), and
decoding gives the narrower row (log entry 4). So a PKT_RX is well formed when its word is no PKT_TX: not all of
P, X, CC zero and PT equal to PAYLOAD_TYPE (R92). -/
def Instr.wellFormed (c : Cfg) : Instr → Bool
  | .pktRx p x cc _ pt _ => p || x || cc != 0 || pt != c.payloadType
  | .txInit _ _ | .encHdr _ _ _ _ | .decHdr _ | .nextSeq | .tsFrame _ | .txFrame _ _ _ _ | .txFlush _
  | .rxFrame _ | .rxDgram _ | .rxExpire | .rxIoerr | .rxInit
  | .reserved0 | .reservedD | .reservedE | .reservedF
  | .pktTx _ _ | .payloadExt _ | .lineDesc _ _ _ => true

end Sys2Proof
end

