-- ==== Sys2Proof/Decode.lean ====
section
/-! DEFINITION. Byte order (20_memory.md R60, 00_scope.md R9), the fields of header word 0 (30_encoding.md R91), the
decoder, total on every code and every byte string, and the encoder, both written from 30_encoding.md R91 to R97 and
R110, R111. -/

namespace Sys2Proof

/-- `be16(v)` is `v[15:8], v[7:0]` (R9). -/
def be16 (v : Half) : Bytes := [v.extractLsb' 8 8, v.extractLsb' 0 8]

/-- `be32(v)` is `v[31:24], v[23:16], v[15:8], v[7:0]` (R9). -/
def be32 (v : Word) : Bytes :=
  [v.extractLsb' 24 8, v.extractLsb' 16 8, v.extractLsb' 8 8, v.extractLsb' 0 8]

/-- Byte i of a byte string. The rules read only below the length (R136 (h)). -/
def byteAt (b : Bytes) (i : Nat) : Byte := b.getD i 0

/-- `rd16(B, i)`: two bytes, the first the more significant (R9). -/
def rd16 (b : Bytes) (i : Nat) : Half := byteAt b i ++ byteAt b (i + 1)

/-- `rd32(B, i)`: four bytes, the first the most significant (R9). -/
def rd32 (b : Bytes) (i : Nat) : Word :=
  byteAt b i ++ byteAt b (i + 1) ++ byteAt b (i + 2) ++ byteAt b (i + 3)

/-- `zeros(n)`: n bytes of value 0 (R9). -/
def zeros (n : Nat) : Bytes := List.replicate n 0

/-- `B[i ..+ n]`: the n bytes from index i (R9). -/
def slice (b : Bytes) (i n : Nat) : Bytes := (b.drop i).take n

/-- The n low bytes of a number, most significant first. -/
def beBytes : Nat → Nat → Bytes
  | 0, _ => []
  | n + 1, w => BitVec.ofNat 8 (w >>> (8 * n)) :: beBytes n w

/-- Header word 0 from its fields, first listed field in the most significant bits (R91): V 31:30, P 29, X 28,
CC 27:24, M 23, PT 22:16, SEQ 15:0. -/
def word0 (v : BitVec 2) (p x : Bool) (cc : BitVec 4) (m : Bool) (pt : BitVec 7) (seq : Half) : Word :=
  v ++ BitVec.ofBool p ++ BitVec.ofBool x ++ cc ++ BitVec.ofBool m ++ pt ++ seq

/-- V, bits 31:30 of word 0 (R91). -/
def word0V (w : Word) : BitVec 2 := w.extractLsb' 30 2
/-- P, bit 29 of word 0 (R91). -/
def word0P (w : Word) : Bool := w.getLsbD 29
/-- X, bit 28 of word 0 (R91). -/
def word0X (w : Word) : Bool := w.getLsbD 28
/-- CC, bits 27:24 of word 0 (R91). -/
def word0CC (w : Word) : BitVec 4 := w.extractLsb' 24 4
/-- M, bit 23 of word 0 (R91). -/
def word0M (w : Word) : Bool := w.getLsbD 23
/-- PT, bits 22:16 of word 0 (R91). -/
def word0PT (w : Word) : BitVec 7 := w.extractLsb' 16 7
/-- SEQ, bits 15:0 of word 0 (R91). -/
def word0Seq (w : Word) : Half := w.extractLsb' 0 16

/-- Word 0 as the encoder writes it (R92): V = RTP_VERSION, P = X = CC = 0, PT = PAYLOAD_TYPE. -/
def txWord0 (c : Cfg) (m : Bool) (seq : Half) : Word :=
  word0 c.rtpVersion false false 0 m c.payloadType seq

/-- A command code with its operands (R110, R111). Every one of the sixteen codes has a row. -/
def decodeCmd (code : BitVec 4) (o : Operands) : Instr :=
  match code.toNat with
  | 0x0 => .reserved0
  | 0x1 => .txInit o.seqInit o.frameInit
  | 0x2 => .encHdr o.m o.xseq o.ts o.lines
  | 0x3 => .decHdr o.b
  | 0x4 => .nextSeq
  | 0x5 => .tsFrame o.k
  | 0x6 => .txFrame o.frame o.height o.width o.bpp
  | 0x7 => .txFlush o.m
  | 0x8 => .rxFrame o.timeout
  | 0x9 => .rxDgram o.b
  | 0xA => .rxExpire
  | 0xB => .rxIoerr
  | 0xC => .rxInit
  | 0xD => .reservedD
  | 0xE => .reservedE
  | _ => .reservedF

/-- Word 0 of a packet (R115): the narrower row PKT_TX where all its fixed bits agree, else PKT_RX where V agrees,
else no row. -/
def decodeWord0 (c : Cfg) (w : Word) : Except Reject Instr :=
  if word0V w = c.rtpVersion then
    if !word0P w && !word0X w && word0CC w == 0 && word0PT w == c.payloadType then
      .ok (.pktTx (word0M w) (word0Seq w))
    else
      .ok (.pktRx (word0P w) (word0X w) (word0CC w) (word0M w) (word0PT w) (word0Seq w))
  else .error (.versionBits (word0V w))

/-- The bytes of a wire-format element: 2 bytes are EXT (R95), 4 are word 0 (R91), 6 are the value bits of a
descriptor (R96); any other number is rejected by name. -/
def decodeWire (c : Cfg) : Bytes → Except Reject Instr
  | [b0, b1] => .ok (.payloadExt (b0 ++ b1))
  | [b0, b1, b2, b3] => decodeWord0 c (b0 ++ b1 ++ b2 ++ b3)
  | [b0, b1, b2, b3, b4, b5] => .ok (.lineDesc (b0 ++ b1) (b2 ++ b3) (b4 ++ b5))
  | bs => .error (.noSuchElement bs.length)

/-- The decoder, total. The match values of PKT_TX and PKT_RX are functions of CFG (R115), so it takes CFG. -/
def decode (c : Cfg) : Encoded → Except Reject Instr
  | .cmd code o => .ok (decodeCmd code o)
  | .wire bs => decodeWire c bs

/-- The encoder: the command code of R110 with the operands of R112, or the bytes of the wire-format element. -/
def encode (c : Cfg) : Instr → Encoded
  | .reserved0 => .cmd 0x0 {}
  | .txInit si fi => .cmd 0x1 { seqInit := si, frameInit := fi }
  | .encHdr m q t ls => .cmd 0x2 { m := m, xseq := q, ts := t, lines := ls }
  | .decHdr b => .cmd 0x3 { b := b }
  | .nextSeq => .cmd 0x4 {}
  | .tsFrame k => .cmd 0x5 { k := k }
  | .txFrame f h w p => .cmd 0x6 { frame := f, height := h, width := w, bpp := p }
  | .txFlush m => .cmd 0x7 { m := m }
  | .rxFrame t => .cmd 0x8 { timeout := t }
  | .rxDgram b => .cmd 0x9 { b := b }
  | .rxExpire => .cmd 0xA {}
  | .rxIoerr => .cmd 0xB {}
  | .rxInit => .cmd 0xC {}
  | .reservedD => .cmd 0xD {}
  | .reservedE => .cmd 0xE {}
  | .reservedF => .cmd 0xF {}
  | .pktTx m q => .wire (be32 (txWord0 c m q))
  | .pktRx p x cc m pt q => .wire (be32 (word0 c.rtpVersion p x cc m pt q))
  | .payloadExt e => .wire (be16 e)
  | .lineDesc l n o => .wire (be16 l ++ be16 n ++ be16 o)

/-- The encoded form of a table word: up to 8 bits are a command code (4 bits, operands zero), 16, 32 and 48 bits are
a wire-format element laid out most significant byte first (R60). `none` where no row has that width, or where bits
above the 4-bit code are set. -/
def encodedOfTableWord (nbits w : Nat) : Option Encoded :=
  if nbits ≤ 8 then
    if w < 16 then some (.cmd (BitVec.ofNat 4 w) {}) else none
  else if nbits = 16 ∨ nbits = 32 ∨ nbits = 48 then some (.wire (beBytes (nbits / 8) w))
  else none

/-- The instruction the decoder reads from a table word, at the table's own configuration (RTP_VERSION = 2,
PAYLOAD_TYPE = 96: R115, "at the default"). -/
def decodeTableWord (nbits w : Nat) : Option Instr :=
  match encodedOfTableWord nbits w with
  | some e => (decode Cfg.atReset e).toOption
  | none => none

end Sys2Proof
end

