-- ==== Sys2Proof/Machine/State.lean ====
section
/-! DEFINITION. The state of the block (10_state.md R20 to R38, R54, R55), the reasons a step can stop, what an
operation's outcome and a diagnostic event carry (00_scope.md R11, 60_exceptions.md R230 to R241), and the state after
reset (R58, R270). -/

namespace Sys2Proof.Machine

/-- What TRANSPORT answers to `Send` (R252). -/
inductive SendAnswer where
  | ok
  | ioError
  deriving DecidableEq, Repr, Inhabited

/-- What TRANSPORT answers to `Recv` (R252). -/
inductive RecvAnswer where
  | dgram (b : Bytes)
  | timeout
  | ioError
  deriving DecidableEq, Repr, Inhabited

/-- The receive state machine (R33, R196). -/
inductive RxState where
  | idle
  | assembling
  | complete
  deriving DecidableEq, Repr, Inhabited

/-- The fields DEC_HDR returns (R135). -/
structure HdrFields where
  v : BitVec 2
  p : Bool
  x : Bool
  cc : BitVec 4
  m : Bool
  pt : BitVec 7
  seq : Half
  ts : Word
  ssrc : Word
  ext : Half
  /-- EXT * 65536 + SEQ (R94). -/
  xseq : Word
  /-- N, the number of descriptors. -/
  n : Nat
  lines : List LineDesc
  /-- DS, where the data area starts (R98). -/
  ds : Nat
  deriving DecidableEq, Repr, Inhabited

/-- The `Err` outcomes with the information each records (R231 to R236, R240, R241). -/
inductive OpError where
  /-- Truncated: the datagram's length L (R231). -/
  | truncated (len : Nat)
  /-- VersionMismatch: the version bits found (R232). -/
  | versionMismatch (found : BitVec 2)
  /-- LineCountExceeded: MAX_LINES + 1 (R233). -/
  | lineCountExceeded (n : Nat)
  /-- TransportError of TX_FRAME: the packets sent so far (R234). -/
  | transportSend (sent : Word)
  /-- TransportError of TX_FLUSH, which hands no information to its caller (R167, R112). -/
  | transportFlush
  /-- TransportError on receive: no information (R235). -/
  | transportRecv
  /-- TimeoutError: no information (R236). -/
  | timeout
  /-- ArgError of TX_FRAME: no information (R240). -/
  | argFrame
  /-- ArgError of ENC_HDR: the count n (R240). -/
  | argLines (n : Nat)
  /-- IllegalCommand: the 4-bit code (R241). -/
  | illegalCommand (cmd : BitVec 4)
  deriving DecidableEq, Repr, Inhabited

/-- The `Ok` outcomes (R112), and last the values of the four wire-format rows (log entry 3). -/
inductive OpValue where
  /-- `Ok()` of TX_INIT, TX_FLUSH, RX_INIT. -/
  | unit
  /-- `Ok(bytes)` of ENC_HDR. -/
  | bytes (b : Bytes)
  /-- `Ok(fields)` of DEC_HDR. -/
  | fields (f : HdrFields)
  /-- `Ok(xseq)` of NEXT_SEQ. -/
  | xseq (v : Word)
  /-- `Ok(ts)` of TS_FRAME. -/
  | ts (v : Word)
  /-- `Ok(packet_count)` of TX_FRAME. -/
  | packetCount (n : Word)
  /-- `Ok(CompleteFrame(incomplete))` of RX_FRAME. -/
  | completeFrame (incomplete : Bool)
  /-- `Ok(Dropped(e))` of RX_DGRAM. -/
  | dropped (e : OpError)
  /-- `Ok(Accepted)` of RX_DGRAM. -/
  | accepted
  /-- `Ok(FrameDone(incomplete))` of RX_DGRAM. -/
  | frameDone (incomplete : Bool)
  /-- Header word 0 read field by field (PKT_RX). -/
  | word0Fields (v : BitVec 2) (p x : Bool) (cc : BitVec 4) (m : Bool) (pt : BitVec 7) (seq : Half)
  /-- The EXT field and its two bytes on the wire (PAYLOAD_EXT). -/
  | extField (ext : Half) (wire : Bytes)
  /-- A descriptor and its LH_STRIDE bytes on the wire (LINE_DESC). -/
  | descriptor (d : LineDesc) (wire : Bytes)
  deriving DecidableEq, Repr, Inhabited

/-- "Every operation ends with exactly one outcome: Ok(v) or Err(kind, info)" (R11). -/
inductive OpOutcome where
  | ok (v : OpValue)
  | err (e : OpError)
  deriving DecidableEq, Repr, Inhabited

/-- The diagnostic events (R253) with what each records (R237 to R239). -/
inductive DiagEvent where
  /-- SeqGap(expected, got); `expected = rx_ext_hi + 1` is a natural. -/
  | seqGap (expected got : Nat)
  /-- RangeOverlap(i, len, line, off). -/
  | rangeOverlap (i : Nat) (d : LineDesc)
  /-- FragOutOfFrame(i, len, line, off). -/
  | fragOutOfFrame (i : Nat) (d : LineDesc)
  deriving DecidableEq, Repr, Inhabited

/-- ASM's bytes that something has written, as (offset, byte) pairs, offsets strictly rising. An offset that is not
listed holds HOST's initial content, which the model does not know (R55, U13; log entry 14): it reads as no value. -/
abbrev Memory := List Host.Cell

/-- What reaches the block from outside between two operations (R5, R243, R270), in the order it arrives. -/
inductive Request where
  /-- HOST issues a command code with its operands on the command port of an engine (R110). -/
  | host (port : Engine) (code : BitVec 4) (ops : Operands)
  /-- A wire-format element handed to WireFormat (R115; log entry 3). -/
  | wire (bytes : Bytes)
  /-- The hardware reset (R270), between operations (R271). -/
  | reset
  /-- HOST stores bytes into its own ASM buffer while no RXE operation runs (R55, R283; log entry 15). -/
  | hostWriteAsm (offset : Nat) (bytes : Bytes)
  deriving DecidableEq, Repr, Inhabited

/-- The state (R20). -/
structure State where
  /-- CFG (R40); no operation writes it. -/
  cfg : Cfg
  /-- `seq_last`, 32 bits (R21). -/
  seqLast : Word
  /-- `frame_idx`, 32 bits (R22). -/
  frameIdx : Word
  /-- `seq_ovf`, 1 bit, sticky (R23). -/
  seqOvf : Bool
  /-- `tx_busy`, 1 bit (R24). -/
  txBusy : Bool
  /-- `tx_ts`, 32 bits (R25). -/
  txTs : Word
  /-- `tx_row`, 17 bits (R26). -/
  txRow : BitVec 17
  /-- `tx_off`, 16 bits (R26). -/
  txOff : Half
  /-- `tx_sent`, 32 bits (R27). -/
  txSent : Word
  /-- `acc_n`, natural (R28). -/
  accN : Nat
  /-- `acc_size`, natural (R29). -/
  accSize : Nat
  /-- `acc_lh[i]` (R30): the entries that hold a value, in order. -/
  accLh : List LineDesc
  /-- `acc_data` (R31). -/
  accData : Bytes
  /-- `rx_state` (R33). -/
  rxState : RxState
  /-- `rx_seq_valid`, 1 bit (R34). -/
  rxSeqValid : Bool
  /-- `rx_ext_hi`, 32 bits (R34). -/
  rxExtHi : Word
  /-- `rx_gap`, 1 bit (R35). -/
  rxGap : Bool
  /-- `rx_written` (R36): a set of byte offsets of ASM, strictly rising. -/
  rxWritten : List Nat
  /-- `rx_busy`, 1 bit (R37). -/
  rxBusy : Bool
  /-- `txd` (R38): every byte string passed to `Send`, with TRANSPORT's answer. -/
  txd : List (Bytes × SendAnswer)
  /-- `diag` (R38): every diagnostic event. -/
  diag : List DiagEvent
  /-- FRAME (R54): the borrowed source buffer while TX_FRAME runs, empty otherwise. -/
  frame : Bytes
  /-- ASM (R55). -/
  asm : Memory
  /-- The model's own: what has arrived and not been served yet, oldest first (log entry 1). -/
  pending : List Request
  /-- The model's own: an internal operation to run without its caller (log entry 2). The spec gives no agent this move
  (R110, R154): no step writes a value here, no request can, and a step serves and clears what it finds. -/
  loneCall : Option (BitVec 4 × Operands)
  /-- The model's own: TRANSPORT's answers to the `Send` calls to come (log entry 11). -/
  sendAnswers : List SendAnswer
  /-- The model's own: TRANSPORT's answers to the `Recv` calls to come (log entry 12). -/
  recvAnswers : List RecvAnswer
  /-- The model's own: every `Recv`, with the timeout operand handed over and TRANSPORT's answer (log entry 13). -/
  recvLog : List (Nat × RecvAnswer)
  /-- The model's own: the outcome of the operation that ended last, or of the reset (R11, R196; log entry 13). -/
  outcome : Option OpOutcome
  /-- The model's own: how many free values TXE has drawn (log entries 9, 11). -/
  txFree : Nat
  /-- The model's own: how many free values RXE has drawn (log entry 10). -/
  rxFree : Nat
  deriving DecidableEq, Repr, Inhabited

/-- Why the machine stops. -/
inductive Fault where
  /-- Raised by the command port: HOST issues a command on an engine whose busy bit is 1. U22: "stuck: the model gives
  HOST no such move". Safe; no reachable state raises it. -/
  | commandWhileBusy (port : Engine)
  /-- Raised by TX_FRAME when its loop makes no progress. R52: without the bound on MTU_BUDGET "TX_FRAME would not
  end". Safe; raised for no well-formed CFG. -/
  | txFrameNeverEnds
  /-- Raised by HOST's store: the bytes do not all lie in ASM, whose offsets are 0 .. RX_SIZE-1 (R55). Safe. -/
  | asmOutOfRange
  deriving DecidableEq, Repr, Inhabited

/-- Why the machine gives no meaning. -/
inductive Refusal where
  /-- Raised by an arm of `exec` whose instruction has no meaning yet. Safe. -/
  | notModelled (mnemonic : String)
  /-- Raised by every instruction: CFG is not well formed. R52: "a model refuses any other CFG". Safe. -/
  | cfgNotWellFormed
  /-- Raised by a step whose wire-format bytes are no row of the table. Safe. -/
  | undecodable (why : Reject)
  /-- Raised by a step: `loneCall` holds a code that is not of kind "internal" (R110). Safe; no reachable state raises
  it. -/
  | notAnInternalOperation (code : BitVec 4)
  deriving DecidableEq, Repr, Inhabited

/-- The state right after reset (R58, R270). The registers R58 calls unspecified hold values the model names (log
entry 8, DESIGN CHOICE, unsafe): zero or empty, and `acc_size = HDR_BASE = 14`, its value for the empty accumulator
(R29). The outcome is the reset's, `Ok()` (R196, last row). Nothing is pending, and CFG is the one of log entry 5. -/
def State.reset : State where
  cfg := Cfg.atReset
  seqLast := 0
  frameIdx := 0
  seqOvf := false
  txBusy := false
  txTs := 0
  txRow := 0
  txOff := 0
  txSent := 0
  accN := 0
  accSize := 14
  accLh := []
  accData := []
  rxState := .idle
  rxSeqValid := false
  rxExtHi := 0
  rxGap := false
  rxWritten := []
  rxBusy := false
  txd := []
  diag := []
  frame := []
  asm := []
  pending := []
  loneCall := none
  sendAnswers := []
  recvAnswers := []
  recvLog := []
  outcome := some (.ok .unit)
  txFree := 0
  rxFree := 0

end Sys2Proof.Machine
end

