-- ==== Sys2Proof/Machine/Derived.lean ====
section
/-! DEFINITION. The derived constants, "functions of CFG alone" (10_state.md R53), and when CFG is well formed (R52). -/

namespace Sys2Proof

/-- HDR_BASE = 14: the 12-byte RtpFixedHeader and the 2-byte EXT field (R53). -/
def hdrBase : Nat := 14

/-- LH_STRIDE = 3 * LH_SLOT: bytes per descriptor on the wire (R53). -/
def Cfg.lhStride (c : Cfg) : Nat := 3 * c.lhSlot

/-- TPF = floor(SAMPLE_RATE / FRAME_RATE): timestamp ticks per frame (R53). -/
def Cfg.tpf (c : Cfg) : Nat := c.sampleRate / c.frameRate

/-- RX_STRIDE = RX_WIDTH * RX_BPP (R53). -/
def Cfg.rxStride (c : Cfg) : Nat := c.rxWidth * c.rxBpp

/-- RX_SIZE = RX_HEIGHT * RX_STRIDE: bytes of ASM (R53). -/
def Cfg.rxSize (c : Cfg) : Nat := c.rxHeight * c.rxStride

/-- CFG is well formed: every field in the range its rule gives (R41 to R51), and one descriptor and one pixel byte
fit in a packet (R52). -/
def Cfg.wf (c : Cfg) : Bool :=
  decide (c.sampleRate = 90000)
  && decide (1 ≤ c.frameRate) && decide (c.frameRate ≤ c.sampleRate)
  && decide (c.mtuBudget < 2 ^ 32)
  && decide (1 ≤ c.maxLines) && decide (c.maxLines ≤ 65535)
  && (decide (c.lhSlot = 2) || decide (c.lhSlot = 4) || decide (c.lhSlot = 8))
  && decide (1 ≤ c.rxHeight) && decide (c.rxHeight ≤ 65536)
  && decide (1 ≤ c.rxWidth) && decide (1 ≤ c.rxBpp) && decide (c.rxStride ≤ 65535)
  && decide (hdrBase + c.lhStride + 1 ≤ c.mtuBudget)

end Sys2Proof
end

