-- ==== Sys2Proof/Machine/Ops.lean ====
section
/-! DEFINITION. The named operations the rules are written with (00_scope.md R10): reads and writes of FRAME and ASM,
sets of byte offsets, `Send`, `Recv`, `Diag`, the delivery of an outcome and of an error, and the hardware reset. -/

namespace Sys2Proof.Machine

/-! ## ASM -/

/-- The byte at an offset of ASM, where something has written it. -/
def memRead : Memory → Nat → Option Byte
  | [], _ => none
  | (x, c) :: rest, a => if x = a then some c else memRead rest a

/-- Store one byte, keeping the offsets strictly rising. -/
def memWrite : Memory → Nat → Byte → Memory
  | [], a, b => [(a, b)]
  | (x, c) :: rest, a, b =>
    if a < x then (a, b) :: (x, c) :: rest
    else if a = x then (a, b) :: rest
    else (x, c) :: memWrite rest a b

/-- `MemWrite(ASM, addr, n, v)`: the bytes of v at offsets addr, addr+1, ... (R67). -/
def memWriteBytes (m : Memory) (a : Nat) : Bytes → Memory
  | [] => m
  | b :: bs => memWriteBytes (memWrite m a b) (a + 1) bs

/-- Every offset is at least lo and the offsets rise strictly. -/
def risingFrom : Nat → Memory → Bool
  | _, [] => true
  | lo, (x, _) :: rest => decide (lo ≤ x) && risingFrom (x + 1) rest

/-- The canonical form of ASM: offsets strictly rising. No entry can equal what an unlisted offset reads as, since
that is no value. -/
def Memory.wf (m : Memory) : Bool := risingFrom 0 m

/-- Every listed offset is one of ASM's, 0 .. size-1 (R55). -/
def Memory.within (size : Nat) (m : Memory) : Bool := m.all fun cell => decide (cell.1 < size)

/-! ## Sets of byte offsets (rx_written, R36) -/

/-- Add one offset, keeping the list strictly rising. -/
def setInsert : List Nat → Nat → List Nat
  | [], a => [a]
  | x :: rest, a => if a < x then a :: x :: rest else if a = x then x :: rest else x :: setInsert rest a

/-- `rx_written united with {a, ..., a+len-1}` (R191). -/
def setAddRange (w : List Nat) (a : Nat) : Nat → List Nat
  | 0 => w
  | n + 1 => setAddRange (setInsert w a) (a + 1) n

/-- "some k in a .. a+len-1 is in rx_written" (R191). -/
def setMeets (w : List Nat) (a len : Nat) : Bool := w.any fun k => decide (a ≤ k) && decide (k < a + len)

/-- The offsets rise strictly, from lo on. -/
def setRisingFrom : Nat → List Nat → Bool
  | _, [] => true
  | lo, x :: rest => decide (lo ≤ x) && setRisingFrom (x + 1) rest

/-! ## FRAME -/

/-- `MemRead(FRAME, addr, n)` (R66). -/
def frameRead (s : State) (addr n : Nat) : Bytes := slice s.frame addr n

/-! ## The transport and diagnostic ports -/

/-- `Send(B)`: TRANSPORT answers with the next answer given to the model, or, where none is given, with a free value
(U16, log entry 11); the pair is appended to `txd` (R252). -/
def send (b : Bytes) (s : State) : SendAnswer × State :=
  match s.sendAnswers with
  | a :: rest => (a, { s with sendAnswers := rest, txd := s.txd ++ [(b, a)] })
  | [] =>
    let a := if Config.freeSendOk s.txFree then SendAnswer.ok else SendAnswer.ioError
    (a, { s with txFree := s.txFree + 1, txd := s.txd ++ [(b, a)] })

/-- One `Recv(t)` that TRANSPORT answers with `a`: the operand is handed over unchanged (R190), and `rest` is what it
answers later. -/
def recvAnswered (t : Nat) (a : RecvAnswer) (rest : List RecvAnswer) (s : State) : State :=
  { s with recvAnswers := rest, recvLog := s.recvLog ++ [(t, a)] }

/-- `Diag(e)` (R253). -/
def diagEvent (e : DiagEvent) (s : State) : State := { s with diag := s.diag ++ [e] }

/-! ## Ending an operation (R11, R245) -/

/-- The operation ends and its outcome is delivered. -/
def deliver (o : OpOutcome) (s : State) : State := { s with outcome := some o }

/-- Ending with `Ok(v)`. -/
def finish (v : OpValue) (s : State) : Host.Outcome State Fault Refusal := .next (deliver (.ok v) s)

/-- `raise`: ending with `Err(kind, info)`. This is what stands for taking an exception: "Delivery of an exceptional
event saves no state and changes no mode", "Control goes nowhere: the engine is idle after the outcome" (R245), and
there is nothing to return from (R246). The changes made before it stay made. -/
def raise (e : OpError) (s : State) : Host.Outcome State Fault Refusal := .next (deliver (.err e) s)

/-- "The rules of this spec are stated for well-formed CFG only; a model refuses any other CFG" (R52). -/
def guarded (s : State) (k : Host.Outcome State Fault Refusal) : Host.Outcome State Fault Refusal :=
  if s.cfg.wf then k else .refused .cfgNotWellFormed

/-! ## Codes of the exceptional events (R230) -/

/-- The code of an `Err` outcome. -/
def OpError.code : OpError → Nat
  | .truncated _ => 1
  | .versionMismatch _ => 2
  | .lineCountExceeded _ => 3
  | .transportSend _ | .transportFlush | .transportRecv => 4
  | .timeout => 5
  | .argFrame | .argLines _ => 9
  | .illegalCommand _ => 10

/-- The code of a diagnostic event. -/
def DiagEvent.code : DiagEvent → Nat
  | .seqGap _ _ => 6
  | .rangeOverlap _ _ => 7
  | .fragOutOfFrame _ _ => 8

/-- The code of an outcome: 0 for `Ok`. -/
def OpOutcome.code : OpOutcome → Nat
  | .ok _ => 0
  | .err e => e.code

/-- The 2-bit value of `rx_state` (R33). -/
def RxState.code : RxState → BitVec 2
  | .idle => 0
  | .assembling => 1
  | .complete => 2

/-! ## Registers that hold no value, and the hardware reset -/

/-- The TXE working registers hold no value (10_state.md 3, R291; U14: "any value"): each is a free value, `acc_n`,
`acc_size` and the number of entries of `acc_lh` within the ranges of R28 to R30 (log entry 9). -/
def txForget (s : State) : State :=
  { s with
    txTs := Config.freeTxTs s.txFree
    txRow := Config.freeTxRow s.txFree
    txOff := Config.freeTxOff s.txFree
    txSent := Config.freeTxSent s.txFree
    accN := Config.freeAccN s.txFree % (s.cfg.maxLines + 1)
    accSize := hdrBase + Config.freeAccSize s.txFree % (s.cfg.mtuBudget - hdrBase + 1)
    accLh := ((Config.freeAccLh s.txFree).take s.cfg.maxLines).map fun d => ⟨d.1, d.2.1, d.2.2⟩
    accData := Config.freeAccData s.txFree
    txFree := s.txFree + 1 }

/-- The RXE registers in their reset state (R58, R221). `rx_ext_hi` "holds a value only when rx_seq_valid = 1" (R34): it
is a free value from here on (U15, log entry 10). -/
def rxForget (s : State) : State :=
  { s with
    rxState := .idle
    rxSeqValid := false
    rxExtHi := Config.freeRxExtHi s.rxFree
    rxGap := false
    rxWritten := []
    rxFree := s.rxFree + 1 }

/-- The hardware reset (R270): every register at its reset value, the unspecified ones free, both logs empty, CFG and ASM
unchanged; its outcome is `Ok()` (R196, last row). What HOST and TRANSPORT have still to hand over is theirs and stays
(log entry 17). -/
def hwReset (s : State) : State :=
  deliver (.ok .unit)
    { rxForget (txForget s) with
      seqLast := 0, frameIdx := 0, seqOvf := false, txBusy := false, rxBusy := false
      txd := [], diag := [], frame := [], loneCall := none, recvLog := [] }

end Sys2Proof.Machine
end

