-- ==== Sys2Proof/Machine/Operands.lean ====
section
/-! DEFINITION. What the rules compute from operands and descriptors: TX_FRAME's argument check (42_packetizer.md
R165), the room left in a packet (R166), the bounds check and the address of a received fragment (43_depacketizer.md
R192, 20_memory.md R68), and which engine and kind a command code has (30_encoding.md R110, R111). -/

namespace Sys2Proof.Machine

/-- The arguments of TX_FRAME are valid (R165), with `row_bytes = width * bpp`. -/
def txArgsOk (frame : Bytes) (height width bpp : Nat) : Bool :=
  decide (1 ≤ height) && decide (height ≤ 65536) && decide (1 ≤ width) && decide (1 ≤ bpp)
  && decide (width * bpp ≤ 65535) && decide (frame.length = height * (width * bpp))

/-- "no room for one more descriptor with at least one byte" (R166). -/
def accFull (s : State) : Bool :=
  decide (s.accN = s.cfg.maxLines) || decide (s.accSize + s.cfg.lhStride + 1 > s.cfg.mtuBudget)

/-- `room = MTU_BUDGET - acc_size - LH_STRIDE` (R166). -/
def accRoom (s : State) : Nat := s.cfg.mtuBudget - s.accSize - s.cfg.lhStride

/-- The bounds check of a fragment: `line < RX_HEIGHT` and `off + len <= RX_STRIDE`, over the naturals (R192). -/
def fragInFrame (c : Cfg) (d : LineDesc) : Bool :=
  decide (d.line.toNat < c.rxHeight) && decide (d.off.toNat + d.len.toNat ≤ c.rxStride)

/-- `line * RX_STRIDE + off` (R68). -/
def fragAddr (c : Cfg) (d : LineDesc) : Nat := d.line.toNat * c.rxStride + d.off.toNat

/-- The engine on whose port HOST may issue a code (R110): none for internal and reserved codes. -/
def commandEngine (code : BitVec 4) : Option Engine :=
  match code.toNat with
  | 0x1 | 0x2 | 0x6 => some .txe
  | 0x3 | 0x8 | 0x9 | 0xC => some .rxe
  | _ => none

/-- HOST may issue the code on this port (R110, R111). -/
def hostMayIssue (port : Engine) (code : BitVec 4) : Bool := decide (commandEngine code = some port)

/-- The operation is of kind "internal" (R110): HOST may not issue it, the block alone invokes it. -/
def isInternalOp (code : BitVec 4) : Bool :=
  match code.toNat with
  | 0x4 | 0x5 | 0x7 | 0xA | 0xB => true
  | _ => false

end Sys2Proof.Machine
end

