-- ==== Sys2Proof/Machine/Flags.lean ====
section
/-! DEFINITION. The status flags (10_state.md R39): what sets `seq_ovf` (R150), `rx_gap` and `rx_seq_valid` (R193),
and what the `incomplete` flag of a frame outcome is made of (43_depacketizer.md R195). -/

namespace Sys2Proof.Machine

/-- `seq_ovf` after NEXT_SEQ (R150): set when `seq_last` wraps, never cleared. -/
def seqOvfAfter (s : State) : Bool := s.seqOvf || s.seqLast == 0xFFFFFFFF

/-- A sequence gap (R193): `rx_seq_valid = 1` and `xseq > rx_ext_hi + 1`, over the naturals: no wrap. -/
def seqGap (s : State) (xseq : Word) : Bool := s.rxSeqValid && decide (xseq.toNat > s.rxExtHi.toNat + 1)

/-- The datagram sets `rx_ext_hi` (R191): the first accepted one, or one above the highest seen. -/
def seqAdvances (s : State) (xseq : Word) : Bool := !s.rxSeqValid || decide (xseq.toNat > s.rxExtHi.toNat)

/-- Every byte of ASM was written since the last frame boundary: `rx_written = {0, ..., RX_SIZE-1}` (R195). -/
def fullyWritten (s : State) : Bool := s.rxWritten == List.range s.cfg.rxSize

/-- The `incomplete` flag (R195). -/
def incompleteFlag (s : State) : Bool := s.rxGap || (s.cfg.rxValidate && !fullyWritten s)

/-- Step 1 of RX_DGRAM: sequence continuity (R191, R193). -/
def rxSequence (xseq : Word) (s : State) : State :=
  { s with
    diag := s.diag ++ if seqGap s xseq then [.seqGap (s.rxExtHi.toNat + 1) xseq.toNat] else []
    rxGap := s.rxGap || seqGap s xseq
    rxExtHi := if seqAdvances s xseq then xseq else s.rxExtHi
    rxSeqValid := s.rxSeqValid || seqAdvances s xseq }

/-- A frame boundary on receive (R195, R197, R198): `rx_state`, `rx_gap` and `rx_written` are emptied. -/
def rxFrameBoundary (s : State) : State := { s with rxState := .idle, rxGap := false, rxWritten := [] }

end Sys2Proof.Machine
end

