-- ==== Sys2Proof/Machine/WireFormat.lean ====
section
/-! DEFINITION. WireFormat: ENC_HDR and DEC_HDR (40_wireformat.md R130, R135), the pseudo-operations ENC_PKT and
DEC_PKT (30_encoding.md R114), and the four wire-format rows of the opcode table (R115). All are pure functions of
their operands and CFG. -/

namespace Sys2Proof.Machine

/-- One field of a descriptor in its slot: the value, then `LH_SLOT - 2` zero bytes (R97). -/
def encSlot (c : Cfg) (v : Half) : Bytes := be16 v ++ zeros (c.lhSlot - 2)

/-- A descriptor on the wire: LEN, LINE, OFF, each in its slot (R97). -/
def encDesc (c : Cfg) (d : LineDesc) : Bytes := encSlot c d.len ++ encSlot c d.line ++ encSlot c d.off

/-- The header bytes (R130): word 0, TS, SSRC, EXT, then the descriptors in order. -/
def encHdrBytes (c : Cfg) (m : Bool) (xseq ts : Word) (lines : List LineDesc) : Bytes :=
  be32 (txWord0 c m (xseq.extractLsb' 0 16)) ++ be32 ts ++ be32 c.ssrc ++ be16 (xseq.extractLsb' 16 16)
    ++ lines.flatMap (encDesc c)

/-- ENC_HDR (R130): `ArgError(n)` when there are more than MAX_LINES descriptors, the only failure. -/
def encHdr (c : Cfg) (m : Bool) (xseq ts : Word) (lines : List LineDesc) : Except OpError Bytes :=
  if lines.length > c.maxLines then .error (.argLines lines.length) else .ok (encHdrBytes c m xseq ts lines)

/-- The descriptor at offset `pos` of a datagram (R97, R135); pad bytes are not looked at. -/
def readDesc (c : Cfg) (b : Bytes) (pos : Nat) : LineDesc where
  len := rd16 b pos
  line := rd16 b (pos + c.lhSlot)
  off := rd16 b (pos + 2 * c.lhSlot)

/-- The length walk of R135 (R101). `left = MAX_LINES - n` descriptors may still be read; `lines` are those read,
`pos` where the next one starts, `dsum` the sum of their lengths. Gives the descriptors and DS. -/
def lengthWalk (c : Cfg) (b : Bytes) : (left n pos dsum : Nat) → List LineDesc → Except OpError (List LineDesc × Nat)
  | left, n, pos, dsum, lines =>
    if pos + dsum = b.length then .ok (lines, pos)
    else if pos + dsum > b.length then .error (.truncated b.length)
    else
      match left with
      | 0 => .error (.lineCountExceeded (n + 1))
      | left' + 1 =>
        if pos + c.lhStride > b.length then .error (.truncated b.length)
        else
          let d := readDesc c b pos
          lengthWalk c b left' (n + 1) (pos + c.lhStride) (dsum + d.len.toNat) (lines ++ [d])

/-- The fields DEC_HDR returns once the descriptors and DS are known (R135). -/
def hdrFields (b : Bytes) (lines : List LineDesc) (ds : Nat) : HdrFields :=
  let w0 := rd32 b 0
  { v := word0V w0, p := word0P w0, x := word0X w0, cc := word0CC w0, m := word0M w0, pt := word0PT w0
    seq := word0Seq w0, ts := rd32 b 4, ssrc := rd32 b 8, ext := rd16 b 12
    xseq := rd16 b 12 ++ word0Seq w0
    n := lines.length, lines := lines, ds := ds }

/-- DEC_HDR (R135): check 1 (length), check 2 (version), then the walk; the first check that fails decides. -/
def decHdr (c : Cfg) (b : Bytes) : Except OpError HdrFields :=
  if b.length < 14 then .error (.truncated b.length)
  else if word0V (rd32 b 0) ≠ c.rtpVersion then .error (.versionMismatch (word0V (rd32 b 0)))
  else
    match lengthWalk c b c.maxLines 0 14 0 [] with
    | .ok (lines, ds) => .ok (hdrFields b lines ds)
    | .error e => .error e

/-- ENC_PKT (R114): the header bytes followed by the data. -/
def encPkt (c : Cfg) (m : Bool) (xseq ts : Word) (lines : List LineDesc) (data : Bytes) : Bytes :=
  encHdrBytes c m xseq ts lines ++ data

/-- The data of each descriptor, one after another from `p` on (R98). -/
def descData (b : Bytes) : Nat → List LineDesc → List Bytes
  | _, [] => []
  | p, d :: ds => slice b p d.len.toNat :: descData b (p + d.len.toNat) ds

/-- DEC_PKT (R114): DEC_HDR and the data of each descriptor. -/
def decPkt (c : Cfg) (b : Bytes) : Except OpError (HdrFields × List Bytes) :=
  match decHdr c b with
  | .ok f => .ok (f, descData b f.ds f.lines)
  | .error e => .error e

/-- ENC_HDR (R130). -/
def execEncHdr (m : Bool) (xseq ts : Word) (lines : List LineDesc) (s : State) : Host.Outcome State Fault Refusal :=
  guarded s <|
    match encHdr s.cfg m xseq ts lines with
    | .ok b => finish (.bytes b) s
    | .error e => raise e s

/-- DEC_HDR (R135). -/
def execDecHdr (b : Bytes) (s : State) : Host.Outcome State Fault Refusal :=
  guarded s <|
    match decHdr s.cfg b with
    | .ok f => finish (.fields f) s
    | .error e => raise e s

/-- PKT_TX (R92): word 0 as ENC_HDR writes it, four bytes (log entry 3). -/
def execPktTx (m : Bool) (seq : Half) (s : State) : Host.Outcome State Fault Refusal :=
  guarded s <| finish (.bytes (be32 (txWord0 s.cfg m seq))) s

/-- PKT_RX (R102, R135 check 2): word 0 as DEC_HDR reads it, every field reported (R103; log entry 3). -/
def execPktRx (p x : Bool) (cc : BitVec 4) (m : Bool) (pt : BitVec 7) (seq : Half) (s : State) :
    Host.Outcome State Fault Refusal :=
  guarded s <|
    let w := rd32 (be32 (word0 s.cfg.rtpVersion p x cc m pt seq)) 0
    if word0V w ≠ s.cfg.rtpVersion then raise (.versionMismatch (word0V w)) s
    else finish (.word0Fields (word0V w) (word0P w) (word0X w) (word0CC w) (word0M w) (word0PT w) (word0Seq w)) s

/-- PAYLOAD_EXT (R95): the two bytes on the wire, never padded, and the value DEC_HDR reads from them (log entry 3). -/
def execPayloadExt (ext : Half) (s : State) : Host.Outcome State Fault Refusal :=
  guarded s <| finish (.extField (rd16 (be16 ext) 0) (be16 ext)) s

/-- LINE_DESC (R96, R97): the LH_STRIDE bytes on the wire, each value in its slot, and the descriptor DEC_HDR reads
from them (log entry 3). -/
def execLineDesc (len line off : Half) (s : State) : Host.Outcome State Fault Refusal :=
  guarded s <|
    let wire := encDesc s.cfg ⟨len, line, off⟩
    finish (.descriptor (readDesc s.cfg wire 0) wire) s

end Sys2Proof.Machine
end

