-- ==== Sys2Proof/Machine/SessionClock.lean ====
section
/-! DEFINITION. SessionClock: NEXT_SEQ and TS_FRAME (41_sessionclock.md R150, R152). -/

namespace Sys2Proof.Machine

/-- NEXT_SEQ (R150): the value after the increment, and the registers. -/
def nextSeq (s : State) : Word × State :=
  (s.seqLast + 1, { s with seqLast := s.seqLast + 1, seqOvf := seqOvfAfter s })

/-- TS_FRAME (R152): `(k * TPF) mod 2^32`. -/
def tsFrame (c : Cfg) (k : Word) : Word := BitVec.ofNat 32 (k.toNat * c.tpf)

/-- NEXT_SEQ as an operation of its own. -/
def execNextSeq (s : State) : Host.Outcome State Fault Refusal :=
  guarded s <| finish (.xseq (nextSeq s).1) (nextSeq s).2

/-- TS_FRAME as an operation of its own. -/
def execTsFrame (k : Word) (s : State) : Host.Outcome State Fault Refusal :=
  guarded s <| finish (.ts (tsFrame s.cfg k)) s

end Sys2Proof.Machine
end

