-- ==== Sys2Proof/Machine/Packetizer.lean ====
section
/-! DEFINITION. Packetizer: TX_FRAME and TX_FLUSH (42_packetizer.md R165 to R173). -/

namespace Sys2Proof.Machine

/-- A fresh, empty accumulator (R166, R167): `acc_n = 0`, `acc_size = HDR_BASE`, `acc_data` empty; no entry of
`acc_lh` holds a value (R30). -/
def accClear (s : State) : State := { s with accN := 0, accSize := hdrBase, accLh := [], accData := [] }

/-- The packet a flush makes (R167): ENC_HDR of the accumulator's descriptors, then its data. The rule calls ENC_HDR
with `acc_n <= MAX_LINES`, where it cannot fail (log entry 20). -/
def flushPacket (m : Bool) (xseq : Word) (s : State) : Bytes :=
  encHdrBytes s.cfg m xseq s.txTs (s.accLh.take s.accN) ++ s.accData

/-- TX_FLUSH (R167): a sequence number, the packet, `Send`, a fresh accumulator; `tx_sent` counts an `Ok`. -/
def txFlush (m : Bool) (s : State) : SendAnswer × State :=
  let q := nextSeq s
  let r := send (flushPacket m q.1 q.2) q.2
  let t := accClear r.2
  (r.1, { t with txSent := if r.1 = .ok then t.txSent + 1 else t.txSent })

/-- The start of TX_FRAME after its argument check (R166): FRAME is borrowed, the timestamp latched, `frame_idx`
advanced, the count, the accumulator and the cursor cleared. -/
def txBegin (frame : Bytes) (s : State) : State :=
  accClear { s with
    frame := frame
    txTs := tsFrame s.cfg s.frameIdx
    frameIdx := s.frameIdx + 1
    txSent := 0
    txRow := 0
    txOff := 0 }

/-- "row finished" (R166). -/
def txNextRow (s : State) : State := { s with txRow := s.txRow + 1, txOff := 0 }

/-- The fragment's length: `min(row_bytes - tx_off, room)` (R166). -/
def txFragLen (rowBytes : Nat) (s : State) : Nat := min (rowBytes - s.txOff.toNat) (accRoom s)

/-- The next fragment goes into the accumulator (R166). -/
def txTake (rowBytes : Nat) (s : State) : State :=
  let len := txFragLen rowBytes s
  { s with
    accLh := s.accLh.take s.accN ++ [⟨BitVec.ofNat 16 len, s.txRow.setWidth 16, s.txOff⟩]
    accData := s.accData ++ frameRead s (s.txRow.toNat * rowBytes + s.txOff.toNat) len
    accN := s.accN + 1
    accSize := s.accSize + s.cfg.lhStride + len
    txOff := s.txOff + BitVec.ofNat 16 len }

/-- How the loop of TX_FRAME ends. -/
inductive LoopEnd where
  /-- `tx_row = height`: every row is in a packet or in the accumulator. -/
  | rowsDone (s : State)
  /-- A `Send` answered `IoError`. -/
  | sendFailed (s : State)
  /-- The turns ran out: the loop makes no progress. -/
  | stuck
  deriving DecidableEq, Repr, Inhabited

/-- The loop of TX_FRAME (R166), at most `turns` turns. -/
def txLoop (height rowBytes : Nat) : (turns : Nat) → State → LoopEnd
  | 0, _ => .stuck
  | turns + 1, s =>
    if s.txRow.toNat < height then
      if s.txOff.toNat = rowBytes then txLoop height rowBytes turns (txNextRow s)
      else if accFull s then
        match txFlush false s with
        | (.ioError, t) => .sendFailed t
        | (.ok, t) => txLoop height rowBytes turns t
      else txLoop height rowBytes turns (txTake rowBytes s)
    else .rowsDone s

/-- A bound on the turns: for each row at most one fragment and one flush per byte and one turn that finishes the row,
and the turn that leaves the loop. It is never reached for a well-formed CFG (log entry 22). -/
def txTurns (height rowBytes : Nat) : Nat := height * (2 * rowBytes + 1) + 1

/-- TX_FRAME ends (R54, R281, R291, U14): FRAME is released, and the working registers, the accumulator among them, hold
no value any more (log entry 9). -/
def txEnd (s : State) : State := { txForget s with frame := [] }

/-- TX_FRAME (R165, R166). -/
def execTxFrame (frame : Bytes) (height width bpp : Nat) (s : State) : Host.Outcome State Fault Refusal :=
  guarded s <|
    if txArgsOk frame height width bpp then
      match txLoop height (width * bpp) (txTurns height (width * bpp)) (txBegin frame s) with
      | .stuck => .fault .txFrameNeverEnds
      | .sendFailed t => raise (.transportSend t.txSent) (txEnd t)
      | .rowsDone t =>
        match txFlush true t with
        | (.ioError, u) => raise (.transportSend u.txSent) (txEnd u)
        | (.ok, u) => finish (.packetCount u.txSent) (txEnd u)
    else raise .argFrame s

/-- The outcome of TX_FLUSH (R167). -/
def flushOutcome : SendAnswer → OpOutcome
  | .ok => .ok .unit
  | .ioError => .err .transportFlush

/-- TX_FLUSH as an operation of its own. -/
def execTxFlush (m : Bool) (s : State) : Host.Outcome State Fault Refusal :=
  guarded s <| .next (deliver (flushOutcome (txFlush m s).1) (txFlush m s).2)

end Sys2Proof.Machine
end

