-- ==== Sys2Proof/Machine/Depacketizer.lean ====
section
/-! DEFINITION. Depacketizer: RX_FRAME, RX_DGRAM, RX_EXPIRE and RX_IOERR (43_depacketizer.md R190 to R201). -/

namespace Sys2Proof.Machine

/-- One descriptor of an accepted datagram whose data starts at `p` (R191, R192, R194): skipped whole with a
`FragOutOfFrame` event where it lies outside the frame; otherwise the bookkeeping when RX_VALIDATE = 1, and its data
stored at `line * RX_STRIDE + off`. Says whether it passed the bounds check. -/
def rxFragment (b : Bytes) (i p : Nat) (d : LineDesc) (s : State) : Bool × State :=
  let inside := fragInFrame s.cfg d
  let recorded := inside && s.cfg.rxValidate
  let a := fragAddr s.cfg d
  let len := d.len.toNat
  (inside, { s with
    diag := s.diag ++
      if !inside then [.fragOutOfFrame i d]
      else if recorded && setMeets s.rxWritten a len then [.rangeOverlap i d]
      else []
    rxWritten := if recorded then setAddRange s.rxWritten a len else s.rxWritten
    asm := if inside then memWriteBytes s.asm a (slice b p len) else s.asm })

/-- Step 2 of RX_DGRAM: the descriptors in order, from the i-th with data at `p` (R191). -/
def rxFragments (b : Bytes) : (i p : Nat) → (wrote : Bool) → List LineDesc → State → Bool × State
  | _, _, wrote, [], s => (wrote, s)
  | i, p, wrote, d :: ds, s =>
    let r := rxFragment b i p d s
    rxFragments b (i + 1) (p + d.len.toNat) (wrote || r.1) ds r.2

/-- The transition Idle to Assembling (R191, R196). -/
def rxAssemble (wrote : Bool) (s : State) : State :=
  { s with rxState := if wrote && decide (s.rxState = .idle) then .assembling else s.rxState }

/-- Step 3 of RX_DGRAM on a marker (R195): Complete, the flag, then Idle with the bookkeeping emptied. -/
def rxMarker (s : State) : Bool × State :=
  let s1 := { s with rxState := .complete }
  (incompleteFlag s1, rxFrameBoundary s1)

/-- RX_DGRAM (R191): a datagram that does not decode is dropped and nothing changes. -/
def rxDgram (b : Bytes) (s : State) : OpValue × State :=
  match decHdr s.cfg b with
  | .error e => (.dropped e, s)
  | .ok f =>
    let r := rxFragments b 0 f.ds false f.lines (rxSequence f.xseq s)
    let s2 := rxAssemble r.1 r.2
    if f.m then (.frameDone (rxMarker s2).1, (rxMarker s2).2) else (.accepted, s2)

/-- RX_EXPIRE (R197): the frame bookkeeping is emptied; ASM, `rx_seq_valid` and `rx_ext_hi` are kept. -/
def rxExpire (s : State) : State := rxFrameBoundary s

/-- RX_IOERR (R198): treated as a timeout is. -/
def rxIoerr (s : State) : State := rxFrameBoundary s

/-- The loop of RX_FRAME (R190) over TRANSPORT's answers. When no answer is left the caller's window elapses and
TRANSPORT answers `Timeout` (R285; log entry 12). -/
def rxLoop (timeout : Nat) : List RecvAnswer → State → OpOutcome × State
  | [], s => (.err .timeout, rxExpire (recvAnswered timeout .timeout [] s))
  | .timeout :: rest, s => (.err .timeout, rxExpire (recvAnswered timeout .timeout rest s))
  | .ioError :: rest, s => (.err .transportRecv, rxIoerr (recvAnswered timeout .ioError rest s))
  | .dgram b :: rest, s =>
    match rxDgram b (recvAnswered timeout (.dgram b) rest s) with
    | (.frameDone incomplete, t) => (.ok (.completeFrame incomplete), t)
    | (_, t) => rxLoop timeout rest t

/-- RX_FRAME (R190). -/
def execRxFrame (timeout : Nat) (s : State) : Host.Outcome State Fault Refusal :=
  guarded s <|
    match rxLoop timeout s.recvAnswers s with
    | (.ok v, t) => finish v t
    | (.err e, t) => raise e t

/-- RX_DGRAM as a command (R191). -/
def execRxDgram (b : Bytes) (s : State) : Host.Outcome State Fault Refusal :=
  guarded s <| finish (rxDgram b s).1 (rxDgram b s).2

/-- RX_EXPIRE as an operation of its own (R197). -/
def execRxExpire (s : State) : Host.Outcome State Fault Refusal :=
  guarded s <| raise .timeout (rxExpire s)

/-- RX_IOERR as an operation of its own (R198). -/
def execRxIoerr (s : State) : Host.Outcome State Fault Refusal :=
  guarded s <| raise .transportRecv (rxIoerr s)

end Sys2Proof.Machine
end

