-- ==== Sys2Proof/Machine/SessionControl.lean ====
section
/-! DEFINITION. Session control: TX_INIT and RX_INIT (44_session_control.md R220, R221), and the four reserved command
codes (30_encoding.md R111). -/

namespace Sys2Proof.Machine

/-- TX_INIT (R220). -/
def execTxInit (seqInit frameInit : Word) (s : State) : Host.Outcome State Fault Refusal :=
  guarded s <| finish .unit { s with seqLast := seqInit, frameIdx := frameInit, seqOvf := false }

/-- RX_INIT (R221). -/
def execRxInit (s : State) : Host.Outcome State Fault Refusal := guarded s <| finish .unit (rxForget s)

/-- `Err(IllegalCommand, cmd)`, no state change (R111, R241). -/
def illegalCommand (code : BitVec 4) (s : State) : Host.Outcome State Fault Refusal :=
  guarded s <| raise (.illegalCommand code) s

/-- Code 0x0 (R111). -/
def execReserved0 (s : State) : Host.Outcome State Fault Refusal := illegalCommand 0x0 s

/-- Code 0xD (R111). -/
def execReservedD (s : State) : Host.Outcome State Fault Refusal := illegalCommand 0xD s

/-- Code 0xE (R111). -/
def execReservedE (s : State) : Host.Outcome State Fault Refusal := illegalCommand 0xE s

/-- Code 0xF (R111). -/
def execReservedF (s : State) : Host.Outcome State Fault Refusal := illegalCommand 0xF s

end Sys2Proof.Machine
end

