-- ==== Sys2Proof/Machine/Dispatch.lean ====
section
/-! DEFINITION. One arm per instruction. -/

namespace Sys2Proof.Machine

def exec (i : Instr) (s : State) : Host.Outcome State Fault Refusal :=
  match i with
  | .txInit a b => Sys2Proof.Machine.execTxInit a b s
  | .encHdr m q t ls => Sys2Proof.Machine.execEncHdr m q t ls s
  | .decHdr b => Sys2Proof.Machine.execDecHdr b s
  | .nextSeq => Sys2Proof.Machine.execNextSeq s
  | .tsFrame k => Sys2Proof.Machine.execTsFrame k s
  | .txFrame f h w p => Sys2Proof.Machine.execTxFrame f h w p s
  | .txFlush m => Sys2Proof.Machine.execTxFlush m s
  | .rxFrame t => Sys2Proof.Machine.execRxFrame t s
  | .rxDgram b => Sys2Proof.Machine.execRxDgram b s
  | .rxExpire => Sys2Proof.Machine.execRxExpire s
  | .rxIoerr => Sys2Proof.Machine.execRxIoerr s
  | .rxInit => Sys2Proof.Machine.execRxInit s
  | .reserved0 => Sys2Proof.Machine.execReserved0 s
  | .reservedD => Sys2Proof.Machine.execReservedD s
  | .reservedE => Sys2Proof.Machine.execReservedE s
  | .reservedF => Sys2Proof.Machine.execReservedF s
  | .pktTx m q => Sys2Proof.Machine.execPktTx m q s
  | .pktRx p x cc m pt q => Sys2Proof.Machine.execPktRx p x cc m pt q s
  | .payloadExt e => Sys2Proof.Machine.execPayloadExt e s
  | .lineDesc l n o => Sys2Proof.Machine.execLineDesc l n o s

end Sys2Proof.Machine
end

