-- ==== Sys2Proof/Machine/Port.lean ====
section
/-! DEFINITION. The command ports and the other entries of the block (30_encoding.md R110, R111; 60_exceptions.md R241,
R243, R244; 70_reset_and_hazards.md R270, R280 to R283): what one pending request does. -/

namespace Sys2Proof.Machine

/-- The busy bit of an engine (R24, R37). -/
def busy (port : Engine) (s : State) : Bool :=
  match port with
  | .txe => s.txBusy
  | .rxe => s.rxBusy

/-- Write the busy bit of an engine. -/
def setBusy (port : Engine) (v : Bool) (s : State) : State :=
  match port with
  | .txe => { s with txBusy := v }
  | .rxe => { s with rxBusy := v }

/-- The command has run: its busy bit is 0 again. -/
def endCommand (port : Engine) : Host.Outcome State Fault Refusal → Host.Outcome State Fault Refusal
  | .next t => .next (setBusy port false t)
  | .fault f => .fault f
  | .refused r => .refused r

/-- An encoded instruction that runs: decoded, then its meaning. -/
def runEncoded (e : Encoded) (s : State) : Host.Outcome State Fault Refusal :=
  match decode s.cfg e with
  | .ok i => exec i s
  | .error r => .refused (.undecodable r)

/-- HOST issues a code on a port. "IllegalCommand is decided before the operands are looked at" (R244 (e)); a command
on a busy engine is a move HOST does not have (R280, R282, U22); else the command runs with the engine's busy bit 1
(R24, R37). -/
def hostCommand (port : Engine) (code : BitVec 4) (ops : Operands) (s : State) : Host.Outcome State Fault Refusal :=
  if hostMayIssue port code then
    if busy port s then .fault (.commandWhileBusy port)
    else endCommand port (runEncoded (.cmd code ops) (setBusy port true s))
  else illegalCommand code s

/-- An internal operation run without its caller (log entry 2). -/
def internalCall (code : BitVec 4) (ops : Operands) (s : State) : Host.Outcome State Fault Refusal :=
  if isInternalOp code then runEncoded (.cmd code ops) s else .refused (.notAnInternalOperation code)

/-- HOST stores into ASM, offsets 0 .. RX_SIZE-1 (R55, R283). -/
def hostStore (offset : Nat) (bytes : Bytes) (s : State) : Host.Outcome State Fault Refusal :=
  if offset + bytes.length ≤ s.cfg.rxSize then .next { s with asm := memWriteBytes s.asm offset bytes }
  else .fault .asmOutOfRange

/-- What one request does. -/
def serve (r : Request) (s : State) : Host.Outcome State Fault Refusal :=
  match r with
  | .host port code ops => hostCommand port code ops s
  | .wire bytes => runEncoded (.wire bytes) s
  | .reset => .next (hwReset s)
  | .hostWriteAsm offset bytes => hostStore offset bytes s

/-- The port HOST issues a code on: its engine's (R110), and for a code of no engine TXE's, where it is refused as on
RXE's (R111). -/
def portOf (code : BitVec 4) : Engine :=
  match commandEngine code with
  | some port => port
  | none => .txe

/-- The state whose next step runs an encoded instruction: an internal operation as a lone call (HOST's issue of its code
would be refused, R111), any other code as HOST's issue on its port, a wire-format element as such, each ahead of what is
pending (log entries 1, 2). -/
def runNext (e : Encoded) (s : State) : State :=
  match e with
  | .cmd code ops =>
    if isInternalOp code then { s with loneCall := some (code, ops) }
    else { s with loneCall := none, pending := .host (portOf code) code ops :: s.pending }
  | .wire bs => { s with loneCall := none, pending := .wire bs :: s.pending }

/-- The encoded form of a table word; a word of no row is handed over as the bytes it is. -/
def wordAsEncoded (nbits w : Nat) : Encoded := (encodedOfTableWord nbits w).getD (.wire (beBytes ((nbits + 7) / 8) w))

end Sys2Proof.Machine
end

