-- ==== Sys2Proof/Machine/Step.lean ====
section
/-! DEFINITION. One step (00_scope.md R6): the oldest pending request is taken and served whole. -/

namespace Sys2Proof.Machine

/-- One step. With nothing pending "both engines are idle" and wait for HOST's next command (R272): nothing changes (log
entry 21). -/
def step (s : State) : Host.Outcome State Fault Refusal :=
  match s.loneCall with
  | some (code, ops) => internalCall code ops { s with loneCall := none }
  | none =>
    match s.pending with
    | [] => .next s
    | r :: rest => serve r { s with pending := rest }

/-- The instruction of a table word is the next thing the block does; nothing else changes (log entries 1, 2). -/
def State.withFetchWord (s : State) (nbits w : Nat) : State := runNext (wordAsEncoded nbits w) s

end Sys2Proof.Machine
end

