-- ==== Sys2Proof/Safety.lean ====
section
/-! DEFINITION. The terms in which claims speak of the block: what holds between any two operations (`BlockInv`), what "no
shared state between send and receive directions" means (R20), and the readings of a packet, a frame's fragments and a
datagram that the rules' prose uses (R98, R101, R170, R192, R194, R195). -/

namespace Sys2Proof.Machine

/-! ## What holds between two operations -/

/-- The sum of the LEN fields. -/
def lenSum (lines : List LineDesc) : Nat := (lines.map fun d => d.len.toNat).sum

/-- The accumulator while TX_FRAME runs (R28 to R31): at most MAX_LINES descriptors, `acc_size` the encoded size a flush would give and
within MTU_BUDGET, and as many data bytes as the descriptors say. -/
structure AccOk (s : State) : Prop where
  count : s.accN = s.accLh.length
  countMax : s.accN ≤ s.cfg.maxLines
  size : s.accSize = hdrBase + s.accN * s.cfg.lhStride + lenSum s.accLh
  sizeMax : s.accSize ≤ s.cfg.mtuBudget
  data : s.accData.length = lenSum s.accLh

/-- The accumulator's registers are in their ranges (R28 to R30), whatever they hold. -/
structure AccInRange (s : State) : Prop where
  count : s.accN ≤ s.cfg.maxLines
  sizeMin : hdrBase ≤ s.accSize
  sizeMax : s.accSize ≤ s.cfg.mtuBudget
  entries : s.accLh.length ≤ s.cfg.maxLines

/-- The accumulator is fresh and empty (R29, R167). -/
structure AccEmpty (s : State) : Prop where
  count : s.accN = 0
  size : s.accSize = 14
  entries : s.accLh = []
  data : s.accData = []

/-- What holds between two operations, whatever has run. -/
structure BlockInv (s : State) : Prop where
  /-- CFG is well formed (R52). -/
  cfgWf : s.cfg.wf = true
  /-- ASM is in canonical form and inside its buffer (R55, R69). -/
  asmWf : s.asm.wf = true
  asmWithin : s.asm.within s.cfg.rxSize = true
  /-- `rx_written` is a set of byte offsets of ASM (R36). -/
  writtenRising : setRisingFrom 0 s.rxWritten = true
  writtenWithin : ∀ k ∈ s.rxWritten, k < s.cfg.rxSize
  /-- Every offset of `rx_written` has been written. -/
  writtenStored : ∀ k ∈ s.rxWritten, (memRead s.asm k).isSome = true
  /-- With RX_VALIDATE = 0 it stays empty (R36). -/
  writtenOff : s.cfg.rxValidate = false → s.rxWritten = []
  /-- Complete is never the state between two operations (R33, R196). -/
  rxResting : s.rxState ≠ .complete
  /-- No operation is in flight (R24, R37, R291). -/
  txIdle : s.txBusy = false
  rxIdle : s.rxBusy = false
  /-- The accumulator holds no value (R291), so no more is known of its registers than their ranges (R28 to R30, U14). -/
  acc : AccInRange s
  /-- The block holds no reference to a FRAME (R54, R281). -/
  frameReleased : s.frame = []

/-! ## The two engines -/

/-- The TXE registers, its log, its buffer and its input are the same in both states (R20 to R31, R38, R54). -/
structure SameTx (s t : State) : Prop where
  seqLast : t.seqLast = s.seqLast
  frameIdx : t.frameIdx = s.frameIdx
  seqOvf : t.seqOvf = s.seqOvf
  txBusy : t.txBusy = s.txBusy
  txTs : t.txTs = s.txTs
  txRow : t.txRow = s.txRow
  txOff : t.txOff = s.txOff
  txSent : t.txSent = s.txSent
  accN : t.accN = s.accN
  accSize : t.accSize = s.accSize
  accLh : t.accLh = s.accLh
  accData : t.accData = s.accData
  txd : t.txd = s.txd
  frame : t.frame = s.frame
  sendAnswers : t.sendAnswers = s.sendAnswers
  txFree : t.txFree = s.txFree

/-- The RXE registers, its log, its buffer and its input are the same in both states (R33 to R38, R55). -/
structure SameRx (s t : State) : Prop where
  rxState : t.rxState = s.rxState
  rxSeqValid : t.rxSeqValid = s.rxSeqValid
  rxExtHi : t.rxExtHi = s.rxExtHi
  rxGap : t.rxGap = s.rxGap
  rxWritten : t.rxWritten = s.rxWritten
  rxBusy : t.rxBusy = s.rxBusy
  diag : t.diag = s.diag
  asm : t.asm = s.asm
  recvAnswers : t.recvAnswers = s.recvAnswers
  recvLog : t.recvLog = s.recvLog
  rxFree : t.rxFree = s.rxFree

/-- CFG and what is still to be served are the same in both states. -/
structure SameRest (s t : State) : Prop where
  cfg : t.cfg = s.cfg
  pending : t.pending = s.pending
  loneCall : t.loneCall = s.loneCall

/-- The state with the TXE working registers (R25 to R31) blotted out. -/
def withoutWorking (s : State) : State :=
  { s with txTs := 0, txRow := 0, txOff := 0, txSent := 0, accN := 0, accSize := 0, accLh := [], accData := [] }

/-- The request that the next step serves: the oldest one, unless the step runs a lone call. -/
def served (s : State) : Option Request := if s.loneCall = none then s.pending.head? else none

/-- The engine an operation belongs to (R110); the reserved codes and the wire-format rows belong to none. -/
def engineOf : Instr → Option Engine
  | .txInit _ _ | .encHdr _ _ _ _ | .nextSeq | .tsFrame _ | .txFrame _ _ _ _ | .txFlush _ => some .txe
  | .decHdr _ | .rxFrame _ | .rxDgram _ | .rxExpire | .rxIoerr | .rxInit => some .rxe
  | .reserved0 | .reservedD | .reservedE | .reservedF | .pktTx _ _ | .pktRx _ _ _ _ _ _ | .payloadExt _
  | .lineDesc _ _ _ => none

/-! ## The length of a datagram against its descriptors (R101) -/

/-- The first n descriptors of a datagram: the i-th at `14 + i * LH_STRIDE` (R95, R97). -/
def descsAt (c : Cfg) (b : Bytes) (n : Nat) : List LineDesc :=
  (List.range n).map fun i => readDesc c b (14 + i * c.lhStride)

/-- `14 + n * LH_STRIDE + (LEN_0 + ... + LEN_(n-1))` (R101). -/
def walkTotal (c : Cfg) (b : Bytes) (n : Nat) : Nat := 14 + n * c.lhStride + lenSum (descsAt c b n)

/-! ## The arguments of TX_FRAME and the fragments of a frame (R165, R170 (b)) -/

/-- The conditions under which the arguments of TX_FRAME are valid (R165). -/
structure ValidFrame (frame : Bytes) (height width bpp : Nat) : Prop where
  heightMin : 1 ≤ height
  heightMax : height ≤ 65536
  widthMin : 1 ≤ width
  bppMin : 1 ≤ bpp
  rowMax : width * bpp ≤ 65535
  size : frame.length = height * (width * bpp)

/-- Read in order from byte `off` of row `row`, the descriptors take up every byte of every row up to the last, each
with at least one byte: `(len_1, r, 0), (len_2, r, len_1), ...` for row r, then row r + 1, and so on. -/
def coversRows (height rowBytes : Nat) : (row off : Nat) → List LineDesc → Bool
  | row, off, [] => decide (row = height) && decide (off = 0)
  | row, off, d :: ds =>
    decide (row < height) && decide (d.line.toNat = row) && decide (d.off.toNat = off) && decide (1 ≤ d.len.toNat)
    && decide (off + d.len.toNat ≤ rowBytes)
    && (if off + d.len.toNat = rowBytes then coversRows height rowBytes (row + 1) 0 ds
        else coversRows height rowBytes row (off + d.len.toNat) ds)

/-! ## The fragments of a datagram (R192, R194, R195) -/

/-- ASM's byte at offset a is covered by the descriptor: the fragment passes the bounds check and its range holds a. -/
def fragCovers (c : Cfg) (d : LineDesc) (a : Nat) : Bool :=
  fragInFrame c d && decide (fragAddr c d ≤ a) && decide (a < fragAddr c d + d.len.toNat)

/-- The byte that the last fragment covering offset a brings, the data of the first descriptor starting at p: "the
bytes of the one processed later stay in ASM" (R194). -/
def lastCovering (c : Cfg) (b : Bytes) : (p : Nat) → List LineDesc → (a : Nat) → Option Byte
  | _, [], _ => none
  | p, d :: ds, a =>
    (lastCovering c b (p + d.len.toNat) ds a).or
      (if fragCovers c d a then some (byteAt b (p + (a - fragAddr c d))) else none)

/-- The event of the i-th descriptor of a datagram (R192, R194, R244 (b)): FragOutOfFrame where it fails the bounds
check; RangeOverlap where, with RX_VALIDATE = 1, one of its bytes was written before, in the frame (`w`) or by an
earlier descriptor of the datagram (`before`). -/
def fragEvent (c : Cfg) (w : List Nat) (before : List LineDesc) (i : Nat) (d : LineDesc) : List DiagEvent :=
  if fragInFrame c d then
    if c.rxValidate && (List.range d.len.toNat).any (fun k =>
        w.contains (fragAddr c d + k) || before.any fun e => fragCovers c e (fragAddr c d + k))
    then [.rangeOverlap i d] else []
  else [.fragOutOfFrame i d]

/-- The events of the descriptors in index order, `before` those already processed. -/
def fragEvents (c : Cfg) (w : List Nat) : (before : List LineDesc) → List LineDesc → List DiagEvent
  | _, [] => []
  | before, d :: ds => fragEvent c w before before.length d ++ fragEvents c w (before ++ [d]) ds

/-! ## Datagrams one after another -/

/-- RX_DGRAM on each datagram in order: the outcomes' values and the state after the last. -/
def rxDgrams : List Bytes → State → List OpValue × State
  | [], s => ([], s)
  | b :: bs, s =>
    let r := rxDgram b s
    let q := rxDgrams bs r.2
    (r.1 :: q.1, q.2)

end Sys2Proof.Machine
end

