-- ==== Sys2Proof/Certificates/Slice0/Obligations.lean ====
section
/-! DEFINITION. The statements about the block, from the numbered rules of spec/. -/

open Sys2Proof Sys2Proof.Machine

/-! ## Encodings -/

/-- 30_encoding.md R110, R111: the sixteen command codes; R115: one word of each wire-format row, written out from its
bit table (R91, R95, R96), at the table's own configuration, RTP_VERSION = 2 and PAYLOAD_TYPE = 96 (R115, "at the
default"; the defaults are PRESUMED by the spec, log entry 6). Operands that the table gives no bits are zero or empty,
and a word that fits PKT_TX and PKT_RX is PKT_TX: the model's choices (log entry 4). -/
def Obligations.TableWordsDecodeToTheirRows : Prop :=
  decodeTableWord 8 0x0 = some .reserved0 ∧ decodeTableWord 8 0x1 = some (.txInit 0 0) ∧
  decodeTableWord 8 0x2 = some (.encHdr false 0 0 []) ∧ decodeTableWord 8 0x3 = some (.decHdr []) ∧
  decodeTableWord 8 0x4 = some .nextSeq ∧ decodeTableWord 8 0x5 = some (.tsFrame 0) ∧
  decodeTableWord 8 0x6 = some (.txFrame [] 0 0 0) ∧ decodeTableWord 8 0x7 = some (.txFlush false) ∧
  decodeTableWord 8 0x8 = some (.rxFrame 0) ∧ decodeTableWord 8 0x9 = some (.rxDgram []) ∧
  decodeTableWord 8 0xA = some .rxExpire ∧ decodeTableWord 8 0xB = some .rxIoerr ∧
  decodeTableWord 8 0xC = some .rxInit ∧ decodeTableWord 8 0xD = some .reservedD ∧
  decodeTableWord 8 0xE = some .reservedE ∧ decodeTableWord 8 0xF = some .reservedF ∧
  decodeTableWord 32 0b10000000111000000000000000000001 = some (.pktTx true 1) ∧
  decodeTableWord 32 0b10111111011111111111111111111110 = some (.pktRx true true 15 false 127 0xFFFE) ∧
  decodeTableWord 32 0b01000000011000000000000000000001 = none ∧
  decodeTableWord 16 0x0102 = some (.payloadExt 0x0102) ∧
  decodeTableWord 48 0x000C00010203 = some (.lineDesc 12 1 0x0203)

/-- Decoding what the encoder writes gives the instruction back, for every instruction, every operand value and every
CFG (well-formed meaning: a PKT_RX whose word is no PKT_TX, log entry 4). -/
def Obligations.DecodeOfEncodeIsTheInstruction : Prop :=
  ∀ (c : Cfg) (i : Instr), i.wellFormed c = true → decode c (encode c i) = .ok i

/-- The other direction for the wire-format rows: the bytes of an element that decodes are exactly the encoder's bytes
of what it decodes to, so the decoder drops no bit. R115 lets a word of PKT_TX fit PKT_RX too: that the decoder gives
it the narrower reading alone, which is what makes the result well formed and the reading single, is the model's choice
(log entry 4). -/
def Obligations.WireBytesHaveOneReading : Prop :=
  ∀ (c : Cfg) (bs : Bytes) (i : Instr), decode c (.wire bs) = .ok i →
    encode c i = .wire bs ∧ i.wellFormed c = true

/-- 30_encoding.md R91: word 0 as a number, each field at its place, and each field read back from it. -/
def Obligations.HeaderWordHoldsEachFieldAtItsPlace : Prop :=
  ∀ (v : BitVec 2) (p x : Bool) (cc : BitVec 4) (m : Bool) (pt : BitVec 7) (seq : Half),
    let w := word0 v p x cc m pt seq
    w.toNat = v.toNat * 2 ^ 30 + p.toNat * 2 ^ 29 + x.toNat * 2 ^ 28 + cc.toNat * 2 ^ 24 + m.toNat * 2 ^ 23
      + pt.toNat * 2 ^ 16 + seq.toNat ∧
    word0V w = v ∧ word0P w = p ∧ word0X w = x ∧ word0CC w = cc ∧ word0M w = m ∧ word0PT w = pt ∧ word0Seq w = seq

/-! ## WireFormat -/

/-- 40_wireformat.md R130: ENC_HDR with at most MAX_LINES descriptors answers the header bytes, word 0 as the rule sums
it up, TS, SSRC and EXT after it, and each field of each descriptor at the start of its slot with zero pad bytes behind
it (30_encoding.md R97); with more, `Err(ArgError)` with the count. Nothing else changes. -/
def Obligations.EncodeHeaderWritesTheLayout : Prop :=
  ∀ (s : State) (m : Bool) (xseq ts : Word) (lines : List LineDesc), s.cfg.wf = true →
    (lines.length ≤ s.cfg.maxLines → ∃ b : Bytes,
      exec (.encHdr m xseq ts lines) s = .next { s with outcome := some (.ok (.bytes b)) } ∧
      b.length = 14 + lines.length * (3 * s.cfg.lhSlot) ∧
      (rd32 b 0).toNat = s.cfg.rtpVersion.toNat * 2 ^ 30 + m.toNat * 2 ^ 23 + s.cfg.payloadType.toNat * 2 ^ 16
        + xseq.toNat % 2 ^ 16 ∧
      rd32 b 4 = ts ∧ rd32 b 8 = s.cfg.ssrc ∧ (rd16 b 12).toNat = xseq.toNat / 2 ^ 16 ∧
      ∀ (i : Nat) (d : LineDesc), lines[i]? = some d →
        let pos := 14 + i * (3 * s.cfg.lhSlot)
        rd16 b pos = d.len ∧ rd16 b (pos + s.cfg.lhSlot) = d.line ∧ rd16 b (pos + 2 * s.cfg.lhSlot) = d.off ∧
        ∀ slot < 3, ∀ k, 2 ≤ k → k < s.cfg.lhSlot → byteAt b (pos + slot * s.cfg.lhSlot + k) = 0) ∧
    (s.cfg.maxLines < lines.length →
      exec (.encHdr m xseq ts lines) s = .next { s with outcome := some (.err (.argLines lines.length)) })

/-- 40_wireformat.md R135, 30_encoding.md R101, R102, 60_exceptions.md R231 to R233, R244 (a): the outcome of DEC_HDR
for every byte string, told by the datagram's length and its descriptors instead of the walk: Truncated below 14 bytes;
else VersionMismatch; else the fields, with N the number of descriptors at which `14 + N * LH_STRIDE + LEN_0 + ... +
LEN_(N-1)` is the length; else LineCountExceeded where MAX_LINES descriptors still fall short of it; else Truncated.
No register, memory or log changes. -/
def Obligations.DecodeHeaderOutcomeByLengths : Prop :=
  ∀ (s : State) (b : Bytes), s.cfg.wf = true →
    (b.length < 14 → exec (.decHdr b) s = .next { s with outcome := some (.err (.truncated b.length)) }) ∧
    (14 ≤ b.length → word0V (rd32 b 0) ≠ s.cfg.rtpVersion →
      exec (.decHdr b) s = .next { s with outcome := some (.err (.versionMismatch (word0V (rd32 b 0)))) }) ∧
    (14 ≤ b.length → word0V (rd32 b 0) = s.cfg.rtpVersion →
      (∀ n, n ≤ s.cfg.maxLines → walkTotal s.cfg b n = b.length →
        exec (.decHdr b) s = .next { s with outcome := some (.ok (.fields
          { v := word0V (rd32 b 0), p := word0P (rd32 b 0), x := word0X (rd32 b 0), cc := word0CC (rd32 b 0)
            m := word0M (rd32 b 0), pt := word0PT (rd32 b 0), seq := word0Seq (rd32 b 0), ts := rd32 b 4
            ssrc := rd32 b 8, ext := rd16 b 12
            xseq := BitVec.ofNat 32 ((rd16 b 12).toNat * 65536 + (word0Seq (rd32 b 0)).toNat)
            n := n, lines := descsAt s.cfg b n, ds := 14 + n * s.cfg.lhStride })) }) ∧
      (walkTotal s.cfg b s.cfg.maxLines < b.length →
        exec (.decHdr b) s = .next { s with outcome := some (.err (.lineCountExceeded (s.cfg.maxLines + 1))) }) ∧
      ((∀ n, n ≤ s.cfg.maxLines → walkTotal s.cfg b n ≠ b.length) → b.length < walkTotal s.cfg b s.cfg.maxLines →
        exec (.decHdr b) s = .next { s with outcome := some (.err (.truncated b.length)) }))

/-- 40_wireformat.md R137: decoding an encoded packet gives back the marker, the number, the timestamp and the
descriptors, with the profile's other fields and DS. -/
def Obligations.HeadersRoundTrip : Prop :=
  ∀ (c : Cfg) (m : Bool) (xseq ts : Word) (lines : List LineDesc) (data : Bytes), c.wf = true →
    lines.length ≤ c.maxLines → data.length = lenSum lines →
    ∃ f, decHdr c (encPkt c m xseq ts lines data) = .ok f ∧
      f.m = m ∧ f.xseq = xseq ∧ f.ts = ts ∧ f.lines = lines ∧ f.n = lines.length ∧ f.ssrc = c.ssrc ∧
      f.v = c.rtpVersion ∧ f.p = false ∧ f.x = false ∧ f.cc = 0 ∧ f.pt = c.payloadType ∧
      f.ds = 14 + lines.length * c.lhStride

/-- The four wire-format rows run as the pieces of ENC_HDR and DEC_HDR they are the encodings of (30_encoding.md R92,
R95, R97, R102, R103): that a row of this kind runs at all is the model's choice, log entry 3. Nothing but the outcome
changes. -/
def Obligations.WireRowsReportTheirFields : Prop :=
  ∀ (s : State), s.cfg.wf = true →
    (∀ (m : Bool) (seq : Half), ∃ b : Bytes,
      exec (.pktTx m seq) s = .next { s with outcome := some (.ok (.bytes b)) } ∧ b.length = 4 ∧
      (rd32 b 0).toNat = s.cfg.rtpVersion.toNat * 2 ^ 30 + m.toNat * 2 ^ 23 + s.cfg.payloadType.toNat * 2 ^ 16
        + seq.toNat) ∧
    (∀ (p x : Bool) (cc : BitVec 4) (m : Bool) (pt : BitVec 7) (seq : Half),
      exec (.pktRx p x cc m pt seq) s =
        .next { s with outcome := some (.ok (.word0Fields s.cfg.rtpVersion p x cc m pt seq)) }) ∧
    (∀ ext : Half, ∃ b : Bytes,
      exec (.payloadExt ext) s = .next { s with outcome := some (.ok (.extField ext b)) } ∧ b.length = 2 ∧
      (byteAt b 0).toNat * 256 + (byteAt b 1).toNat = ext.toNat) ∧
    (∀ len line off : Half, ∃ b : Bytes,
      exec (.lineDesc len line off) s = .next { s with outcome := some (.ok (.descriptor ⟨len, line, off⟩ b)) } ∧
      b.length = 3 * s.cfg.lhSlot ∧
      rd16 b 0 = len ∧ rd16 b s.cfg.lhSlot = line ∧ rd16 b (2 * s.cfg.lhSlot) = off ∧
      ∀ slot < 3, ∀ k, 2 ≤ k → k < s.cfg.lhSlot → byteAt b (slot * s.cfg.lhSlot + k) = 0)

/-! ## SessionClock and session control -/

/-- 41_sessionclock.md R150: NEXT_SEQ issues the number after the last one, modulo 2^32, and the wrap sets `seq_ovf`,
which it never clears. Nothing else changes. -/
def Obligations.NextSeqIssuesTheSuccessor : Prop :=
  ∀ s : State, s.cfg.wf = true → ∃ q : Word,
    q.toNat = (s.seqLast.toNat + 1) % 2 ^ 32 ∧
    exec .nextSeq s = .next { s with
      seqLast := q
      seqOvf := s.seqOvf || decide (s.seqLast = 0xFFFFFFFF)
      outcome := some (.ok (.xseq q)) }

/-- 41_sessionclock.md R152: TS_FRAME answers `(k * floor(90000 / FRAME_RATE)) mod 2^32` and changes nothing. -/
def Obligations.TsFrameIsTheFrameIndexInTicks : Prop :=
  ∀ (s : State) (k : Word), s.cfg.wf = true → ∃ t : Word,
    t.toNat = k.toNat * (90000 / s.cfg.frameRate) % 2 ^ 32 ∧
    exec (.tsFrame k) s = .next { s with outcome := some (.ok (.ts t)) }

/-- 44_session_control.md R220: TX_INIT loads both counters and clears `seq_ovf`; the logs and all else stay. -/
def Obligations.TxInitLoadsTheCounters : Prop :=
  ∀ (s : State) (seqInit frameInit : Word), s.cfg.wf = true →
    exec (.txInit seqInit frameInit) s = .next { s with
      seqLast := seqInit, frameIdx := frameInit, seqOvf := false, outcome := some (.ok .unit) }

/-- 44_session_control.md R221: RX_INIT puts the RXE registers in their reset state: Idle, `rx_seq_valid = 0`,
`rx_gap = 0`, `rx_written` empty, and `rx_ext_hi` some value, since it holds none (10_state.md R34, log entry 10). ASM,
the logs, TXE and all else stay. -/
def Obligations.RxInitForgetsTheSession : Prop :=
  ∀ s : State, s.cfg.wf = true → ∃ h : Word,
    exec .rxInit s = .next { s with
      rxState := .idle, rxSeqValid := false, rxExtHi := h, rxGap := false, rxWritten := []
      rxFree := s.rxFree + 1, outcome := some (.ok .unit) }

/-! ## Packetizer -/

/-- 42_packetizer.md R165, 60_exceptions.md R240, R244 (c): TX_FRAME with arguments that are not valid ends with
ArgError and changes nothing. -/
def Obligations.TxFrameRefusesInvalidArguments : Prop :=
  ∀ (s : State) (frame : Bytes) (height width bpp : Nat), s.cfg.wf = true → ¬ ValidFrame frame height width bpp →
    exec (.txFrame frame height width bpp) s = .next { s with outcome := some (.err .argFrame) }

/-- 42_packetizer.md R167: TX_FLUSH takes the next number, encodes the accumulator's descriptors (at most MAX_LINES,
R28) with it and `tx_ts`, sends the header followed by the data, empties the accumulator and counts an `Ok`; an
`IoError` is its outcome. The answer is TRANSPORT's next one where the model is given one. Nothing else changes. -/
def Obligations.TxFlushSendsTheAccumulator : Prop :=
  ∀ (s : State) (m : Bool), s.cfg.wf = true → s.accN ≤ s.cfg.maxLines → ∃ (h : Bytes) (a : SendAnswer) (k : Nat),
    encHdr s.cfg m (s.seqLast + 1) s.txTs (s.accLh.take s.accN) = .ok h ∧
    (∀ b, s.sendAnswers.head? = some b → a = b) ∧
    k = (if s.sendAnswers = [] then s.txFree + 1 else s.txFree) ∧
    exec (.txFlush m) s = .next { s with
      seqLast := s.seqLast + 1
      seqOvf := s.seqOvf || decide (s.seqLast = 0xFFFFFFFF)
      txd := s.txd ++ [(h ++ s.accData, a)]
      accN := 0, accSize := 14, accLh := [], accData := []
      txSent := if a = .ok then s.txSent + 1 else s.txSent
      sendAnswers := s.sendAnswers.tail
      txFree := k
      outcome := some (if a = .ok then .ok .unit else .err .transportFlush) }

/-- 42_packetizer.md R166, R172, 41_sessionclock.md R151: TX_FRAME with valid arguments always ends. It ends
`Ok(count)` with every packet answered `Ok`, or `Err(TransportError, sent)` with `sent` packets answered `Ok` and one,
the last, answered `IoError`. One frame index is used up, one number per packet handed to `Send`, the answers are
TRANSPORT's in order, FRAME is released, the accumulator, which holds no value any more (R291, U14), is in its ranges (log
entry 9), and RXE, CFG and what is pending stay. -/
def Obligations.TxFrameEndsWithExactCounts : Prop :=
  ∀ (s : State) (frame : Bytes) (height width bpp : Nat), s.cfg.wf = true → ValidFrame frame height width bpp →
    ∃ (t : State) (new : List (Bytes × SendAnswer)),
      exec (.txFrame frame height width bpp) s = .next t ∧
      t.txd = s.txd ++ new ∧ new ≠ [] ∧
      ((∃ n : Word, n.toNat = new.length ∧ t.outcome = some (.ok (.packetCount n)) ∧ ∀ e ∈ new, e.2 = .ok) ∨
       (∃ (n : Word) (front : List (Bytes × SendAnswer)) (p : Bytes), new = front ++ [(p, .ioError)] ∧
          n.toNat = front.length ∧ t.outcome = some (.err (.transportSend n)) ∧ ∀ e ∈ front, e.2 = .ok)) ∧
      t.frameIdx.toNat = (s.frameIdx.toNat + 1) % 2 ^ 32 ∧
      t.seqLast.toNat = (s.seqLast.toNat + new.length) % 2 ^ 32 ∧
      t.seqOvf = (s.seqOvf || decide (2 ^ 32 ≤ s.seqLast.toNat + new.length)) ∧
      (new.map Prod.snd).take s.sendAnswers.length = s.sendAnswers.take new.length ∧
      t.sendAnswers = s.sendAnswers.drop new.length ∧
      AccInRange t ∧ t.frame = [] ∧ t.txBusy = s.txBusy ∧
      SameRx s t ∧ SameRest s t

/-- 10_state.md R28 to R31, 42_packetizer.md R166, R167, R172: the accumulator while TX_FRAME runs. It is consistent when
the loop starts, and every move of the loop keeps it so: the next row, a fragment of the current row taken where there is
room, a flush, which leaves it empty. So it is when the rows are done, with a fragment in it, and empty when a `Send`
failed. -/
def Obligations.AccumulatorIsConsistentWhileTxFrameRuns : Prop :=
  ∀ (s : State) (frame : Bytes) (height width bpp : Nat), s.cfg.wf = true → ValidFrame frame height width bpp →
    AccOk (txBegin frame s) ∧ AccEmpty (txBegin frame s) ∧
    (∀ u, AccOk u → AccOk (txNextRow u)) ∧
    (∀ u, AccOk u → accFull u = false → u.frame = frame → u.txRow.toNat < height → u.txOff.toNat < width * bpp →
      AccOk (txTake (width * bpp) u)) ∧
    (∀ u m, u.cfg.wf = true → AccOk (txFlush m u).2 ∧ AccEmpty (txFlush m u).2) ∧
    (∀ turns u, txLoop height (width * bpp) turns (txBegin frame s) = .rowsDone u → AccOk u ∧ 1 ≤ u.accN) ∧
    (∀ turns u, txLoop height (width * bpp) turns (txBegin frame s) = .sendFailed u → AccEmpty u)

/-- 10_state.md R25 to R31, R58, U14: "no rule reads them before writing them". Two states that differ only in the TXE
working registers take the same step, up to these registers. The premise shuts out only a lone call, a move that no agent
has (log entry 2): TX_FLUSH without its caller reads them. -/
def Obligations.WorkingRegistersAreNotReadBetweenCommands : Prop :=
  ∀ s s' t : State, s.loneCall = none → withoutWorking s' = withoutWorking s → step s = .next t →
    ∃ t', step s' = .next t' ∧ withoutWorking t' = withoutWorking t

/-- 42_packetizer.md R166: when TRANSPORT answers every `Send` with `Ok` (one byte per packet is the most packets a
frame can take), TX_FRAME ends `Ok` with the number of packets it sent. -/
def Obligations.TxFrameSucceedsOnAWillingTransport : Prop :=
  ∀ (s : State) (frame : Bytes) (height width bpp : Nat) (rest : List SendAnswer), s.cfg.wf = true →
    ValidFrame frame height width bpp → s.sendAnswers = List.replicate frame.length .ok ++ rest →
    ∃ (t : State) (new : List (Bytes × SendAnswer)) (n : Word),
      exec (.txFrame frame height width bpp) s = .next t ∧ t.txd = s.txd ++ new ∧
      n.toNat = new.length ∧ 1 ≤ new.length ∧ new.length ≤ frame.length ∧ t.outcome = some (.ok (.packetCount n))

/-- 42_packetizer.md R169: no packet handed to `Send` is longer than MTU_BUDGET, and each has room for a descriptor and
a byte. -/
def Obligations.PacketsRespectTheMtuBudget : Prop :=
  ∀ (s : State) (frame : Bytes) (height width bpp : Nat), s.cfg.wf = true → ValidFrame frame height width bpp →
    ∃ (t : State) (new : List (Bytes × SendAnswer)),
      exec (.txFrame frame height width bpp) s = .next t ∧ t.txd = s.txd ++ new ∧
      ∀ e ∈ new, 14 + s.cfg.lhStride + 1 ≤ e.1.length ∧ e.1.length ≤ s.cfg.mtuBudget

/-- 42_packetizer.md R170 (e), 41_sessionclock.md R153 (a): every packet of a TX_FRAME decodes, carries the frame's one
timestamp `frame_idx * TPF mod 2^32` and the number after the previous packet's. -/
def Obligations.PacketsCarryOneTimestampAndConsecutiveNumbers : Prop :=
  ∀ (s : State) (frame : Bytes) (height width bpp : Nat), s.cfg.wf = true → ValidFrame frame height width bpp →
    ∃ (t : State) (new : List (Bytes × SendAnswer)),
      exec (.txFrame frame height width bpp) s = .next t ∧ t.txd = s.txd ++ new ∧
      ∀ (k : Nat) (e : Bytes × SendAnswer), new[k]? = some e → ∃ f, decHdr s.cfg e.1 = .ok f ∧
        f.ts.toNat = s.frameIdx.toNat * s.cfg.tpf % 2 ^ 32 ∧
        f.xseq.toNat = (s.seqLast.toNat + k + 1) % 2 ^ 32 ∧
        f.ssrc = s.cfg.ssrc ∧ f.pt = s.cfg.payloadType ∧ 1 ≤ f.n ∧ f.n ≤ s.cfg.maxLines

/-- 42_packetizer.md R171: in a successful TX_FRAME exactly the last packet has M = 1, and its last descriptor ends the
last row; in one that fails no packet that was answered `Ok` has M = 1. -/
def Obligations.MarkerIsOnTheLastPacketOnly : Prop :=
  ∀ (s : State) (frame : Bytes) (height width bpp : Nat), s.cfg.wf = true → ValidFrame frame height width bpp →
    ∃ (t : State) (new : List (Bytes × SendAnswer)),
      exec (.txFrame frame height width bpp) s = .next t ∧ t.txd = s.txd ++ new ∧
      (∀ n, t.outcome = some (.ok (.packetCount n)) →
        ∃ (front : List (Bytes × SendAnswer)) (last : Bytes × SendAnswer) (f : HdrFields) (d : LineDesc),
          new = front ++ [last] ∧ decHdr s.cfg last.1 = .ok f ∧ f.m = true ∧ f.lines.getLast? = some d ∧
          d.line.toNat = height - 1 ∧ d.off.toNat + d.len.toNat = width * bpp ∧
          ∀ e ∈ front, ∃ g, decHdr s.cfg e.1 = .ok g ∧ g.m = false) ∧
      (∀ n, t.outcome = some (.err (.transportSend n)) →
        ∀ e ∈ new, e.2 = .ok → ∃ g, decHdr s.cfg e.1 = .ok g ∧ g.m = false)

/-- 42_packetizer.md R170 (a) to (c): the descriptors of a successful TX_FRAME, read in sending order, take up every
byte of row 0, then row 1, ... up to the last row, with no gap and no overlap, every one with at least one byte; the
data of each is the frame's bytes at its place, and all data together are the frame. -/
def Obligations.FragmentsCoverTheFrameInOrder : Prop :=
  ∀ (s : State) (frame : Bytes) (height width bpp : Nat), s.cfg.wf = true → ValidFrame frame height width bpp →
    ∃ (t : State) (new : List (Bytes × SendAnswer)),
      exec (.txFrame frame height width bpp) s = .next t ∧ t.txd = s.txd ++ new ∧
      ∀ n, t.outcome = some (.ok (.packetCount n)) → ∃ pkts : List (HdrFields × List Bytes),
        new.map (fun e => decPkt s.cfg e.1) = pkts.map Except.ok ∧
        coversRows height (width * bpp) 0 0 (pkts.flatMap fun p => p.1.lines) = true ∧
        (pkts.flatMap fun p => p.2).flatten = frame ∧
        ∀ p ∈ pkts, 1 ≤ p.1.n ∧ p.1.n ≤ s.cfg.maxLines ∧
          p.2 = p.1.lines.map fun d => slice frame (d.line.toNat * (width * bpp) + d.off.toNat) d.len.toNat

/-- 42_packetizer.md R170 (d): every packet of a TX_FRAME but the last has MAX_LINES descriptors or less than a
descriptor and a byte of budget left. -/
def Obligations.EveryPacketButTheLastIsFull : Prop :=
  ∀ (s : State) (frame : Bytes) (height width bpp : Nat), s.cfg.wf = true → ValidFrame frame height width bpp →
    ∃ (t : State) (front : List (Bytes × SendAnswer)) (last : Bytes × SendAnswer),
      exec (.txFrame frame height width bpp) s = .next t ∧ t.txd = s.txd ++ (front ++ [last]) ∧
      ∀ e ∈ front, ∃ f, decHdr s.cfg e.1 = .ok f ∧
        (f.n = s.cfg.maxLines ∨ s.cfg.mtuBudget - e.1.length < s.cfg.lhStride + 1)

/-! ## Depacketizer -/

/-- 43_depacketizer.md R191, R201 (g), 40_wireformat.md R138: a datagram that does not decode is dropped, and nothing
but the outcome changes. -/
def Obligations.UndecodableDatagramChangesNothing : Prop :=
  ∀ (s : State) (b : Bytes) (e : OpError), s.cfg.wf = true → decHdr s.cfg b = .error e →
    exec (.rxDgram b) s = .next { s with outcome := some (.ok (.dropped e)) }

/-- 43_depacketizer.md R196, R195: a datagram that decodes is accepted, or, with M = 1, ends the frame, whatever state
RXE was in; the state after it is Idle on a marker, and without one Idle becomes Assembling just when a fragment passed
the bounds check. TXE, CFG, the free values and what is pending or still to be received stay. -/
def Obligations.AcceptedDatagramMovesTheStateMachine : Prop :=
  ∀ (s : State) (b : Bytes) (f : HdrFields), s.cfg.wf = true → decHdr s.cfg b = .ok f →
    ∃ t, exec (.rxDgram b) s = .next t ∧
      (f.m = false → t.outcome = some (.ok .accepted) ∧
        t.rxState = (if s.rxState = .idle ∧ f.lines.any (fragInFrame s.cfg) = true then .assembling else s.rxState)) ∧
      (f.m = true → (∃ inc, t.outcome = some (.ok (.frameDone inc))) ∧
        t.rxState = .idle ∧ t.rxGap = false ∧ t.rxWritten = []) ∧
      SameTx s t ∧ SameRest s t ∧ t.rxBusy = s.rxBusy ∧ t.recvAnswers = s.recvAnswers ∧ t.recvLog = s.recvLog ∧
      t.rxFree = s.rxFree

/-- 43_depacketizer.md R193, 60_exceptions.md R237: the sequence step. `rx_ext_hi` becomes the number of the first
accepted datagram, and after it the highest one seen; a number more than one above it is a gap, which sets `rx_gap` and
is reported with the number expected and the one got, over the naturals: nothing wraps. -/
def Obligations.SequenceGapsAreNoticedOnce : Prop :=
  ∀ (s : State) (b : Bytes) (f : HdrFields), s.cfg.wf = true → decHdr s.cfg b = .ok f →
    ∃ t more, exec (.rxDgram b) s = .next t ∧ t.rxSeqValid = true ∧
      (s.rxSeqValid = false → t.rxExtHi = f.xseq) ∧
      (s.rxSeqValid = true → t.rxExtHi.toNat = max s.rxExtHi.toNat f.xseq.toNat) ∧
      (∀ e ∈ more, ∀ x y, e ≠ DiagEvent.seqGap x y) ∧
      (s.rxSeqValid = true ∧ s.rxExtHi.toNat + 1 < f.xseq.toNat →
        t.diag = s.diag ++ [.seqGap (s.rxExtHi.toNat + 1) f.xseq.toNat] ++ more ∧ (f.m = false → t.rxGap = true)) ∧
      (¬ (s.rxSeqValid = true ∧ s.rxExtHi.toNat + 1 < f.xseq.toNat) →
        t.diag = s.diag ++ more ∧ (f.m = false → t.rxGap = s.rxGap))

/-- 43_depacketizer.md R192, R194, 20_memory.md R67, R68: every byte of ASM after an accepted datagram. It is the byte
the last fragment that passes the bounds check and covers it brings; where none covers it, it is as before. -/
def Obligations.AssemblyBufferHoldsTheLastCoveringByte : Prop :=
  ∀ (s : State) (b : Bytes) (f : HdrFields), s.cfg.wf = true → decHdr s.cfg b = .ok f →
    ∃ t, exec (.rxDgram b) s = .next t ∧
      ∀ a : Nat, memRead t.asm a = (lastCovering s.cfg b f.ds f.lines a).or (memRead s.asm a)

/-- 60_exceptions.md R244 (b), R237 to R239: the events of an accepted datagram: SeqGap first, at most one, then for
each descriptor in order FragOutOfFrame or RangeOverlap, never both. -/
def Obligations.DiagnosticsComeInOrder : Prop :=
  ∀ (s : State) (b : Bytes) (f : HdrFields), s.cfg.wf = true → decHdr s.cfg b = .ok f →
    ∃ t, exec (.rxDgram b) s = .next t ∧
      t.diag = s.diag
        ++ (if s.rxSeqValid = true ∧ s.rxExtHi.toNat + 1 < f.xseq.toNat
            then [.seqGap (s.rxExtHi.toNat + 1) f.xseq.toNat] else [])
        ++ fragEvents s.cfg s.rxWritten [] f.lines

/-- 10_state.md R36, 43_depacketizer.md R194: without a marker, `rx_written` gains exactly the offsets the datagram's
fragments cover, and with RX_VALIDATE = 0 it does not change. -/
def Obligations.WrittenSetGainsTheCoveredOffsets : Prop :=
  ∀ (s : State) (b : Bytes) (f : HdrFields), s.cfg.wf = true → decHdr s.cfg b = .ok f → f.m = false →
    ∃ t, exec (.rxDgram b) s = .next t ∧
      (s.cfg.rxValidate = false → t.rxWritten = s.rxWritten) ∧
      (s.cfg.rxValidate = true → ∀ k, k ∈ t.rxWritten ↔
        k ∈ s.rxWritten ∨ f.lines.any (fun d => fragCovers s.cfg d k) = true)

/-- 43_depacketizer.md R195: the `incomplete` flag of a frame. It is 1 just when a gap was seen since the last frame
boundary, this datagram's own included, or, with RX_VALIDATE = 1, some byte of ASM was not written since then. The
premise that `rx_written` is a set of offsets of ASM is R36, kept by every step (StepKeepsTheInvariant). -/
def Obligations.IncompleteFlagTellsGapsAndMissingBytes : Prop :=
  ∀ (s : State) (b : Bytes) (f : HdrFields), s.cfg.wf = true → decHdr s.cfg b = .ok f → f.m = true →
    setRisingFrom 0 s.rxWritten = true → (∀ k ∈ s.rxWritten, k < s.cfg.rxSize) →
    ∃ t inc, exec (.rxDgram b) s = .next t ∧ t.outcome = some (.ok (.frameDone inc)) ∧
      (inc = true ↔
        s.rxGap = true ∨ (s.rxSeqValid = true ∧ s.rxExtHi.toNat + 1 < f.xseq.toNat) ∨
        (s.cfg.rxValidate = true ∧ ∃ k, k < s.cfg.rxSize ∧ k ∉ s.rxWritten ∧
          f.lines.any (fun d => fragCovers s.cfg d k) = false))

/-- 43_depacketizer.md R197: RX_EXPIRE discards the partial frame: the bookkeeping is emptied, ASM, `rx_seq_valid` and
`rx_ext_hi` and everything else are kept, and the outcome is TimeoutError. -/
def Obligations.ExpireDiscardsThePartialFrame : Prop :=
  ∀ s : State, s.cfg.wf = true →
    exec .rxExpire s = .next { s with
      rxState := .idle, rxGap := false, rxWritten := [], outcome := some (.err .timeout) }

/-- 43_depacketizer.md R198: RX_IOERR treats the partial frame as a timeout does; the outcome is TransportError. -/
def Obligations.IoErrorDiscardsThePartialFrame : Prop :=
  ∀ s : State, s.cfg.wf = true →
    exec .rxIoerr s = .next { s with
      rxState := .idle, rxGap := false, rxWritten := [], outcome := some (.err .transportRecv) }

/-- 43_depacketizer.md R190: what RX_FRAME does at each answer of TRANSPORT. `Timeout` and `IoError` end it as
RX_EXPIRE and RX_IOERR do; a datagram is processed as RX_DGRAM does it, and ends RX_FRAME if it ends the frame;
otherwise RX_FRAME goes on from there with the next answer. The timeout operand is handed over unchanged each time. That
an exhausted list of answers is a `Timeout` is the model's reading of R285 (log entry 12). -/
def Obligations.ReceiveFrameFollowsTransport : Prop :=
  ∀ (s : State) (timeout : Nat) (rest : List RecvAnswer), s.cfg.wf = true →
    ((s.recvAnswers = .timeout :: rest ∨ (s.recvAnswers = [] ∧ rest = [])) →
      exec (.rxFrame timeout) s = .next { s with
        recvAnswers := rest, recvLog := s.recvLog ++ [(timeout, .timeout)]
        rxState := .idle, rxGap := false, rxWritten := [], outcome := some (.err .timeout) }) ∧
    (s.recvAnswers = .ioError :: rest →
      exec (.rxFrame timeout) s = .next { s with
        recvAnswers := rest, recvLog := s.recvLog ++ [(timeout, .ioError)]
        rxState := .idle, rxGap := false, rxWritten := [], outcome := some (.err .transportRecv) }) ∧
    (∀ b, s.recvAnswers = .dgram b :: rest →
      ∃ t, exec (.rxDgram b) { s with recvAnswers := rest, recvLog := s.recvLog ++ [(timeout, .dgram b)] } = .next t ∧
        (∀ inc, t.outcome = some (.ok (.frameDone inc)) →
          exec (.rxFrame timeout) s = .next { t with outcome := some (.ok (.completeFrame inc)) }) ∧
        ((∀ inc, t.outcome ≠ some (.ok (.frameDone inc))) →
          exec (.rxFrame timeout) s = exec (.rxFrame timeout) t))

/-- 43_depacketizer.md R190, 40_wireformat.md R138: RX_FRAME ends, whatever TRANSPORT hands over, with a frame, a
timeout or a transport failure, and leaves RXE Idle with the frame bookkeeping empty; TXE, CFG and what is pending
stay. That an exhausted list of answers is a `Timeout` is the model's reading of R285 (log entry 12). -/
def Obligations.ReceiveFrameAlwaysEnds : Prop :=
  ∀ (s : State) (timeout : Nat), s.cfg.wf = true →
    ∃ t, exec (.rxFrame timeout) s = .next t ∧
      ((∃ inc, t.outcome = some (.ok (.completeFrame inc))) ∨ t.outcome = some (.err .timeout) ∨
        t.outcome = some (.err .transportRecv)) ∧
      t.rxState = .idle ∧ t.rxGap = false ∧ t.rxWritten = [] ∧ SameTx s t ∧ SameRest s t ∧
      t.recvAnswers.length ≤ s.recvAnswers.length ∧ t.rxBusy = s.rxBusy ∧ t.rxFree = s.rxFree

/-- 43_depacketizer.md R200: the round trip. The packets of a TX_FRAME that ends `Ok`, given in sending order to a
receiver of the same geometry that is between two frames and expects the first of them (or any): every one but the last
is accepted, the last completes the frame and is not flagged, no event is reported, and ASM holds the frame byte for
byte. -/
def Obligations.TransmitThenReceiveReproducesTheFrame : Prop :=
  ∀ (s t r : State) (frame : Bytes) (height width bpp : Nat) (new : List (Bytes × SendAnswer)) (n : Word),
    s.cfg.wf = true → r.cfg.wf = true → ValidFrame frame height width bpp →
    exec (.txFrame frame height width bpp) s = .next t → t.outcome = some (.ok (.packetCount n)) →
    t.txd = s.txd ++ new →
    r.cfg.rtpVersion = s.cfg.rtpVersion → r.cfg.lhSlot = s.cfg.lhSlot → s.cfg.maxLines ≤ r.cfg.maxLines →
    r.cfg.rxHeight = height → r.cfg.rxStride = width * bpp →
    r.rxState = .idle → r.rxGap = false → r.rxWritten = [] →
    (r.rxSeqValid = false ∨ r.rxExtHi.toNat = s.seqLast.toNat) →
    (rxDgrams (new.map Prod.fst) r).1 = List.replicate (new.length - 1) .accepted ++ [.frameDone false] ∧
    (rxDgrams (new.map Prod.fst) r).2.diag = r.diag ∧
    ∀ k, k < r.cfg.rxSize → memRead (rxDgrams (new.map Prod.fst) r).2.asm k = some (byteAt frame k)

/-- 43_depacketizer.md R200, second sentence: the packets of a TX_FRAME that ends `Ok` in any order that still ends with
the marker packet, none lost and none doubled. ASM is the frame all the same; the only events are sequence gaps, and the
frame is flagged incomplete just when there was one, which is certain where the receiver had seen the number before the
first packet's and the packets come out of order (a session under 2^32 packets, 70_reset_and_hazards.md R287). -/
def Obligations.ReorderedPacketsReproduceTheFrame : Prop :=
  ∀ (s t r : State) (frame : Bytes) (height width bpp : Nat) (front : List (Bytes × SendAnswer))
    (last : Bytes × SendAnswer) (order : List Bytes) (n : Word),
    s.cfg.wf = true → r.cfg.wf = true → ValidFrame frame height width bpp →
    exec (.txFrame frame height width bpp) s = .next t → t.outcome = some (.ok (.packetCount n)) →
    t.txd = s.txd ++ (front ++ [last]) → order.Perm (front.map Prod.fst) →
    r.cfg.rtpVersion = s.cfg.rtpVersion → r.cfg.lhSlot = s.cfg.lhSlot → s.cfg.maxLines ≤ r.cfg.maxLines →
    r.cfg.rxHeight = height → r.cfg.rxStride = width * bpp →
    r.rxState = .idle → r.rxGap = false → r.rxWritten = [] →
    (r.rxSeqValid = false ∨ r.rxExtHi.toNat = s.seqLast.toNat) →
    let q := rxDgrams (order ++ [last.1]) r
    ∃ (inc : Bool) (gaps : List DiagEvent),
      q.1 = List.replicate order.length .accepted ++ [.frameDone inc] ∧
      q.2.diag = r.diag ++ gaps ∧ (∀ e ∈ gaps, ∃ x y, e = .seqGap x y) ∧ (inc = true ↔ gaps ≠ []) ∧
      (r.rxSeqValid = true → s.seqLast.toNat + order.length + 1 < 2 ^ 32 → order ≠ front.map Prod.fst → gaps ≠ []) ∧
      ∀ k, k < r.cfg.rxSize → memRead q.2.asm k = some (byteAt frame k)

/-! ## Reserved codes, the command port, steps -/

/-- 30_encoding.md R111, 60_exceptions.md R241: a reserved code answers IllegalCommand with the code and changes
nothing. -/
def Obligations.ReservedCodesAnswerIllegalCommand : Prop :=
  ∀ s : State, s.cfg.wf = true →
    exec .reserved0 s = .next { s with outcome := some (.err (.illegalCommand 0x0)) } ∧
    exec .reservedD s = .next { s with outcome := some (.err (.illegalCommand 0xD)) } ∧
    exec .reservedE s = .next { s with outcome := some (.err (.illegalCommand 0xE)) } ∧
    exec .reservedF s = .next { s with outcome := some (.err (.illegalCommand 0xF)) }

/-- 30_encoding.md R111, 60_exceptions.md R241, R244 (e): HOST's issue of any code that is not a command of the port's
engine (R110: TX_INIT, ENC_HDR, TX_FRAME on TXE's, DEC_HDR, RX_FRAME, RX_DGRAM, RX_INIT on RXE's) ends with
IllegalCommand and the code, whatever the operands; the request is used up and nothing else changes. -/
def Obligations.ForeignCodesAreRefusedAtThePort : Prop :=
  ∀ (s : State) (port : Engine) (code : BitVec 4) (ops : Operands) (rest : List Request), s.cfg.wf = true →
    s.loneCall = none → s.pending = .host port code ops :: rest →
    (match port with
      | .txe => code ≠ 0x1 ∧ code ≠ 0x2 ∧ code ≠ 0x6
      | .rxe => code ≠ 0x3 ∧ code ≠ 0x8 ∧ code ≠ 0x9 ∧ code ≠ 0xC) →
    step s = .next { s with pending := rest, outcome := some (.err (.illegalCommand code)) }

/-- A step runs the decoded instruction: HOST's command on the port of an engine that is not busy (R110, R250). Around
it the step takes the request off, sets the engine's busy bit while the command runs and clears it at its outcome
(10_state.md R24, R37). -/
def Obligations.StepRunsTheCommandIssued : Prop :=
  ∀ (s : State) (port : Engine) (code : BitVec 4) (ops : Operands) (rest : List Request) (i : Instr),
    s.loneCall = none → s.pending = .host port code ops :: rest → hostMayIssue port code = true →
    busy port s = false → decode s.cfg (.cmd code ops) = .ok i →
    step s =
      match exec i (setBusy port true { s with pending := rest }) with
      | .next t => .next (setBusy port false t)
      | .fault e => .fault e
      | .refused e => .refused e

/-- A step runs the decoded instruction: an internal operation without its caller, a move that no agent has and that
only `loneCall` stands for (R110, R154; log entry 2), or a wire-format element (log entry 3). The step clears what it
serves; no busy bit is involved. -/
def Obligations.StepRunsInternalCallsAndWireElements : Prop :=
  ∀ (s : State) (i : Instr),
    (∀ (code : BitVec 4) (ops : Operands), s.loneCall = some (code, ops) → isInternalOp code = true →
      decode s.cfg (.cmd code ops) = .ok i → step s = exec i { s with loneCall := none }) ∧
    (∀ (bs : Bytes) (rest : List Request), s.loneCall = none → s.pending = .wire bs :: rest →
      decode s.cfg (.wire bs) = .ok i → step s = exec i { s with pending := rest })

/-- With nothing pending the block waits: that nothing changes is the model's choice (log entry 21), where
70_reset_and_hazards.md R272 says only that both engines are idle and that HOST's command comes first. Bytes of no row are
refused by name, a lone call of a code that is not an internal operation's too (R110), and HOST's command on a busy engine
is the move HOST does not have (R280, R282, U22): these stops are the model's own names (log entries 2, 3, 16). -/
def Obligations.StepWaitsOrStopsByName : Prop :=
  ∀ (s : State) (rest : List Request),
    (s.loneCall = none → s.pending = [] → step s = .next s) ∧
    (∀ bs e, s.loneCall = none → s.pending = .wire bs :: rest → decode s.cfg (.wire bs) = .error e →
      step s = .refused (.undecodable e)) ∧
    (∀ code ops, s.loneCall = some (code, ops) → isInternalOp code = false →
      step s = .refused (.notAnInternalOperation code)) ∧
    (∀ port code ops, s.loneCall = none → s.pending = .host port code ops :: rest → hostMayIssue port code = true →
      busy port s = true → step s = .fault (.commandWhileBusy port))

/-- 10_state.md R55, 20_memory.md R67, 70_reset_and_hazards.md R283: HOST's store into its own buffer between operations
sets exactly the bytes it names and nothing else; one that leaves ASM is no store into ASM and stops by name. That such
a store is a request of its own is the model's choice (log entry 15). -/
def Obligations.HostStoreFillsTheBuffer : Prop :=
  ∀ (s : State) (offset : Nat) (bytes : Bytes) (rest : List Request),
    s.loneCall = none → s.pending = .hostWriteAsm offset bytes :: rest →
    (offset + bytes.length ≤ s.cfg.rxSize → ∃ m : Memory,
      step s = .next { s with pending := rest, asm := m } ∧
      ∀ a, memRead m a =
        if offset ≤ a ∧ a < offset + bytes.length then some (byteAt bytes (a - offset)) else memRead s.asm a) ∧
    (s.cfg.rxSize < offset + bytes.length → step s = .fault .asmOutOfRange)

/-- 10_state.md R52, U21: no instruction runs under a CFG that is not well formed. -/
def Obligations.IllFormedConfigurationIsRefused : Prop :=
  ∀ (i : Instr) (s : State), s.cfg.wf = false → exec i s = .refused .cfgNotWellFormed

/-- 00_scope.md R11, for the twelve operations and the reserved codes: under a well-formed CFG each ends with exactly one
outcome, in every state and with every operand, and CFG and what is pending stay. For RX_FRAME this rests on the model's
reading of R285, that an exhausted list of answers is a `Timeout` (log entry 12); that the four wire-format rows run and
end with an outcome too is the model's choice (log entry 3). -/
def Obligations.EveryInstructionEndsWithAnOutcome : Prop :=
  ∀ (i : Instr) (s : State), s.cfg.wf = true →
    ∃ t o, exec i s = .next t ∧ t.outcome = some o ∧ SameRest s t

/-- 60_exceptions.md R230: the codes of the exceptional events. -/
def Obligations.EventCodesAreTheTables : Prop :=
  (∀ v, OpOutcome.code (.ok v) = 0) ∧
  (∀ n, OpOutcome.code (.err (.truncated n)) = 1) ∧
  (∀ v, OpOutcome.code (.err (.versionMismatch v)) = 2) ∧
  (∀ n, OpOutcome.code (.err (.lineCountExceeded n)) = 3) ∧
  (∀ n, OpOutcome.code (.err (.transportSend n)) = 4) ∧
  OpOutcome.code (.err .transportFlush) = 4 ∧ OpOutcome.code (.err .transportRecv) = 4 ∧
  OpOutcome.code (.err .timeout) = 5 ∧
  (∀ x y, DiagEvent.code (.seqGap x y) = 6) ∧
  (∀ i d, DiagEvent.code (.rangeOverlap i d) = 7) ∧
  (∀ i d, DiagEvent.code (.fragOutOfFrame i d) = 8) ∧
  OpOutcome.code (.err .argFrame) = 9 ∧ (∀ n, OpOutcome.code (.err (.argLines n)) = 9) ∧
  (∀ c, OpOutcome.code (.err (.illegalCommand c)) = 10)

/-! ## Reset -/

/-- 10_state.md R58, 70_reset_and_hazards.md R270: what the spec gives for reset. -/
def Obligations.ResetStateIsTheSpecs : Prop :=
  State.reset.seqLast = 0 ∧ State.reset.frameIdx = 0 ∧ State.reset.seqOvf = false ∧ State.reset.txBusy = false ∧
  State.reset.rxState = .idle ∧ State.reset.rxSeqValid = false ∧ State.reset.rxGap = false ∧
  State.reset.rxWritten = [] ∧ State.reset.rxBusy = false ∧ State.reset.txd = [] ∧ State.reset.diag = []

/-- 70_reset_and_hazards.md R270: the hardware reset from any state between operations: every register the spec gives a
value at that value, both logs empty, CFG and ASM unchanged. -/
def Obligations.HardwareResetRestoresTheRegisters : Prop :=
  ∀ (s : State) (rest : List Request), s.loneCall = none → s.pending = .reset :: rest →
    ∃ t, step s = .next t ∧
      t.seqLast = 0 ∧ t.frameIdx = 0 ∧ t.seqOvf = false ∧ t.txBusy = false ∧
      t.rxState = .idle ∧ t.rxSeqValid = false ∧ t.rxGap = false ∧ t.rxWritten = [] ∧ t.rxBusy = false ∧
      t.txd = [] ∧ t.diag = [] ∧ t.cfg = s.cfg ∧ t.asm = s.asm

/-- The hardware reset is one of the events of 43_depacketizer.md R196: it leaves RXE Idle with the outcome `Ok()`. That
a reset uses up its own request and keeps what HOST and TRANSPORT have still to hand over is the model's choice (log entry
17), and that it empties the log of Recv another (log entry 13). -/
def Obligations.HardwareResetAnswersOkAndKeepsTheInputs : Prop :=
  ∀ (s : State) (rest : List Request), s.loneCall = none → s.pending = .reset :: rest →
    ∃ t, step s = .next t ∧ t.outcome = some (.ok .unit) ∧ t.rxState = .idle ∧
      t.pending = rest ∧ t.loneCall = none ∧ t.sendAnswers = s.sendAnswers ∧ t.recvAnswers = s.recvAnswers ∧
      t.recvLog = []

/-- The invariant holds at reset. For the ranges of the accumulator's registers and for CFG it rests on the values the
model names (log entries 5, 8). -/
def Obligations.ResetSatisfiesTheInvariant : Prop := BlockInv State.reset

/-! ## The whole machine -/

/-- Every step keeps the invariant: CFG well formed, ASM in canonical form and inside its buffer (20_memory.md R69),
`rx_written` a set of offsets of ASM that were written (10_state.md R36), RXE never left in Complete (R33, R196), no
operation in flight (R24, R37, R291), the accumulator's registers in their ranges (R28 to R30), no FRAME held (R54). R291
says that the accumulator holds no value between operations and U14 that it may be any: that its free values stay in the
ranges of the registers is log entry 9. -/
def Obligations.StepKeepsTheInvariant : Prop :=
  ∀ s t : State, BlockInv s → step s = .next t → BlockInv t

/-- 10_state.md R40: CFG "is constant for the whole life of a model run: no operation writes it, reset does not change
it". -/
def Obligations.NothingWritesTheConfiguration : Prop :=
  ∀ s t : State, step s = .next t → t.cfg = s.cfg

/-- 10_state.md R20, 60_exceptions.md R254: no TXE operation writes a register, a log, the buffer or the input of RXE;
no RXE operation writes one of TXE; the reserved codes and the wire-format rows write none of either. -/
def Obligations.EnginesLeaveEachOtherAlone : Prop :=
  ∀ (i : Instr) (s t : State), exec i s = .next t →
    (engineOf i ≠ some .rxe → SameRx s t) ∧ (engineOf i ≠ some .txe → SameTx s t) ∧ SameRest s t

/-- 10_state.md R20, 60_exceptions.md R254, "neither can observe the other": a TXE operation started in two states that
agree on CFG and on TXE gives the same outcome and the same TXE afterwards, whatever RXE holds. -/
def Obligations.TransmitCannotObserveReceive : Prop :=
  ∀ (i : Instr) (s s' t : State), engineOf i = some .txe → s'.cfg = s.cfg → SameTx s s' → exec i s = .next t →
    ∃ t', exec i s' = .next t' ∧ SameTx t t' ∧ t'.outcome = t.outcome

/-- 10_state.md R20, 60_exceptions.md R254: an RXE operation started in two states that agree on CFG and on RXE gives
the same outcome and the same RXE afterwards, whatever TXE holds. -/
def Obligations.ReceiveCannotObserveTransmit : Prop :=
  ∀ (i : Instr) (s s' t : State), engineOf i = some .rxe → s'.cfg = s.cfg → SameRx s s' → exec i s = .next t →
    ∃ t', exec i s' = .next t' ∧ SameRx t t' ∧ t'.outcome = t.outcome

/-- 10_state.md R38: the logs are append-only, "Reset empties both". -/
def Obligations.LogsOnlyGrow : Prop :=
  ∀ s t : State, step s = .next t → served s ≠ some .reset → s.txd <+: t.txd ∧ s.diag <+: t.diag

/-- 10_state.md R23: `seq_ovf` is sticky: "never cleared except by reset and TX_INIT". -/
def Obligations.OverflowFlagIsSticky : Prop :=
  ∀ s t : State, step s = .next t → s.seqOvf = true → t.seqOvf = false →
    served s = some .reset ∨ ∃ ops, served s = some (.host .txe 0x1 ops)

/-- 10_state.md R21, R22, 60_exceptions.md R251: the two counters are advanced only by NEXT_SEQ and TX_FRAME (through
TX_FLUSH) and loaded only by TX_INIT, or reset. Which steps these are: HOST's TX_INIT (0x1) and TX_FRAME (0x6), and a lone
call (log entry 2) of NEXT_SEQ (0x4) or TX_FLUSH (0x7), which moves `seq_last` only. -/
def Obligations.CountersMoveOnlyByTheirOperations : Prop :=
  ∀ s t : State, step s = .next t →
    (t.frameIdx ≠ s.frameIdx → served s = some .reset ∨
      ∃ ops, served s = some (.host .txe 0x1 ops) ∨ served s = some (.host .txe 0x6 ops)) ∧
    (t.seqLast ≠ s.seqLast → served s = some .reset ∨
      ∃ ops, served s = some (.host .txe 0x1 ops) ∨ served s = some (.host .txe 0x6 ops) ∨
        s.loneCall = some (0x4, ops) ∨ s.loneCall = some (0x7, ops))

/-- 41_sessionclock.md R154, R151: the single producer. No step leaves a lone call behind, and none that starts without
one, other than reset and TX_INIT, moves the counters but a running TX_FRAME: it uses up one number for each packet it
hands to `Send`, and every other step uses up none, hands over none and leaves `frame_idx` as it was. -/
def Obligations.NumbersGoOnlyToThePacketsOfTxFrame : Prop :=
  ∀ s t : State, step s = .next t → t.loneCall = none ∧
    (s.loneCall = none → served s ≠ some .reset → (∀ ops, served s ≠ some (.host .txe 0x1 ops)) →
      ∃ new : List (Bytes × SendAnswer), t.txd = s.txd ++ new ∧
        t.seqLast.toNat = (s.seqLast.toNat + new.length) % 2 ^ 32 ∧
        ((∀ ops, served s ≠ some (.host .txe 0x6 ops)) → new = [] ∧ t.frameIdx = s.frameIdx))

/-- 10_state.md R55, 43_depacketizer.md R199: ASM is "written only by RX_DGRAM" (as a command or inside RX_FRAME), and
by its owner HOST (log entry 15); "the block never clears it": no step makes a byte that was written unwritten. -/
def Obligations.OnlyReceiveAndHostWriteTheBuffer : Prop :=
  ∀ s t : State, step s = .next t →
    (t.asm ≠ s.asm → (∃ offset bytes, served s = some (.hostWriteAsm offset bytes)) ∨
      ∃ ops, served s = some (.host .rxe 0x8 ops) ∨ served s = some (.host .rxe 0x9 ops)) ∧
    ∀ a, (memRead s.asm a).isSome = true → (memRead t.asm a).isSome = true

/-- 10_state.md R34: `rx_seq_valid` and `rx_ext_hi` "persist across frames, timeouts and receive errors": once a number
has been seen, no step but reset and RX_INIT forgets it, and the highest number seen never falls. -/
def Obligations.HighestNumberSeenNeverFalls : Prop :=
  ∀ s t : State, step s = .next t → s.rxSeqValid = true → served s ≠ some .reset →
    (∀ ops, served s ≠ some (.host .rxe 0xC ops)) →
    t.rxSeqValid = true ∧ s.rxExtHi.toNat ≤ t.rxExtHi.toNat
end

