-- ==== Sys2Proof/Laws/State.lean ====
section
/-! SUPPORT. One lemma per field and per update of the state, so that no proof unfolds a record update. -/

namespace Sys2Proof.Machine

variable (s : State)


/-! ## `deliver` -/

@[simp] theorem deliver_cfg (o : OpOutcome) : (deliver o s).cfg = s.cfg := rfl
@[simp] theorem deliver_seqLast (o : OpOutcome) : (deliver o s).seqLast = s.seqLast := rfl
@[simp] theorem deliver_frameIdx (o : OpOutcome) : (deliver o s).frameIdx = s.frameIdx := rfl
@[simp] theorem deliver_seqOvf (o : OpOutcome) : (deliver o s).seqOvf = s.seqOvf := rfl
@[simp] theorem deliver_txBusy (o : OpOutcome) : (deliver o s).txBusy = s.txBusy := rfl
@[simp] theorem deliver_txTs (o : OpOutcome) : (deliver o s).txTs = s.txTs := rfl
@[simp] theorem deliver_txRow (o : OpOutcome) : (deliver o s).txRow = s.txRow := rfl
@[simp] theorem deliver_txOff (o : OpOutcome) : (deliver o s).txOff = s.txOff := rfl
@[simp] theorem deliver_txSent (o : OpOutcome) : (deliver o s).txSent = s.txSent := rfl
@[simp] theorem deliver_accN (o : OpOutcome) : (deliver o s).accN = s.accN := rfl
@[simp] theorem deliver_accSize (o : OpOutcome) : (deliver o s).accSize = s.accSize := rfl
@[simp] theorem deliver_accLh (o : OpOutcome) : (deliver o s).accLh = s.accLh := rfl
@[simp] theorem deliver_accData (o : OpOutcome) : (deliver o s).accData = s.accData := rfl
@[simp] theorem deliver_rxState (o : OpOutcome) : (deliver o s).rxState = s.rxState := rfl
@[simp] theorem deliver_rxSeqValid (o : OpOutcome) : (deliver o s).rxSeqValid = s.rxSeqValid := rfl
@[simp] theorem deliver_rxExtHi (o : OpOutcome) : (deliver o s).rxExtHi = s.rxExtHi := rfl
@[simp] theorem deliver_rxGap (o : OpOutcome) : (deliver o s).rxGap = s.rxGap := rfl
@[simp] theorem deliver_rxWritten (o : OpOutcome) : (deliver o s).rxWritten = s.rxWritten := rfl
@[simp] theorem deliver_rxBusy (o : OpOutcome) : (deliver o s).rxBusy = s.rxBusy := rfl
@[simp] theorem deliver_txd (o : OpOutcome) : (deliver o s).txd = s.txd := rfl
@[simp] theorem deliver_diag (o : OpOutcome) : (deliver o s).diag = s.diag := rfl
@[simp] theorem deliver_frame (o : OpOutcome) : (deliver o s).frame = s.frame := rfl
@[simp] theorem deliver_asm (o : OpOutcome) : (deliver o s).asm = s.asm := rfl
@[simp] theorem deliver_pending (o : OpOutcome) : (deliver o s).pending = s.pending := rfl
@[simp] theorem deliver_loneCall (o : OpOutcome) : (deliver o s).loneCall = s.loneCall := rfl
@[simp] theorem deliver_sendAnswers (o : OpOutcome) : (deliver o s).sendAnswers = s.sendAnswers := rfl
@[simp] theorem deliver_recvAnswers (o : OpOutcome) : (deliver o s).recvAnswers = s.recvAnswers := rfl
@[simp] theorem deliver_recvLog (o : OpOutcome) : (deliver o s).recvLog = s.recvLog := rfl
@[simp] theorem deliver_outcome (o : OpOutcome) : (deliver o s).outcome = some o := rfl
@[simp] theorem deliver_txFree (o : OpOutcome) : (deliver o s).txFree = s.txFree := rfl
@[simp] theorem deliver_rxFree (o : OpOutcome) : (deliver o s).rxFree = s.rxFree := rfl

/-! ## `diagEvent` -/

@[simp] theorem diagEvent_cfg (e : DiagEvent) : (diagEvent e s).cfg = s.cfg := rfl
@[simp] theorem diagEvent_seqLast (e : DiagEvent) : (diagEvent e s).seqLast = s.seqLast := rfl
@[simp] theorem diagEvent_frameIdx (e : DiagEvent) : (diagEvent e s).frameIdx = s.frameIdx := rfl
@[simp] theorem diagEvent_seqOvf (e : DiagEvent) : (diagEvent e s).seqOvf = s.seqOvf := rfl
@[simp] theorem diagEvent_txBusy (e : DiagEvent) : (diagEvent e s).txBusy = s.txBusy := rfl
@[simp] theorem diagEvent_txTs (e : DiagEvent) : (diagEvent e s).txTs = s.txTs := rfl
@[simp] theorem diagEvent_txRow (e : DiagEvent) : (diagEvent e s).txRow = s.txRow := rfl
@[simp] theorem diagEvent_txOff (e : DiagEvent) : (diagEvent e s).txOff = s.txOff := rfl
@[simp] theorem diagEvent_txSent (e : DiagEvent) : (diagEvent e s).txSent = s.txSent := rfl
@[simp] theorem diagEvent_accN (e : DiagEvent) : (diagEvent e s).accN = s.accN := rfl
@[simp] theorem diagEvent_accSize (e : DiagEvent) : (diagEvent e s).accSize = s.accSize := rfl
@[simp] theorem diagEvent_accLh (e : DiagEvent) : (diagEvent e s).accLh = s.accLh := rfl
@[simp] theorem diagEvent_accData (e : DiagEvent) : (diagEvent e s).accData = s.accData := rfl
@[simp] theorem diagEvent_rxState (e : DiagEvent) : (diagEvent e s).rxState = s.rxState := rfl
@[simp] theorem diagEvent_rxSeqValid (e : DiagEvent) : (diagEvent e s).rxSeqValid = s.rxSeqValid := rfl
@[simp] theorem diagEvent_rxExtHi (e : DiagEvent) : (diagEvent e s).rxExtHi = s.rxExtHi := rfl
@[simp] theorem diagEvent_rxGap (e : DiagEvent) : (diagEvent e s).rxGap = s.rxGap := rfl
@[simp] theorem diagEvent_rxWritten (e : DiagEvent) : (diagEvent e s).rxWritten = s.rxWritten := rfl
@[simp] theorem diagEvent_rxBusy (e : DiagEvent) : (diagEvent e s).rxBusy = s.rxBusy := rfl
@[simp] theorem diagEvent_txd (e : DiagEvent) : (diagEvent e s).txd = s.txd := rfl
@[simp] theorem diagEvent_diag (e : DiagEvent) : (diagEvent e s).diag = s.diag ++ [e] := rfl
@[simp] theorem diagEvent_frame (e : DiagEvent) : (diagEvent e s).frame = s.frame := rfl
@[simp] theorem diagEvent_asm (e : DiagEvent) : (diagEvent e s).asm = s.asm := rfl
@[simp] theorem diagEvent_pending (e : DiagEvent) : (diagEvent e s).pending = s.pending := rfl
@[simp] theorem diagEvent_loneCall (e : DiagEvent) : (diagEvent e s).loneCall = s.loneCall := rfl
@[simp] theorem diagEvent_sendAnswers (e : DiagEvent) : (diagEvent e s).sendAnswers = s.sendAnswers := rfl
@[simp] theorem diagEvent_recvAnswers (e : DiagEvent) : (diagEvent e s).recvAnswers = s.recvAnswers := rfl
@[simp] theorem diagEvent_recvLog (e : DiagEvent) : (diagEvent e s).recvLog = s.recvLog := rfl
@[simp] theorem diagEvent_outcome (e : DiagEvent) : (diagEvent e s).outcome = s.outcome := rfl
@[simp] theorem diagEvent_txFree (e : DiagEvent) : (diagEvent e s).txFree = s.txFree := rfl
@[simp] theorem diagEvent_rxFree (e : DiagEvent) : (diagEvent e s).rxFree = s.rxFree := rfl

/-! ## `recvAnswered` -/

@[simp] theorem recvAnswered_cfg (t : Nat) (a : RecvAnswer) (l : List RecvAnswer) : (recvAnswered t a l s).cfg = s.cfg := rfl
@[simp] theorem recvAnswered_seqLast (t : Nat) (a : RecvAnswer) (l : List RecvAnswer) : (recvAnswered t a l s).seqLast = s.seqLast := rfl
@[simp] theorem recvAnswered_frameIdx (t : Nat) (a : RecvAnswer) (l : List RecvAnswer) : (recvAnswered t a l s).frameIdx = s.frameIdx := rfl
@[simp] theorem recvAnswered_seqOvf (t : Nat) (a : RecvAnswer) (l : List RecvAnswer) : (recvAnswered t a l s).seqOvf = s.seqOvf := rfl
@[simp] theorem recvAnswered_txBusy (t : Nat) (a : RecvAnswer) (l : List RecvAnswer) : (recvAnswered t a l s).txBusy = s.txBusy := rfl
@[simp] theorem recvAnswered_txTs (t : Nat) (a : RecvAnswer) (l : List RecvAnswer) : (recvAnswered t a l s).txTs = s.txTs := rfl
@[simp] theorem recvAnswered_txRow (t : Nat) (a : RecvAnswer) (l : List RecvAnswer) : (recvAnswered t a l s).txRow = s.txRow := rfl
@[simp] theorem recvAnswered_txOff (t : Nat) (a : RecvAnswer) (l : List RecvAnswer) : (recvAnswered t a l s).txOff = s.txOff := rfl
@[simp] theorem recvAnswered_txSent (t : Nat) (a : RecvAnswer) (l : List RecvAnswer) : (recvAnswered t a l s).txSent = s.txSent := rfl
@[simp] theorem recvAnswered_accN (t : Nat) (a : RecvAnswer) (l : List RecvAnswer) : (recvAnswered t a l s).accN = s.accN := rfl
@[simp] theorem recvAnswered_accSize (t : Nat) (a : RecvAnswer) (l : List RecvAnswer) : (recvAnswered t a l s).accSize = s.accSize := rfl
@[simp] theorem recvAnswered_accLh (t : Nat) (a : RecvAnswer) (l : List RecvAnswer) : (recvAnswered t a l s).accLh = s.accLh := rfl
@[simp] theorem recvAnswered_accData (t : Nat) (a : RecvAnswer) (l : List RecvAnswer) : (recvAnswered t a l s).accData = s.accData := rfl
@[simp] theorem recvAnswered_rxState (t : Nat) (a : RecvAnswer) (l : List RecvAnswer) : (recvAnswered t a l s).rxState = s.rxState := rfl
@[simp] theorem recvAnswered_rxSeqValid (t : Nat) (a : RecvAnswer) (l : List RecvAnswer) : (recvAnswered t a l s).rxSeqValid = s.rxSeqValid := rfl
@[simp] theorem recvAnswered_rxExtHi (t : Nat) (a : RecvAnswer) (l : List RecvAnswer) : (recvAnswered t a l s).rxExtHi = s.rxExtHi := rfl
@[simp] theorem recvAnswered_rxGap (t : Nat) (a : RecvAnswer) (l : List RecvAnswer) : (recvAnswered t a l s).rxGap = s.rxGap := rfl
@[simp] theorem recvAnswered_rxWritten (t : Nat) (a : RecvAnswer) (l : List RecvAnswer) : (recvAnswered t a l s).rxWritten = s.rxWritten := rfl
@[simp] theorem recvAnswered_rxBusy (t : Nat) (a : RecvAnswer) (l : List RecvAnswer) : (recvAnswered t a l s).rxBusy = s.rxBusy := rfl
@[simp] theorem recvAnswered_txd (t : Nat) (a : RecvAnswer) (l : List RecvAnswer) : (recvAnswered t a l s).txd = s.txd := rfl
@[simp] theorem recvAnswered_diag (t : Nat) (a : RecvAnswer) (l : List RecvAnswer) : (recvAnswered t a l s).diag = s.diag := rfl
@[simp] theorem recvAnswered_frame (t : Nat) (a : RecvAnswer) (l : List RecvAnswer) : (recvAnswered t a l s).frame = s.frame := rfl
@[simp] theorem recvAnswered_asm (t : Nat) (a : RecvAnswer) (l : List RecvAnswer) : (recvAnswered t a l s).asm = s.asm := rfl
@[simp] theorem recvAnswered_pending (t : Nat) (a : RecvAnswer) (l : List RecvAnswer) : (recvAnswered t a l s).pending = s.pending := rfl
@[simp] theorem recvAnswered_loneCall (t : Nat) (a : RecvAnswer) (l : List RecvAnswer) : (recvAnswered t a l s).loneCall = s.loneCall := rfl
@[simp] theorem recvAnswered_sendAnswers (t : Nat) (a : RecvAnswer) (l : List RecvAnswer) : (recvAnswered t a l s).sendAnswers = s.sendAnswers := rfl
@[simp] theorem recvAnswered_recvAnswers (t : Nat) (a : RecvAnswer) (l : List RecvAnswer) : (recvAnswered t a l s).recvAnswers = l := rfl
@[simp] theorem recvAnswered_recvLog (t : Nat) (a : RecvAnswer) (l : List RecvAnswer) : (recvAnswered t a l s).recvLog = s.recvLog ++ [(t, a)] := rfl
@[simp] theorem recvAnswered_outcome (t : Nat) (a : RecvAnswer) (l : List RecvAnswer) : (recvAnswered t a l s).outcome = s.outcome := rfl
@[simp] theorem recvAnswered_txFree (t : Nat) (a : RecvAnswer) (l : List RecvAnswer) : (recvAnswered t a l s).txFree = s.txFree := rfl
@[simp] theorem recvAnswered_rxFree (t : Nat) (a : RecvAnswer) (l : List RecvAnswer) : (recvAnswered t a l s).rxFree = s.rxFree := rfl

/-! ## `accClear` -/

@[simp] theorem accClear_cfg : (accClear s).cfg = s.cfg := rfl
@[simp] theorem accClear_seqLast : (accClear s).seqLast = s.seqLast := rfl
@[simp] theorem accClear_frameIdx : (accClear s).frameIdx = s.frameIdx := rfl
@[simp] theorem accClear_seqOvf : (accClear s).seqOvf = s.seqOvf := rfl
@[simp] theorem accClear_txBusy : (accClear s).txBusy = s.txBusy := rfl
@[simp] theorem accClear_txTs : (accClear s).txTs = s.txTs := rfl
@[simp] theorem accClear_txRow : (accClear s).txRow = s.txRow := rfl
@[simp] theorem accClear_txOff : (accClear s).txOff = s.txOff := rfl
@[simp] theorem accClear_txSent : (accClear s).txSent = s.txSent := rfl
@[simp] theorem accClear_accN : (accClear s).accN = 0 := rfl
@[simp] theorem accClear_accSize : (accClear s).accSize = hdrBase := rfl
@[simp] theorem accClear_accLh : (accClear s).accLh = [] := rfl
@[simp] theorem accClear_accData : (accClear s).accData = [] := rfl
@[simp] theorem accClear_rxState : (accClear s).rxState = s.rxState := rfl
@[simp] theorem accClear_rxSeqValid : (accClear s).rxSeqValid = s.rxSeqValid := rfl
@[simp] theorem accClear_rxExtHi : (accClear s).rxExtHi = s.rxExtHi := rfl
@[simp] theorem accClear_rxGap : (accClear s).rxGap = s.rxGap := rfl
@[simp] theorem accClear_rxWritten : (accClear s).rxWritten = s.rxWritten := rfl
@[simp] theorem accClear_rxBusy : (accClear s).rxBusy = s.rxBusy := rfl
@[simp] theorem accClear_txd : (accClear s).txd = s.txd := rfl
@[simp] theorem accClear_diag : (accClear s).diag = s.diag := rfl
@[simp] theorem accClear_frame : (accClear s).frame = s.frame := rfl
@[simp] theorem accClear_asm : (accClear s).asm = s.asm := rfl
@[simp] theorem accClear_pending : (accClear s).pending = s.pending := rfl
@[simp] theorem accClear_loneCall : (accClear s).loneCall = s.loneCall := rfl
@[simp] theorem accClear_sendAnswers : (accClear s).sendAnswers = s.sendAnswers := rfl
@[simp] theorem accClear_recvAnswers : (accClear s).recvAnswers = s.recvAnswers := rfl
@[simp] theorem accClear_recvLog : (accClear s).recvLog = s.recvLog := rfl
@[simp] theorem accClear_outcome : (accClear s).outcome = s.outcome := rfl
@[simp] theorem accClear_txFree : (accClear s).txFree = s.txFree := rfl
@[simp] theorem accClear_rxFree : (accClear s).rxFree = s.rxFree := rfl

/-! ## `txBegin` -/

@[simp] theorem txBegin_cfg (f : Bytes) : (txBegin f s).cfg = s.cfg := rfl
@[simp] theorem txBegin_seqLast (f : Bytes) : (txBegin f s).seqLast = s.seqLast := rfl
@[simp] theorem txBegin_frameIdx (f : Bytes) : (txBegin f s).frameIdx = s.frameIdx + 1 := rfl
@[simp] theorem txBegin_seqOvf (f : Bytes) : (txBegin f s).seqOvf = s.seqOvf := rfl
@[simp] theorem txBegin_txBusy (f : Bytes) : (txBegin f s).txBusy = s.txBusy := rfl
@[simp] theorem txBegin_txTs (f : Bytes) : (txBegin f s).txTs = tsFrame s.cfg s.frameIdx := rfl
@[simp] theorem txBegin_txRow (f : Bytes) : (txBegin f s).txRow = 0 := rfl
@[simp] theorem txBegin_txOff (f : Bytes) : (txBegin f s).txOff = 0 := rfl
@[simp] theorem txBegin_txSent (f : Bytes) : (txBegin f s).txSent = 0 := rfl
@[simp] theorem txBegin_accN (f : Bytes) : (txBegin f s).accN = 0 := rfl
@[simp] theorem txBegin_accSize (f : Bytes) : (txBegin f s).accSize = hdrBase := rfl
@[simp] theorem txBegin_accLh (f : Bytes) : (txBegin f s).accLh = [] := rfl
@[simp] theorem txBegin_accData (f : Bytes) : (txBegin f s).accData = [] := rfl
@[simp] theorem txBegin_rxState (f : Bytes) : (txBegin f s).rxState = s.rxState := rfl
@[simp] theorem txBegin_rxSeqValid (f : Bytes) : (txBegin f s).rxSeqValid = s.rxSeqValid := rfl
@[simp] theorem txBegin_rxExtHi (f : Bytes) : (txBegin f s).rxExtHi = s.rxExtHi := rfl
@[simp] theorem txBegin_rxGap (f : Bytes) : (txBegin f s).rxGap = s.rxGap := rfl
@[simp] theorem txBegin_rxWritten (f : Bytes) : (txBegin f s).rxWritten = s.rxWritten := rfl
@[simp] theorem txBegin_rxBusy (f : Bytes) : (txBegin f s).rxBusy = s.rxBusy := rfl
@[simp] theorem txBegin_txd (f : Bytes) : (txBegin f s).txd = s.txd := rfl
@[simp] theorem txBegin_diag (f : Bytes) : (txBegin f s).diag = s.diag := rfl
@[simp] theorem txBegin_frame (f : Bytes) : (txBegin f s).frame = f := rfl
@[simp] theorem txBegin_asm (f : Bytes) : (txBegin f s).asm = s.asm := rfl
@[simp] theorem txBegin_pending (f : Bytes) : (txBegin f s).pending = s.pending := rfl
@[simp] theorem txBegin_loneCall (f : Bytes) : (txBegin f s).loneCall = s.loneCall := rfl
@[simp] theorem txBegin_sendAnswers (f : Bytes) : (txBegin f s).sendAnswers = s.sendAnswers := rfl
@[simp] theorem txBegin_recvAnswers (f : Bytes) : (txBegin f s).recvAnswers = s.recvAnswers := rfl
@[simp] theorem txBegin_recvLog (f : Bytes) : (txBegin f s).recvLog = s.recvLog := rfl
@[simp] theorem txBegin_outcome (f : Bytes) : (txBegin f s).outcome = s.outcome := rfl
@[simp] theorem txBegin_txFree (f : Bytes) : (txBegin f s).txFree = s.txFree := rfl
@[simp] theorem txBegin_rxFree (f : Bytes) : (txBegin f s).rxFree = s.rxFree := rfl

/-! ## `txNextRow` -/

@[simp] theorem txNextRow_cfg : (txNextRow s).cfg = s.cfg := rfl
@[simp] theorem txNextRow_seqLast : (txNextRow s).seqLast = s.seqLast := rfl
@[simp] theorem txNextRow_frameIdx : (txNextRow s).frameIdx = s.frameIdx := rfl
@[simp] theorem txNextRow_seqOvf : (txNextRow s).seqOvf = s.seqOvf := rfl
@[simp] theorem txNextRow_txBusy : (txNextRow s).txBusy = s.txBusy := rfl
@[simp] theorem txNextRow_txTs : (txNextRow s).txTs = s.txTs := rfl
@[simp] theorem txNextRow_txRow : (txNextRow s).txRow = s.txRow + 1 := rfl
@[simp] theorem txNextRow_txOff : (txNextRow s).txOff = 0 := rfl
@[simp] theorem txNextRow_txSent : (txNextRow s).txSent = s.txSent := rfl
@[simp] theorem txNextRow_accN : (txNextRow s).accN = s.accN := rfl
@[simp] theorem txNextRow_accSize : (txNextRow s).accSize = s.accSize := rfl
@[simp] theorem txNextRow_accLh : (txNextRow s).accLh = s.accLh := rfl
@[simp] theorem txNextRow_accData : (txNextRow s).accData = s.accData := rfl
@[simp] theorem txNextRow_rxState : (txNextRow s).rxState = s.rxState := rfl
@[simp] theorem txNextRow_rxSeqValid : (txNextRow s).rxSeqValid = s.rxSeqValid := rfl
@[simp] theorem txNextRow_rxExtHi : (txNextRow s).rxExtHi = s.rxExtHi := rfl
@[simp] theorem txNextRow_rxGap : (txNextRow s).rxGap = s.rxGap := rfl
@[simp] theorem txNextRow_rxWritten : (txNextRow s).rxWritten = s.rxWritten := rfl
@[simp] theorem txNextRow_rxBusy : (txNextRow s).rxBusy = s.rxBusy := rfl
@[simp] theorem txNextRow_txd : (txNextRow s).txd = s.txd := rfl
@[simp] theorem txNextRow_diag : (txNextRow s).diag = s.diag := rfl
@[simp] theorem txNextRow_frame : (txNextRow s).frame = s.frame := rfl
@[simp] theorem txNextRow_asm : (txNextRow s).asm = s.asm := rfl
@[simp] theorem txNextRow_pending : (txNextRow s).pending = s.pending := rfl
@[simp] theorem txNextRow_loneCall : (txNextRow s).loneCall = s.loneCall := rfl
@[simp] theorem txNextRow_sendAnswers : (txNextRow s).sendAnswers = s.sendAnswers := rfl
@[simp] theorem txNextRow_recvAnswers : (txNextRow s).recvAnswers = s.recvAnswers := rfl
@[simp] theorem txNextRow_recvLog : (txNextRow s).recvLog = s.recvLog := rfl
@[simp] theorem txNextRow_outcome : (txNextRow s).outcome = s.outcome := rfl
@[simp] theorem txNextRow_txFree : (txNextRow s).txFree = s.txFree := rfl
@[simp] theorem txNextRow_rxFree : (txNextRow s).rxFree = s.rxFree := rfl

/-! ## `txTake` -/

@[simp] theorem txTake_cfg (rb : Nat) : (txTake rb s).cfg = s.cfg := rfl
@[simp] theorem txTake_seqLast (rb : Nat) : (txTake rb s).seqLast = s.seqLast := rfl
@[simp] theorem txTake_frameIdx (rb : Nat) : (txTake rb s).frameIdx = s.frameIdx := rfl
@[simp] theorem txTake_seqOvf (rb : Nat) : (txTake rb s).seqOvf = s.seqOvf := rfl
@[simp] theorem txTake_txBusy (rb : Nat) : (txTake rb s).txBusy = s.txBusy := rfl
@[simp] theorem txTake_txTs (rb : Nat) : (txTake rb s).txTs = s.txTs := rfl
@[simp] theorem txTake_txRow (rb : Nat) : (txTake rb s).txRow = s.txRow := rfl
@[simp] theorem txTake_txOff (rb : Nat) : (txTake rb s).txOff = s.txOff + BitVec.ofNat 16 (txFragLen rb s) := rfl
@[simp] theorem txTake_txSent (rb : Nat) : (txTake rb s).txSent = s.txSent := rfl
@[simp] theorem txTake_accN (rb : Nat) : (txTake rb s).accN = s.accN + 1 := rfl
@[simp] theorem txTake_accSize (rb : Nat) : (txTake rb s).accSize = s.accSize + s.cfg.lhStride + txFragLen rb s := rfl
@[simp] theorem txTake_accLh (rb : Nat) : (txTake rb s).accLh = s.accLh.take s.accN ++ [⟨BitVec.ofNat 16 (txFragLen rb s), s.txRow.setWidth 16, s.txOff⟩] := rfl
@[simp] theorem txTake_accData (rb : Nat) : (txTake rb s).accData = s.accData ++ frameRead s (s.txRow.toNat * rb + s.txOff.toNat) (txFragLen rb s) := rfl
@[simp] theorem txTake_rxState (rb : Nat) : (txTake rb s).rxState = s.rxState := rfl
@[simp] theorem txTake_rxSeqValid (rb : Nat) : (txTake rb s).rxSeqValid = s.rxSeqValid := rfl
@[simp] theorem txTake_rxExtHi (rb : Nat) : (txTake rb s).rxExtHi = s.rxExtHi := rfl
@[simp] theorem txTake_rxGap (rb : Nat) : (txTake rb s).rxGap = s.rxGap := rfl
@[simp] theorem txTake_rxWritten (rb : Nat) : (txTake rb s).rxWritten = s.rxWritten := rfl
@[simp] theorem txTake_rxBusy (rb : Nat) : (txTake rb s).rxBusy = s.rxBusy := rfl
@[simp] theorem txTake_txd (rb : Nat) : (txTake rb s).txd = s.txd := rfl
@[simp] theorem txTake_diag (rb : Nat) : (txTake rb s).diag = s.diag := rfl
@[simp] theorem txTake_frame (rb : Nat) : (txTake rb s).frame = s.frame := rfl
@[simp] theorem txTake_asm (rb : Nat) : (txTake rb s).asm = s.asm := rfl
@[simp] theorem txTake_pending (rb : Nat) : (txTake rb s).pending = s.pending := rfl
@[simp] theorem txTake_loneCall (rb : Nat) : (txTake rb s).loneCall = s.loneCall := rfl
@[simp] theorem txTake_sendAnswers (rb : Nat) : (txTake rb s).sendAnswers = s.sendAnswers := rfl
@[simp] theorem txTake_recvAnswers (rb : Nat) : (txTake rb s).recvAnswers = s.recvAnswers := rfl
@[simp] theorem txTake_recvLog (rb : Nat) : (txTake rb s).recvLog = s.recvLog := rfl
@[simp] theorem txTake_outcome (rb : Nat) : (txTake rb s).outcome = s.outcome := rfl
@[simp] theorem txTake_txFree (rb : Nat) : (txTake rb s).txFree = s.txFree := rfl
@[simp] theorem txTake_rxFree (rb : Nat) : (txTake rb s).rxFree = s.rxFree := rfl

/-! ## `rxFrameBoundary` -/

@[simp] theorem rxFrameBoundary_cfg : (rxFrameBoundary s).cfg = s.cfg := rfl
@[simp] theorem rxFrameBoundary_seqLast : (rxFrameBoundary s).seqLast = s.seqLast := rfl
@[simp] theorem rxFrameBoundary_frameIdx : (rxFrameBoundary s).frameIdx = s.frameIdx := rfl
@[simp] theorem rxFrameBoundary_seqOvf : (rxFrameBoundary s).seqOvf = s.seqOvf := rfl
@[simp] theorem rxFrameBoundary_txBusy : (rxFrameBoundary s).txBusy = s.txBusy := rfl
@[simp] theorem rxFrameBoundary_txTs : (rxFrameBoundary s).txTs = s.txTs := rfl
@[simp] theorem rxFrameBoundary_txRow : (rxFrameBoundary s).txRow = s.txRow := rfl
@[simp] theorem rxFrameBoundary_txOff : (rxFrameBoundary s).txOff = s.txOff := rfl
@[simp] theorem rxFrameBoundary_txSent : (rxFrameBoundary s).txSent = s.txSent := rfl
@[simp] theorem rxFrameBoundary_accN : (rxFrameBoundary s).accN = s.accN := rfl
@[simp] theorem rxFrameBoundary_accSize : (rxFrameBoundary s).accSize = s.accSize := rfl
@[simp] theorem rxFrameBoundary_accLh : (rxFrameBoundary s).accLh = s.accLh := rfl
@[simp] theorem rxFrameBoundary_accData : (rxFrameBoundary s).accData = s.accData := rfl
@[simp] theorem rxFrameBoundary_rxState : (rxFrameBoundary s).rxState = .idle := rfl
@[simp] theorem rxFrameBoundary_rxSeqValid : (rxFrameBoundary s).rxSeqValid = s.rxSeqValid := rfl
@[simp] theorem rxFrameBoundary_rxExtHi : (rxFrameBoundary s).rxExtHi = s.rxExtHi := rfl
@[simp] theorem rxFrameBoundary_rxGap : (rxFrameBoundary s).rxGap = false := rfl
@[simp] theorem rxFrameBoundary_rxWritten : (rxFrameBoundary s).rxWritten = [] := rfl
@[simp] theorem rxFrameBoundary_rxBusy : (rxFrameBoundary s).rxBusy = s.rxBusy := rfl
@[simp] theorem rxFrameBoundary_txd : (rxFrameBoundary s).txd = s.txd := rfl
@[simp] theorem rxFrameBoundary_diag : (rxFrameBoundary s).diag = s.diag := rfl
@[simp] theorem rxFrameBoundary_frame : (rxFrameBoundary s).frame = s.frame := rfl
@[simp] theorem rxFrameBoundary_asm : (rxFrameBoundary s).asm = s.asm := rfl
@[simp] theorem rxFrameBoundary_pending : (rxFrameBoundary s).pending = s.pending := rfl
@[simp] theorem rxFrameBoundary_loneCall : (rxFrameBoundary s).loneCall = s.loneCall := rfl
@[simp] theorem rxFrameBoundary_sendAnswers : (rxFrameBoundary s).sendAnswers = s.sendAnswers := rfl
@[simp] theorem rxFrameBoundary_recvAnswers : (rxFrameBoundary s).recvAnswers = s.recvAnswers := rfl
@[simp] theorem rxFrameBoundary_recvLog : (rxFrameBoundary s).recvLog = s.recvLog := rfl
@[simp] theorem rxFrameBoundary_outcome : (rxFrameBoundary s).outcome = s.outcome := rfl
@[simp] theorem rxFrameBoundary_txFree : (rxFrameBoundary s).txFree = s.txFree := rfl
@[simp] theorem rxFrameBoundary_rxFree : (rxFrameBoundary s).rxFree = s.rxFree := rfl

/-! ## `txForget` and `txEnd`: the fields that keep a value, and the ranges of the others (free values) -/

@[simp] theorem txForget_cfg : (txForget s).cfg = s.cfg := rfl
@[simp] theorem txForget_seqLast : (txForget s).seqLast = s.seqLast := rfl
@[simp] theorem txForget_frameIdx : (txForget s).frameIdx = s.frameIdx := rfl
@[simp] theorem txForget_seqOvf : (txForget s).seqOvf = s.seqOvf := rfl
@[simp] theorem txForget_txBusy : (txForget s).txBusy = s.txBusy := rfl
@[simp] theorem txForget_rxState : (txForget s).rxState = s.rxState := rfl
@[simp] theorem txForget_rxSeqValid : (txForget s).rxSeqValid = s.rxSeqValid := rfl
@[simp] theorem txForget_rxExtHi : (txForget s).rxExtHi = s.rxExtHi := rfl
@[simp] theorem txForget_rxGap : (txForget s).rxGap = s.rxGap := rfl
@[simp] theorem txForget_rxWritten : (txForget s).rxWritten = s.rxWritten := rfl
@[simp] theorem txForget_rxBusy : (txForget s).rxBusy = s.rxBusy := rfl
@[simp] theorem txForget_txd : (txForget s).txd = s.txd := rfl
@[simp] theorem txForget_diag : (txForget s).diag = s.diag := rfl
@[simp] theorem txForget_frame : (txForget s).frame = s.frame := rfl
@[simp] theorem txForget_asm : (txForget s).asm = s.asm := rfl
@[simp] theorem txForget_pending : (txForget s).pending = s.pending := rfl
@[simp] theorem txForget_loneCall : (txForget s).loneCall = s.loneCall := rfl
@[simp] theorem txForget_sendAnswers : (txForget s).sendAnswers = s.sendAnswers := rfl
@[simp] theorem txForget_recvAnswers : (txForget s).recvAnswers = s.recvAnswers := rfl
@[simp] theorem txForget_recvLog : (txForget s).recvLog = s.recvLog := rfl
@[simp] theorem txForget_outcome : (txForget s).outcome = s.outcome := rfl
@[simp] theorem txForget_txFree : (txForget s).txFree = s.txFree + 1 := rfl
@[simp] theorem txForget_rxFree : (txForget s).rxFree = s.rxFree := rfl

@[simp] theorem txEnd_cfg : (txEnd s).cfg = s.cfg := rfl
@[simp] theorem txEnd_seqLast : (txEnd s).seqLast = s.seqLast := rfl
@[simp] theorem txEnd_frameIdx : (txEnd s).frameIdx = s.frameIdx := rfl
@[simp] theorem txEnd_seqOvf : (txEnd s).seqOvf = s.seqOvf := rfl
@[simp] theorem txEnd_txBusy : (txEnd s).txBusy = s.txBusy := rfl
@[simp] theorem txEnd_rxState : (txEnd s).rxState = s.rxState := rfl
@[simp] theorem txEnd_rxSeqValid : (txEnd s).rxSeqValid = s.rxSeqValid := rfl
@[simp] theorem txEnd_rxExtHi : (txEnd s).rxExtHi = s.rxExtHi := rfl
@[simp] theorem txEnd_rxGap : (txEnd s).rxGap = s.rxGap := rfl
@[simp] theorem txEnd_rxWritten : (txEnd s).rxWritten = s.rxWritten := rfl
@[simp] theorem txEnd_rxBusy : (txEnd s).rxBusy = s.rxBusy := rfl
@[simp] theorem txEnd_txd : (txEnd s).txd = s.txd := rfl
@[simp] theorem txEnd_diag : (txEnd s).diag = s.diag := rfl
@[simp] theorem txEnd_frame : (txEnd s).frame = [] := rfl
@[simp] theorem txEnd_asm : (txEnd s).asm = s.asm := rfl
@[simp] theorem txEnd_pending : (txEnd s).pending = s.pending := rfl
@[simp] theorem txEnd_loneCall : (txEnd s).loneCall = s.loneCall := rfl
@[simp] theorem txEnd_sendAnswers : (txEnd s).sendAnswers = s.sendAnswers := rfl
@[simp] theorem txEnd_recvAnswers : (txEnd s).recvAnswers = s.recvAnswers := rfl
@[simp] theorem txEnd_recvLog : (txEnd s).recvLog = s.recvLog := rfl
@[simp] theorem txEnd_outcome : (txEnd s).outcome = s.outcome := rfl
@[simp] theorem txEnd_txFree : (txEnd s).txFree = s.txFree + 1 := rfl
@[simp] theorem txEnd_rxFree : (txEnd s).rxFree = s.rxFree := rfl

/-! ## `nextSeq` -/

@[simp] theorem nextSeq_fst : (nextSeq s).1 = s.seqLast + 1 := rfl
@[simp] theorem nextSeq_cfg : (nextSeq s).2.cfg = s.cfg := rfl
@[simp] theorem nextSeq_seqLast : (nextSeq s).2.seqLast = s.seqLast + 1 := rfl
@[simp] theorem nextSeq_frameIdx : (nextSeq s).2.frameIdx = s.frameIdx := rfl
@[simp] theorem nextSeq_seqOvf : (nextSeq s).2.seqOvf = seqOvfAfter s := rfl
@[simp] theorem nextSeq_txBusy : (nextSeq s).2.txBusy = s.txBusy := rfl
@[simp] theorem nextSeq_txTs : (nextSeq s).2.txTs = s.txTs := rfl
@[simp] theorem nextSeq_txRow : (nextSeq s).2.txRow = s.txRow := rfl
@[simp] theorem nextSeq_txOff : (nextSeq s).2.txOff = s.txOff := rfl
@[simp] theorem nextSeq_txSent : (nextSeq s).2.txSent = s.txSent := rfl
@[simp] theorem nextSeq_accN : (nextSeq s).2.accN = s.accN := rfl
@[simp] theorem nextSeq_accSize : (nextSeq s).2.accSize = s.accSize := rfl
@[simp] theorem nextSeq_accLh : (nextSeq s).2.accLh = s.accLh := rfl
@[simp] theorem nextSeq_accData : (nextSeq s).2.accData = s.accData := rfl
@[simp] theorem nextSeq_rxState : (nextSeq s).2.rxState = s.rxState := rfl
@[simp] theorem nextSeq_rxSeqValid : (nextSeq s).2.rxSeqValid = s.rxSeqValid := rfl
@[simp] theorem nextSeq_rxExtHi : (nextSeq s).2.rxExtHi = s.rxExtHi := rfl
@[simp] theorem nextSeq_rxGap : (nextSeq s).2.rxGap = s.rxGap := rfl
@[simp] theorem nextSeq_rxWritten : (nextSeq s).2.rxWritten = s.rxWritten := rfl
@[simp] theorem nextSeq_rxBusy : (nextSeq s).2.rxBusy = s.rxBusy := rfl
@[simp] theorem nextSeq_txd : (nextSeq s).2.txd = s.txd := rfl
@[simp] theorem nextSeq_diag : (nextSeq s).2.diag = s.diag := rfl
@[simp] theorem nextSeq_frame : (nextSeq s).2.frame = s.frame := rfl
@[simp] theorem nextSeq_asm : (nextSeq s).2.asm = s.asm := rfl
@[simp] theorem nextSeq_pending : (nextSeq s).2.pending = s.pending := rfl
@[simp] theorem nextSeq_loneCall : (nextSeq s).2.loneCall = s.loneCall := rfl
@[simp] theorem nextSeq_sendAnswers : (nextSeq s).2.sendAnswers = s.sendAnswers := rfl
@[simp] theorem nextSeq_recvAnswers : (nextSeq s).2.recvAnswers = s.recvAnswers := rfl
@[simp] theorem nextSeq_recvLog : (nextSeq s).2.recvLog = s.recvLog := rfl
@[simp] theorem nextSeq_outcome : (nextSeq s).2.outcome = s.outcome := rfl
@[simp] theorem nextSeq_txFree : (nextSeq s).2.txFree = s.txFree := rfl
@[simp] theorem nextSeq_rxFree : (nextSeq s).2.rxFree = s.rxFree := rfl

/-! ## `setBusy`: every field but the two busy bits -/

@[simp] theorem setBusy_cfg (p : Engine) (v : Bool) : (setBusy p v s).cfg = s.cfg := by cases p <;> rfl
@[simp] theorem setBusy_seqLast (p : Engine) (v : Bool) : (setBusy p v s).seqLast = s.seqLast := by cases p <;> rfl
@[simp] theorem setBusy_frameIdx (p : Engine) (v : Bool) : (setBusy p v s).frameIdx = s.frameIdx := by cases p <;> rfl
@[simp] theorem setBusy_seqOvf (p : Engine) (v : Bool) : (setBusy p v s).seqOvf = s.seqOvf := by cases p <;> rfl
@[simp] theorem setBusy_txTs (p : Engine) (v : Bool) : (setBusy p v s).txTs = s.txTs := by cases p <;> rfl
@[simp] theorem setBusy_txRow (p : Engine) (v : Bool) : (setBusy p v s).txRow = s.txRow := by cases p <;> rfl
@[simp] theorem setBusy_txOff (p : Engine) (v : Bool) : (setBusy p v s).txOff = s.txOff := by cases p <;> rfl
@[simp] theorem setBusy_txSent (p : Engine) (v : Bool) : (setBusy p v s).txSent = s.txSent := by cases p <;> rfl
@[simp] theorem setBusy_accN (p : Engine) (v : Bool) : (setBusy p v s).accN = s.accN := by cases p <;> rfl
@[simp] theorem setBusy_accSize (p : Engine) (v : Bool) : (setBusy p v s).accSize = s.accSize := by cases p <;> rfl
@[simp] theorem setBusy_accLh (p : Engine) (v : Bool) : (setBusy p v s).accLh = s.accLh := by cases p <;> rfl
@[simp] theorem setBusy_accData (p : Engine) (v : Bool) : (setBusy p v s).accData = s.accData := by cases p <;> rfl
@[simp] theorem setBusy_rxState (p : Engine) (v : Bool) : (setBusy p v s).rxState = s.rxState := by cases p <;> rfl
@[simp] theorem setBusy_rxSeqValid (p : Engine) (v : Bool) : (setBusy p v s).rxSeqValid = s.rxSeqValid := by cases p <;> rfl
@[simp] theorem setBusy_rxExtHi (p : Engine) (v : Bool) : (setBusy p v s).rxExtHi = s.rxExtHi := by cases p <;> rfl
@[simp] theorem setBusy_rxGap (p : Engine) (v : Bool) : (setBusy p v s).rxGap = s.rxGap := by cases p <;> rfl
@[simp] theorem setBusy_rxWritten (p : Engine) (v : Bool) : (setBusy p v s).rxWritten = s.rxWritten := by cases p <;> rfl
@[simp] theorem setBusy_txd (p : Engine) (v : Bool) : (setBusy p v s).txd = s.txd := by cases p <;> rfl
@[simp] theorem setBusy_diag (p : Engine) (v : Bool) : (setBusy p v s).diag = s.diag := by cases p <;> rfl
@[simp] theorem setBusy_frame (p : Engine) (v : Bool) : (setBusy p v s).frame = s.frame := by cases p <;> rfl
@[simp] theorem setBusy_asm (p : Engine) (v : Bool) : (setBusy p v s).asm = s.asm := by cases p <;> rfl
@[simp] theorem setBusy_pending (p : Engine) (v : Bool) : (setBusy p v s).pending = s.pending := by cases p <;> rfl
@[simp] theorem setBusy_loneCall (p : Engine) (v : Bool) : (setBusy p v s).loneCall = s.loneCall := by cases p <;> rfl
@[simp] theorem setBusy_sendAnswers (p : Engine) (v : Bool) : (setBusy p v s).sendAnswers = s.sendAnswers := by cases p <;> rfl
@[simp] theorem setBusy_recvAnswers (p : Engine) (v : Bool) : (setBusy p v s).recvAnswers = s.recvAnswers := by cases p <;> rfl
@[simp] theorem setBusy_recvLog (p : Engine) (v : Bool) : (setBusy p v s).recvLog = s.recvLog := by cases p <;> rfl
@[simp] theorem setBusy_outcome (p : Engine) (v : Bool) : (setBusy p v s).outcome = s.outcome := by cases p <;> rfl
@[simp] theorem setBusy_txFree (p : Engine) (v : Bool) : (setBusy p v s).txFree = s.txFree := by cases p <;> rfl
@[simp] theorem setBusy_rxFree (p : Engine) (v : Bool) : (setBusy p v s).rxFree = s.rxFree := by cases p <;> rfl
@[simp] theorem setBusy_txe_txBusy (v : Bool) : (setBusy .txe v s).txBusy = v := rfl
@[simp] theorem setBusy_txe_rxBusy (v : Bool) : (setBusy .txe v s).rxBusy = s.rxBusy := rfl
@[simp] theorem setBusy_rxe_txBusy (v : Bool) : (setBusy .rxe v s).txBusy = s.txBusy := rfl
@[simp] theorem setBusy_rxe_rxBusy (v : Bool) : (setBusy .rxe v s).rxBusy = v := rfl

/-! ## `rxForget` (R221) -/

@[simp] theorem rxForget_cfg : (rxForget s).cfg = s.cfg := rfl
@[simp] theorem rxForget_seqLast : (rxForget s).seqLast = s.seqLast := rfl
@[simp] theorem rxForget_frameIdx : (rxForget s).frameIdx = s.frameIdx := rfl
@[simp] theorem rxForget_seqOvf : (rxForget s).seqOvf = s.seqOvf := rfl
@[simp] theorem rxForget_txBusy : (rxForget s).txBusy = s.txBusy := rfl
@[simp] theorem rxForget_txTs : (rxForget s).txTs = s.txTs := rfl
@[simp] theorem rxForget_txRow : (rxForget s).txRow = s.txRow := rfl
@[simp] theorem rxForget_txOff : (rxForget s).txOff = s.txOff := rfl
@[simp] theorem rxForget_txSent : (rxForget s).txSent = s.txSent := rfl
@[simp] theorem rxForget_accN : (rxForget s).accN = s.accN := rfl
@[simp] theorem rxForget_accSize : (rxForget s).accSize = s.accSize := rfl
@[simp] theorem rxForget_accLh : (rxForget s).accLh = s.accLh := rfl
@[simp] theorem rxForget_accData : (rxForget s).accData = s.accData := rfl
@[simp] theorem rxForget_rxState : (rxForget s).rxState = .idle := rfl
@[simp] theorem rxForget_rxSeqValid : (rxForget s).rxSeqValid = false := rfl
@[simp] theorem rxForget_rxGap : (rxForget s).rxGap = false := rfl
@[simp] theorem rxForget_rxWritten : (rxForget s).rxWritten = [] := rfl
@[simp] theorem rxForget_rxBusy : (rxForget s).rxBusy = s.rxBusy := rfl
@[simp] theorem rxForget_txd : (rxForget s).txd = s.txd := rfl
@[simp] theorem rxForget_diag : (rxForget s).diag = s.diag := rfl
@[simp] theorem rxForget_frame : (rxForget s).frame = s.frame := rfl
@[simp] theorem rxForget_asm : (rxForget s).asm = s.asm := rfl
@[simp] theorem rxForget_pending : (rxForget s).pending = s.pending := rfl
@[simp] theorem rxForget_loneCall : (rxForget s).loneCall = s.loneCall := rfl
@[simp] theorem rxForget_sendAnswers : (rxForget s).sendAnswers = s.sendAnswers := rfl
@[simp] theorem rxForget_recvAnswers : (rxForget s).recvAnswers = s.recvAnswers := rfl
@[simp] theorem rxForget_recvLog : (rxForget s).recvLog = s.recvLog := rfl
@[simp] theorem rxForget_outcome : (rxForget s).outcome = s.outcome := rfl
@[simp] theorem rxForget_txFree : (rxForget s).txFree = s.txFree := rfl
@[simp] theorem rxForget_rxFree : (rxForget s).rxFree = s.rxFree + 1 := rfl

/-! ## `hwReset` (R270) -/

@[simp] theorem hwReset_cfg : (hwReset s).cfg = s.cfg := rfl
@[simp] theorem hwReset_seqLast : (hwReset s).seqLast = 0 := rfl
@[simp] theorem hwReset_frameIdx : (hwReset s).frameIdx = 0 := rfl
@[simp] theorem hwReset_seqOvf : (hwReset s).seqOvf = false := rfl
@[simp] theorem hwReset_txBusy : (hwReset s).txBusy = false := rfl
@[simp] theorem hwReset_rxState : (hwReset s).rxState = .idle := rfl
@[simp] theorem hwReset_rxSeqValid : (hwReset s).rxSeqValid = false := rfl
@[simp] theorem hwReset_rxGap : (hwReset s).rxGap = false := rfl
@[simp] theorem hwReset_rxWritten : (hwReset s).rxWritten = [] := rfl
@[simp] theorem hwReset_rxBusy : (hwReset s).rxBusy = false := rfl
@[simp] theorem hwReset_txd : (hwReset s).txd = [] := rfl
@[simp] theorem hwReset_diag : (hwReset s).diag = [] := rfl
@[simp] theorem hwReset_frame : (hwReset s).frame = [] := rfl
@[simp] theorem hwReset_asm : (hwReset s).asm = s.asm := rfl
@[simp] theorem hwReset_pending : (hwReset s).pending = s.pending := rfl
@[simp] theorem hwReset_loneCall : (hwReset s).loneCall = none := rfl
@[simp] theorem hwReset_sendAnswers : (hwReset s).sendAnswers = s.sendAnswers := rfl
@[simp] theorem hwReset_recvAnswers : (hwReset s).recvAnswers = s.recvAnswers := rfl
@[simp] theorem hwReset_recvLog : (hwReset s).recvLog = [] := rfl
@[simp] theorem hwReset_outcome : (hwReset s).outcome = some (.ok .unit) := rfl
@[simp] theorem hwReset_txFree : (hwReset s).txFree = s.txFree + 1 := rfl
@[simp] theorem hwReset_rxFree : (hwReset s).rxFree = s.rxFree + 1 := rfl

/-! ## `send`: what it leaves, and the answer and the log -/

@[simp] theorem send_cfg (b : Bytes) : (send b s).2.cfg = s.cfg := by unfold send; split <;> rfl
@[simp] theorem send_seqLast (b : Bytes) : (send b s).2.seqLast = s.seqLast := by unfold send; split <;> rfl
@[simp] theorem send_frameIdx (b : Bytes) : (send b s).2.frameIdx = s.frameIdx := by unfold send; split <;> rfl
@[simp] theorem send_seqOvf (b : Bytes) : (send b s).2.seqOvf = s.seqOvf := by unfold send; split <;> rfl
@[simp] theorem send_txBusy (b : Bytes) : (send b s).2.txBusy = s.txBusy := by unfold send; split <;> rfl
@[simp] theorem send_txTs (b : Bytes) : (send b s).2.txTs = s.txTs := by unfold send; split <;> rfl
@[simp] theorem send_txRow (b : Bytes) : (send b s).2.txRow = s.txRow := by unfold send; split <;> rfl
@[simp] theorem send_txOff (b : Bytes) : (send b s).2.txOff = s.txOff := by unfold send; split <;> rfl
@[simp] theorem send_txSent (b : Bytes) : (send b s).2.txSent = s.txSent := by unfold send; split <;> rfl
@[simp] theorem send_accN (b : Bytes) : (send b s).2.accN = s.accN := by unfold send; split <;> rfl
@[simp] theorem send_accSize (b : Bytes) : (send b s).2.accSize = s.accSize := by unfold send; split <;> rfl
@[simp] theorem send_accLh (b : Bytes) : (send b s).2.accLh = s.accLh := by unfold send; split <;> rfl
@[simp] theorem send_accData (b : Bytes) : (send b s).2.accData = s.accData := by unfold send; split <;> rfl
@[simp] theorem send_rxState (b : Bytes) : (send b s).2.rxState = s.rxState := by unfold send; split <;> rfl
@[simp] theorem send_rxSeqValid (b : Bytes) : (send b s).2.rxSeqValid = s.rxSeqValid := by unfold send; split <;> rfl
@[simp] theorem send_rxExtHi (b : Bytes) : (send b s).2.rxExtHi = s.rxExtHi := by unfold send; split <;> rfl
@[simp] theorem send_rxGap (b : Bytes) : (send b s).2.rxGap = s.rxGap := by unfold send; split <;> rfl
@[simp] theorem send_rxWritten (b : Bytes) : (send b s).2.rxWritten = s.rxWritten := by unfold send; split <;> rfl
@[simp] theorem send_rxBusy (b : Bytes) : (send b s).2.rxBusy = s.rxBusy := by unfold send; split <;> rfl
@[simp] theorem send_diag (b : Bytes) : (send b s).2.diag = s.diag := by unfold send; split <;> rfl
@[simp] theorem send_frame (b : Bytes) : (send b s).2.frame = s.frame := by unfold send; split <;> rfl
@[simp] theorem send_asm (b : Bytes) : (send b s).2.asm = s.asm := by unfold send; split <;> rfl
@[simp] theorem send_pending (b : Bytes) : (send b s).2.pending = s.pending := by unfold send; split <;> rfl
@[simp] theorem send_loneCall (b : Bytes) : (send b s).2.loneCall = s.loneCall := by unfold send; split <;> rfl
@[simp] theorem send_recvAnswers (b : Bytes) : (send b s).2.recvAnswers = s.recvAnswers := by unfold send; split <;> rfl
@[simp] theorem send_recvLog (b : Bytes) : (send b s).2.recvLog = s.recvLog := by unfold send; split <;> rfl
@[simp] theorem send_outcome (b : Bytes) : (send b s).2.outcome = s.outcome := by unfold send; split <;> rfl
@[simp] theorem send_rxFree (b : Bytes) : (send b s).2.rxFree = s.rxFree := by unfold send; split <;> rfl

@[simp] theorem send_txd (b : Bytes) : (send b s).2.txd = s.txd ++ [(b, (send b s).1)] := by
  unfold send; split <;> rfl
@[simp] theorem send_sendAnswers (b : Bytes) : (send b s).2.sendAnswers = s.sendAnswers.tail := by
  unfold send; split <;> simp_all

/-! ## `txFlush` (R167) -/

@[simp] theorem txFlush_fst (m : Bool) :
    (txFlush m s).1 = (send (flushPacket m (s.seqLast + 1) (nextSeq s).2) (nextSeq s).2).1 := rfl

@[simp] theorem txFlush_cfg (m : Bool) : (txFlush m s).2.cfg = s.cfg := by simp [txFlush]
@[simp] theorem txFlush_seqLast (m : Bool) : (txFlush m s).2.seqLast = s.seqLast + 1 := by simp [txFlush]
@[simp] theorem txFlush_frameIdx (m : Bool) : (txFlush m s).2.frameIdx = s.frameIdx := by simp [txFlush]
@[simp] theorem txFlush_seqOvf (m : Bool) : (txFlush m s).2.seqOvf = seqOvfAfter s := by simp [txFlush]
@[simp] theorem txFlush_txBusy (m : Bool) : (txFlush m s).2.txBusy = s.txBusy := by simp [txFlush]
@[simp] theorem txFlush_txTs (m : Bool) : (txFlush m s).2.txTs = s.txTs := by simp [txFlush]
@[simp] theorem txFlush_txRow (m : Bool) : (txFlush m s).2.txRow = s.txRow := by simp [txFlush]
@[simp] theorem txFlush_txOff (m : Bool) : (txFlush m s).2.txOff = s.txOff := by simp [txFlush]
@[simp] theorem txFlush_accN (m : Bool) : (txFlush m s).2.accN = 0 := by simp [txFlush]
@[simp] theorem txFlush_accSize (m : Bool) : (txFlush m s).2.accSize = hdrBase := by simp [txFlush]
@[simp] theorem txFlush_accLh (m : Bool) : (txFlush m s).2.accLh = [] := by simp [txFlush]
@[simp] theorem txFlush_accData (m : Bool) : (txFlush m s).2.accData = [] := by simp [txFlush]
@[simp] theorem txFlush_rxState (m : Bool) : (txFlush m s).2.rxState = s.rxState := by simp [txFlush]
@[simp] theorem txFlush_rxSeqValid (m : Bool) : (txFlush m s).2.rxSeqValid = s.rxSeqValid := by simp [txFlush]
@[simp] theorem txFlush_rxExtHi (m : Bool) : (txFlush m s).2.rxExtHi = s.rxExtHi := by simp [txFlush]
@[simp] theorem txFlush_rxGap (m : Bool) : (txFlush m s).2.rxGap = s.rxGap := by simp [txFlush]
@[simp] theorem txFlush_rxWritten (m : Bool) : (txFlush m s).2.rxWritten = s.rxWritten := by simp [txFlush]
@[simp] theorem txFlush_rxBusy (m : Bool) : (txFlush m s).2.rxBusy = s.rxBusy := by simp [txFlush]
@[simp] theorem txFlush_diag (m : Bool) : (txFlush m s).2.diag = s.diag := by simp [txFlush]
@[simp] theorem txFlush_frame (m : Bool) : (txFlush m s).2.frame = s.frame := by simp [txFlush]
@[simp] theorem txFlush_asm (m : Bool) : (txFlush m s).2.asm = s.asm := by simp [txFlush]
@[simp] theorem txFlush_pending (m : Bool) : (txFlush m s).2.pending = s.pending := by simp [txFlush]
@[simp] theorem txFlush_loneCall (m : Bool) : (txFlush m s).2.loneCall = s.loneCall := by simp [txFlush]
@[simp] theorem txFlush_recvAnswers (m : Bool) : (txFlush m s).2.recvAnswers = s.recvAnswers := by simp [txFlush]
@[simp] theorem txFlush_recvLog (m : Bool) : (txFlush m s).2.recvLog = s.recvLog := by simp [txFlush]
@[simp] theorem txFlush_outcome (m : Bool) : (txFlush m s).2.outcome = s.outcome := by simp [txFlush]
@[simp] theorem txFlush_rxFree (m : Bool) : (txFlush m s).2.rxFree = s.rxFree := by simp [txFlush]

/-- The packet of a flush, as the registers before it give it. -/
theorem flushPacket_nextSeq (m : Bool) (q : Word) : flushPacket m q (nextSeq s).2 = flushPacket m q s := rfl

/-- A flush hands exactly one packet to `Send`, with TRANSPORT's answer. -/
@[simp] theorem txFlush_txd (m : Bool) :
    (txFlush m s).2.txd = s.txd ++ [(flushPacket m (s.seqLast + 1) s, (txFlush m s).1)] := by
  simp [txFlush, flushPacket_nextSeq]

/-- `tx_sent` counts the packets answered `Ok`. -/
theorem txFlush_txSent (m : Bool) :
    (txFlush m s).2.txSent = if (txFlush m s).1 = .ok then s.txSent + 1 else s.txSent := by
  simp [txFlush]

end Sys2Proof.Machine
end

