-- ==== Sys2Proof/Laws/Memory.lean ====
section
/-! SUPPORT. ASM and the sets of byte offsets: a read after a write, that every operation keeps the canonical form, and
what is in a set after an insertion. -/

namespace Sys2Proof.Machine

/-! ## Reading after writing -/

/-- A read after a store of one byte: the byte there, what was there elsewhere. -/
theorem memRead_memWrite (m : Memory) (a : Nat) (b : Byte) (x : Nat) :
    memRead (memWrite m a b) x = if a = x then some b else memRead m x := by
  induction m with
  | nil => simp [memWrite, memRead]
  | cons cell rest ih =>
    obtain ⟨y, c⟩ := cell
    unfold memWrite
    split
    · simp [memRead]
    · split
      · subst_vars; by_cases h : y = x <;> simp [memRead, h]
      · by_cases h : y = x
        · have : a ≠ x := by omega
          simp [memRead, h, this]
        · simp [memRead, h, ih]

/-- `MemWrite` (R67): "afterwards ASM[addr + k] = v[k] for k in 0 .. n-1 and every other byte of ASM is unchanged". -/
theorem memRead_memWriteBytes (bs : Bytes) : ∀ (m : Memory) (a x : Nat),
    memRead (memWriteBytes m a bs) x = if a ≤ x ∧ x < a + bs.length then some (byteAt bs (x - a)) else memRead m x := by
  induction bs with
  | nil => intro m a x; simp [memWriteBytes]
  | cons b bs ih =>
    intro m a x
    simp only [memWriteBytes, ih, memRead_memWrite, List.length_cons]
    by_cases h1 : a = x
    · subst h1; simp [byteAt]
    · by_cases h2 : a + 1 ≤ x ∧ x < a + 1 + bs.length
      · obtain ⟨k, hk⟩ : ∃ k, x - a = k + 1 := ⟨x - a - 1, by omega⟩
        have hk' : x - (a + 1) = k := by omega
        rw [if_pos h2, if_pos (by omega), hk, hk']; simp [byteAt]
      · rw [if_neg h2, if_neg h1, if_neg (by omega)]

/-! ## The canonical form -/

theorem risingFrom_memWrite (m : Memory) : ∀ {lo a : Nat} (b : Byte),
    risingFrom lo m = true → lo ≤ a → risingFrom lo (memWrite m a b) = true := by
  induction m with
  | nil => intro lo a b _ h; simpa [memWrite, risingFrom] using h
  | cons cell rest ih =>
    obtain ⟨x, c⟩ := cell
    intro lo a b hm h
    simp only [risingFrom, Bool.and_eq_true, decide_eq_true_eq] at hm
    unfold memWrite
    split
    · simp only [risingFrom, Bool.and_eq_true, decide_eq_true_eq]; exact ⟨h, by omega, hm.2⟩
    · split
      · simp only [risingFrom, Bool.and_eq_true, decide_eq_true_eq]
        exact ⟨h, by have : a = x := ‹_›; subst this; exact hm.2⟩
      · simp only [risingFrom, Bool.and_eq_true, decide_eq_true_eq]
        exact ⟨hm.1, ih b hm.2 (by omega)⟩

/-- A store of one byte keeps the canonical form. -/
theorem memWrite_wf {m : Memory} (h : m.wf = true) (a : Nat) (b : Byte) : Memory.wf (memWrite m a b) = true :=
  risingFrom_memWrite m b h (Nat.zero_le a)

/-- `MemWrite` keeps the canonical form. -/
theorem memWriteBytes_wf (bs : Bytes) : ∀ {m : Memory} (a : Nat), m.wf = true →
    Memory.wf (memWriteBytes m a bs) = true := by
  induction bs with
  | nil => intro m a h; exact h
  | cons b bs ih => intro m a h; exact ih (a + 1) (memWrite_wf h a b)

theorem memWrite_within (size : Nat) (m : Memory) {a : Nat} (b : Byte)
    (h : m.within size = true) (ha : a < size) : Memory.within size (memWrite m a b) = true := by
  induction m with
  | nil => simpa [memWrite, Memory.within] using ha
  | cons cell rest ih =>
    obtain ⟨x, c⟩ := cell
    simp only [Memory.within, List.all_cons, Bool.and_eq_true, decide_eq_true_eq] at h ih ⊢
    unfold memWrite
    split
    · simp only [List.all_cons, Bool.and_eq_true, decide_eq_true_eq]; exact ⟨ha, h⟩
    · split
      · simp only [List.all_cons, Bool.and_eq_true, decide_eq_true_eq]; exact ⟨ha, h.2⟩
      · simp only [List.all_cons, Bool.and_eq_true, decide_eq_true_eq]; exact ⟨h.1, ih h.2⟩

/-- `MemWrite` inside the buffer keeps every offset inside the buffer. -/
theorem memWriteBytes_within (size : Nat) (bs : Bytes) : ∀ {m : Memory} {a : Nat}, m.within size = true →
    a + bs.length ≤ size → Memory.within size (memWriteBytes m a bs) = true := by
  induction bs with
  | nil => intro m a h _; exact h
  | cons b bs ih =>
    intro m a h hl
    simp only [List.length_cons] at hl
    exact ih (memWrite_within size m b h (by omega)) (by omega)

/-! ## Sets of byte offsets -/

theorem mem_setInsert (w : List Nat) (a y : Nat) : y ∈ setInsert w a ↔ y = a ∨ y ∈ w := by
  induction w with
  | nil => simp [setInsert]
  | cons x rest ih =>
    unfold setInsert
    split
    · simp
    · split
      · subst_vars; simp
      · simp [ih]; tauto

/-- The union of R191: what was in the set, and the range. -/
theorem mem_setAddRange (n : Nat) : ∀ (w : List Nat) (a y : Nat),
    y ∈ setAddRange w a n ↔ y ∈ w ∨ (a ≤ y ∧ y < a + n) := by
  induction n with
  | zero => intro w a y; simp [setAddRange]
  | succ n ih =>
    intro w a y
    simp only [setAddRange, ih, mem_setInsert]
    constructor
    · rintro ((h | h) | h)
      · exact .inr (by omega)
      · exact .inl h
      · exact .inr (by omega)
    · rintro (h | h)
      · exact .inl (.inr h)
      · by_cases hy : y = a
        · exact .inl (.inl hy)
        · exact .inr (by omega)

theorem setRisingFrom_setInsert (w : List Nat) : ∀ {lo a : Nat},
    setRisingFrom lo w = true → lo ≤ a → setRisingFrom lo (setInsert w a) = true := by
  induction w with
  | nil => intro lo a _ h; simpa [setInsert, setRisingFrom] using h
  | cons x rest ih =>
    intro lo a hw h
    simp only [setRisingFrom, Bool.and_eq_true, decide_eq_true_eq] at hw
    unfold setInsert
    split
    · simp only [setRisingFrom, Bool.and_eq_true, decide_eq_true_eq]; exact ⟨h, by omega, hw.2⟩
    · split
      · simp only [setRisingFrom, Bool.and_eq_true, decide_eq_true_eq]; exact hw
      · simp only [setRisingFrom, Bool.and_eq_true, decide_eq_true_eq]; exact ⟨hw.1, ih hw.2 (by omega)⟩

/-- Adding a range keeps the offsets strictly rising. -/
theorem setRisingFrom_setAddRange (n : Nat) : ∀ {w : List Nat} (a : Nat),
    setRisingFrom 0 w = true → setRisingFrom 0 (setAddRange w a n) = true := by
  induction n with
  | zero => intro w a h; exact h
  | succ n ih => intro w a h; exact ih (a + 1) (setRisingFrom_setInsert w h (Nat.zero_le a))

/-- The overlap test of R191. -/
theorem setMeets_iff (w : List Nat) (a len : Nat) : setMeets w a len = true ↔ ∃ k ∈ w, a ≤ k ∧ k < a + len := by
  simp [setMeets, List.any_eq_true]

theorem setRisingFrom_le {w : List Nat} : ∀ {lo k : Nat}, setRisingFrom lo w = true → k ∈ w → lo ≤ k := by
  induction w with
  | nil => intro lo k _ h; simp at h
  | cons x rest ih =>
    intro lo k hw hk
    simp only [setRisingFrom, Bool.and_eq_true, decide_eq_true_eq] at hw
    rcases List.mem_cons.1 hk with h | h
    · omega
    · have := ih hw.2 h; omega

/-- A strictly rising list that holds exactly the numbers from lo below lo + n is that interval. -/
theorem rising_eq_range' (w : List Nat) : ∀ {lo n : Nat}, setRisingFrom lo w = true → (∀ k ∈ w, k < lo + n) →
    (∀ k, lo ≤ k → k < lo + n → k ∈ w) → w = List.range' lo n := by
  induction w with
  | nil =>
    intro lo n _ _ hall
    cases n with
    | zero => simp
    | succ n => exact absurd (hall lo (Nat.le_refl lo) (by omega)) (by simp)
  | cons x rest ih =>
    intro lo n hw hlt hall
    simp only [setRisingFrom, Bool.and_eq_true, decide_eq_true_eq] at hw
    have hx := hlt x (by simp)
    obtain ⟨n', rfl⟩ : ∃ n', n = n' + 1 := ⟨n - 1, by omega⟩
    have hxlo : x = lo := by
      rcases List.mem_cons.1 (hall lo (Nat.le_refl lo) (by omega)) with h | h
      · exact h.symm
      · have := setRisingFrom_le hw.2 h; omega
    subst hxlo
    rw [List.range'_succ, ← ih hw.2]
    · intro k hk; have := hlt k (by simp [hk]); omega
    · intro k h1 h2
      rcases List.mem_cons.1 (hall k (by omega) (by omega)) with h | h
      · omega
      · exact h

/-- Full coverage (R195): a set of offsets below n is all of 0 .. n-1 just when every one of them is in it. -/
theorem rising_eq_range_iff {w : List Nat} {n : Nat} (hw : setRisingFrom 0 w = true) (hlt : ∀ k ∈ w, k < n) :
    w = List.range n ↔ ∀ k, k < n → k ∈ w := by
  constructor
  · rintro rfl k hk; simpa using hk
  · intro h
    rw [List.range_eq_range']
    exact rising_eq_range' w hw (by simpa using hlt) (fun k _ hk => h k (by simpa using hk))

end Sys2Proof.Machine
end

