-- ==== Sys2Proof/Laws/Wire.lean ====
section
/-! SUPPORT. Byte order and the header fields: reading back what the encoder wrote (30_encoding.md R91 to R97,
20_memory.md R60). -/

namespace Sys2Proof

/-! ## Bytes of byte strings -/

@[simp] theorem be16_length (v : Half) : (be16 v).length = 2 := rfl
@[simp] theorem be32_length (v : Word) : (be32 v).length = 4 := rfl
@[simp] theorem zeros_length (n : Nat) : (zeros n).length = n := by simp [zeros]

theorem byteAt_append_left {a b : Bytes} {i : Nat} (h : i < a.length) : byteAt (a ++ b) i = byteAt a i := by
  simp [byteAt, List.getD_eq_getElem?_getD, List.getElem?_append_left h]

theorem byteAt_append_right {a b : Bytes} {i : Nat} (h : a.length ≤ i) :
    byteAt (a ++ b) i = byteAt b (i - a.length) := by
  simp [byteAt, List.getD_eq_getElem?_getD, List.getElem?_append_right h]

theorem rd16_append_left {a b : Bytes} {i : Nat} (h : i + 1 < a.length) : rd16 (a ++ b) i = rd16 a i := by
  simp [rd16, byteAt_append_left h, byteAt_append_left (Nat.lt_of_succ_lt h)]

theorem rd16_append_right {a b : Bytes} {i : Nat} (h : a.length ≤ i) :
    rd16 (a ++ b) i = rd16 b (i - a.length) := by
  simp [rd16, byteAt_append_right h, byteAt_append_right (Nat.le_succ_of_le h), Nat.sub_add_comm h]

theorem rd32_append_left {a b : Bytes} {i : Nat} (h : i + 3 < a.length) : rd32 (a ++ b) i = rd32 a i := by
  simp [rd32, byteAt_append_left h, byteAt_append_left (show i < a.length by omega),
    byteAt_append_left (show i + 1 < a.length by omega), byteAt_append_left (show i + 2 < a.length by omega)]

theorem rd32_append_right {a b : Bytes} {i : Nat} (h : a.length ≤ i) :
    rd32 (a ++ b) i = rd32 b (i - a.length) := by
  simp [rd32, byteAt_append_right h, byteAt_append_right (show a.length ≤ i + 1 by omega),
    byteAt_append_right (show a.length ≤ i + 2 by omega), byteAt_append_right (show a.length ≤ i + 3 by omega),
    Nat.sub_add_comm h]

/-! ## Reading back a value -/

theorem half_of_bytes (v : Half) : v.extractLsb' 8 8 ++ v.extractLsb' 0 8 = v := by
  apply BitVec.eq_of_getLsbD_eq
  intro i hi
  simp only [BitVec.getLsbD_append, BitVec.getLsbD_extractLsb']
  by_cases h : i < 8
  · simp [h]
  · simp [h, show i - 8 < 8 by omega, show 8 + (i - 8) = i by omega]

theorem word_of_bytes (v : Word) :
    v.extractLsb' 24 8 ++ v.extractLsb' 16 8 ++ v.extractLsb' 8 8 ++ v.extractLsb' 0 8 = v := by
  apply BitVec.eq_of_getLsbD_eq
  intro i hi
  simp only [BitVec.getLsbD_append, BitVec.getLsbD_extractLsb']
  by_cases h : i < 8
  · simp [h]
  · by_cases h2 : i < 16
    · simp [h, show i - 8 < 8 by omega, show 8 + (i - 8) = i by omega]
    · by_cases h3 : i < 24
      · simp [h, show ¬ i - 8 < 8 by omega, show i - 8 - 8 < 8 by omega, show 16 + (i - 8 - 8) = i by omega]
      · simp [h, show ¬ i - 8 < 8 by omega, show ¬ i - 8 - 8 < 8 by omega, show i - 8 - 8 - 8 < 8 by omega,
          show 24 + (i - 8 - 8 - 8) = i by omega]

theorem word_of_halves (v : Word) : v.extractLsb' 16 16 ++ v.extractLsb' 0 16 = v := by
  apply BitVec.eq_of_getLsbD_eq
  intro i hi
  simp only [BitVec.getLsbD_append, BitVec.getLsbD_extractLsb']
  by_cases h : i < 16
  · simp [h]
  · simp [h, show i - 16 < 16 by omega, show 16 + (i - 16) = i by omega]

/-- A 16-bit value written most significant byte first is read back (R60). -/
@[simp] theorem rd16_be16 (v : Half) : rd16 (be16 v) 0 = v := by simpa [rd16, byteAt, be16] using half_of_bytes v

/-- A 32-bit value written most significant byte first is read back (R60). -/
@[simp] theorem rd32_be32 (v : Word) : rd32 (be32 v) 0 = v := by simpa [rd32, byteAt, be32] using word_of_bytes v

/-! ## The fields of word 0 (R91) -/

section word0
variable (v : BitVec 2) (p x : Bool) (cc : BitVec 4) (m : Bool) (pt : BitVec 7) (seq : Half)

theorem word0_getLsbD (i : Nat) : (word0 v p x cc m pt seq).getLsbD i =
    if i < 16 then seq.getLsbD i else if i < 23 then pt.getLsbD (i - 16) else if i < 24 then m
    else if i < 28 then cc.getLsbD (i - 24) else if i < 29 then x else if i < 30 then p else v.getLsbD (i - 30) := by
  simp only [word0, BitVec.getLsbD_append, BitVec.getLsbD_ofBool]
  by_cases h1 : i < 16
  · simp [h1]
  by_cases h2 : i < 23
  · simp [h1, h2, show i - 16 < 7 by omega]
  by_cases h3 : i < 24
  · simp [h1, h2, h3, show ¬ i - 16 < 7 by omega, show i - 16 - 7 = 0 by omega]
  by_cases h4 : i < 28
  · simp [h1, h2, h3, h4, show ¬ i - 16 < 7 by omega, show i - 16 - 7 ≠ 0 by omega,
      show i - 16 - 7 - 1 = i - 24 by omega, show i - 24 < 4 by omega]
  by_cases h5 : i < 29
  · simp [h1, h2, h3, h4, h5, show ¬ i - 16 < 7 by omega, show i - 16 - 7 ≠ 0 by omega,
      show ¬ i - 16 - 7 - 1 < 4 by omega, show i - 16 - 7 - 1 - 4 = 0 by omega]
  by_cases h6 : i < 30
  · simp [h1, h2, h3, h4, h5, h6, show ¬ i - 16 < 7 by omega, show i - 16 - 7 ≠ 0 by omega,
      show ¬ i - 16 - 7 - 1 < 4 by omega, show i - 16 - 7 - 1 - 4 ≠ 0 by omega,
      show i - 16 - 7 - 1 - 4 - 1 = 0 by omega]
  · simp [h1, h2, h3, h4, h5, h6, show ¬ i - 16 < 7 by omega, show i - 16 - 7 ≠ 0 by omega,
      show ¬ i - 16 - 7 - 1 < 4 by omega, show i - 16 - 7 - 1 - 4 ≠ 0 by omega,
      show i - 16 - 7 - 1 - 4 - 1 ≠ 0 by omega, show i - 16 - 7 - 1 - 4 - 1 - 1 = i - 30 by omega]

@[simp] theorem word0V_word0 : word0V (word0 v p x cc m pt seq) = v := by
  apply BitVec.eq_of_getLsbD_eq
  intro i hi
  simp [word0V, word0_getLsbD, hi, show ¬ 30 + i < 16 by omega, show ¬ 30 + i < 23 by omega,
    show ¬ 30 + i < 24 by omega, show ¬ 30 + i < 28 by omega, show ¬ 30 + i < 29 by omega, show ¬ 30 + i < 30 by omega]

@[simp] theorem word0P_word0 : word0P (word0 v p x cc m pt seq) = p := by
  rw [word0P, word0_getLsbD]; simp
@[simp] theorem word0X_word0 : word0X (word0 v p x cc m pt seq) = x := by
  rw [word0X, word0_getLsbD]; simp
@[simp] theorem word0M_word0 : word0M (word0 v p x cc m pt seq) = m := by
  rw [word0M, word0_getLsbD]; simp

@[simp] theorem word0CC_word0 : word0CC (word0 v p x cc m pt seq) = cc := by
  apply BitVec.eq_of_getLsbD_eq
  intro i hi
  simp [word0CC, word0_getLsbD, hi, show ¬ 24 + i < 16 by omega, show ¬ 24 + i < 23 by omega,
    show ¬ 24 + i < 24 by omega, show 24 + i < 28 by omega]

@[simp] theorem word0PT_word0 : word0PT (word0 v p x cc m pt seq) = pt := by
  apply BitVec.eq_of_getLsbD_eq
  intro i hi
  simp [word0PT, word0_getLsbD, hi, show ¬ 16 + i < 16 by omega, show 16 + i < 23 by omega]

@[simp] theorem word0Seq_word0 : word0Seq (word0 v p x cc m pt seq) = seq := by
  apply BitVec.eq_of_getLsbD_eq
  intro i hi
  simp [word0Seq, word0_getLsbD, hi]

end word0

/-- A word is word 0 of its own fields: no bit of it is left out (R91). -/
theorem word0_of_fields (w : Word) :
    word0 (word0V w) (word0P w) (word0X w) (word0CC w) (word0M w) (word0PT w) (word0Seq w) = w := by
  apply BitVec.eq_of_getLsbD_eq
  intro i hi
  rw [word0_getLsbD]
  simp only [word0V, word0P, word0X, word0CC, word0M, word0PT, word0Seq, BitVec.getLsbD_extractLsb']
  split
  · simp [*]
  split
  · simp [show i - 16 < 7 by omega, show 16 + (i - 16) = i by omega]
  split
  · rw [show i = 23 by omega]
  split
  · simp [show i - 24 < 4 by omega, show 24 + (i - 24) = i by omega]
  split
  · rw [show i = 28 by omega]
  split
  · rw [show i = 29 by omega]
  · simp [show i - 30 < 2 by omega, show 30 + (i - 30) = i by omega]

end Sys2Proof
end

