-- ==== Sys2Proof/Laws/WireFormat.lean ====
section
/-! SUPPORT. What ENC_HDR writes and DEC_HDR reads, part by part: lengths, one descriptor, one turn of the length
walk, the guard on CFG. -/

namespace Sys2Proof.Machine

/-- Where CFG is well formed the guard of R52 lets every operation through. -/
@[simp] theorem guarded_of_wf {s : State} (h : s.cfg.wf = true) (k : Host.Outcome State Fault Refusal) :
    guarded s k = k := by simp [guarded, h]

/-- What `Cfg.wf` says (R41 to R52). -/
theorem cfg_wf_iff (c : Cfg) : c.wf = true ↔
    c.sampleRate = 90000 ∧ 1 ≤ c.frameRate ∧ c.frameRate ≤ 90000 ∧ c.mtuBudget < 2 ^ 32 ∧ 1 ≤ c.maxLines ∧
    c.maxLines ≤ 65535 ∧ (c.lhSlot = 2 ∨ c.lhSlot = 4 ∨ c.lhSlot = 8) ∧ 1 ≤ c.rxHeight ∧ c.rxHeight ≤ 65536 ∧
    1 ≤ c.rxWidth ∧ 1 ≤ c.rxBpp ∧ c.rxStride ≤ 65535 ∧ 14 + c.lhStride + 1 ≤ c.mtuBudget := by
  simp only [Cfg.wf, Bool.and_eq_true, Bool.or_eq_true, decide_eq_true_eq]
  simp only [hdrBase]
  constructor
  · rintro ⟨⟨⟨⟨⟨⟨⟨⟨⟨⟨⟨⟨h1, h2⟩, h3⟩, h4⟩, h5⟩, h6⟩, h7⟩, h8⟩, h9⟩, h10⟩, h11⟩, h12⟩, h13⟩
    exact ⟨h1, h2, by omega, h4, h5, h6, or_assoc.1 h7, h8, h9, h10, h11, h12, h13⟩
  · rintro ⟨h1, h2, h3, h4, h5, h6, h7, h8, h9, h10, h11, h12, h13⟩
    exact ⟨⟨⟨⟨⟨⟨⟨⟨⟨⟨⟨⟨h1, h2⟩, by omega⟩, h4⟩, h5⟩, h6⟩, or_assoc.2 h7⟩, h8⟩, h9⟩, h10⟩, h11⟩, h12⟩, h13⟩

theorem lhSlot_ge {c : Cfg} (h : c.wf = true) : 2 ≤ c.lhSlot := by
  have := (cfg_wf_iff c).1 h; omega

/-! ## Lengths -/

@[simp] theorem encSlot_length {c : Cfg} (h : 2 ≤ c.lhSlot) (v : Half) : (encSlot c v).length = c.lhSlot := by
  simp [encSlot]; omega

/-- A descriptor takes LH_STRIDE bytes (R53, R97). -/
@[simp] theorem encDesc_length {c : Cfg} (h : 2 ≤ c.lhSlot) (d : LineDesc) : (encDesc c d).length = c.lhStride := by
  simp [encDesc, h, Cfg.lhStride]; omega

theorem encDescs_length {c : Cfg} (h : 2 ≤ c.lhSlot) (ls : List LineDesc) :
    (ls.flatMap (encDesc c)).length = ls.length * c.lhStride := by
  induction ls with
  | nil => simp
  | cons d ds ih => simp [h, ih, Nat.add_mul, Nat.add_comm]

/-- "The result's length is 14 + n * LH_STRIDE" (R130). -/
theorem encHdrBytes_length {c : Cfg} (h : 2 ≤ c.lhSlot) (m : Bool) (q t : Word) (ls : List LineDesc) :
    (encHdrBytes c m q t ls).length = 14 + ls.length * c.lhStride := by
  simp [encHdrBytes, encDescs_length h]; omega

/-! ## Reading a descriptor back -/

/-- The descriptor read at the start of its own bytes, whatever follows (R97). -/
theorem readDesc_encDesc {c : Cfg} (h : 2 ≤ c.lhSlot) (d : LineDesc) (rest : Bytes) :
    readDesc c (encDesc c d ++ rest) 0 = d := by
  obtain ⟨len, line, off⟩ := d
  have hs := encSlot_length h
  have hz : ∀ v : Half, rd16 (encSlot c v) 0 = v := fun v => by
    rw [encSlot, rd16_append_left (by simp), rd16_be16]
  simp only [readDesc, encDesc, List.append_assoc, LineDesc.mk.injEq, Nat.zero_add]
  refine ⟨?_, ?_, ?_⟩
  · rw [rd16_append_left (by rw [hs]; omega), hz]
  · rw [rd16_append_right (by rw [hs]), hs, Nat.sub_self, rd16_append_left (by rw [hs]; omega), hz]
  · rw [rd16_append_right (by rw [hs]; omega), hs, rd16_append_right (by rw [hs]; omega), hs,
      show 2 * c.lhSlot - c.lhSlot - c.lhSlot = 0 by omega, rd16_append_left (by rw [hs]; omega), hz]

/-- A descriptor of a longer byte string is the one at the front of what is left. -/
theorem readDesc_append {c : Cfg} (a b : Bytes) : readDesc c (a ++ b) a.length = readDesc c b 0 := by
  simp only [readDesc, LineDesc.mk.injEq]
  refine ⟨?_, ?_, ?_⟩
  · rw [rd16_append_right (Nat.le_refl _), Nat.sub_self]
  · rw [rd16_append_right (by omega)]; congr 1; omega
  · rw [rd16_append_right (by omega)]; congr 1; omega

/-! ## The header of a packet read back (R92, R93, R94) -/

section header
variable (c : Cfg) (m : Bool) (q t : Word) (ls : List LineDesc) (data : Bytes)

/-- A packet is 14 bytes, the descriptors, the data. -/
theorem encPkt_split : encPkt c m q t ls data =
    (be32 (txWord0 c m (q.extractLsb' 0 16)) ++ be32 t ++ be32 c.ssrc ++ be16 (q.extractLsb' 16 16))
      ++ (ls.flatMap (encDesc c) ++ data) := by
  simp [encPkt, encHdrBytes]

theorem encPkt_word0 : rd32 (encPkt c m q t ls data) 0 = txWord0 c m (q.extractLsb' 0 16) := by
  rw [encPkt_split, rd32_append_left (by simp), rd32_append_left (by simp), rd32_append_left (by simp),
    rd32_append_left (by simp), rd32_be32]

theorem encPkt_ts : rd32 (encPkt c m q t ls data) 4 = t := by
  rw [encPkt_split, rd32_append_left (by simp), rd32_append_left (by simp), rd32_append_left (by simp),
    rd32_append_right (by simp)]
  simp

theorem encPkt_ssrc : rd32 (encPkt c m q t ls data) 8 = c.ssrc := by
  rw [encPkt_split, rd32_append_left (by simp), rd32_append_left (by simp), rd32_append_right (by simp)]
  simp

theorem encPkt_ext : rd16 (encPkt c m q t ls data) 12 = q.extractLsb' 16 16 := by
  rw [encPkt_split, rd16_append_left (by simp), rd16_append_right (by simp)]
  simp

theorem encPkt_length (h : 2 ≤ c.lhSlot) :
    (encPkt c m q t ls data).length = 14 + ls.length * c.lhStride + data.length := by
  simp [encPkt, encHdrBytes_length h]

end header

/-! ## One turn of the length walk (R135) -/

theorem lengthWalk_fits {c : Cfg} {b : Bytes} {left n pos dsum : Nat} {ls : List LineDesc}
    (h : pos + dsum = b.length) : lengthWalk c b left n pos dsum ls = .ok (ls, pos) := by
  unfold lengthWalk; rw [if_pos h]

theorem lengthWalk_overrun {c : Cfg} {b : Bytes} {left n pos dsum : Nat} {ls : List LineDesc}
    (h : b.length < pos + dsum) : lengthWalk c b left n pos dsum ls = .error (.truncated b.length) := by
  unfold lengthWalk; rw [if_neg (by omega), if_pos h]

theorem lengthWalk_tooMany {c : Cfg} {b : Bytes} {n pos dsum : Nat} {ls : List LineDesc}
    (h : pos + dsum < b.length) : lengthWalk c b 0 n pos dsum ls = .error (.lineCountExceeded (n + 1)) := by
  unfold lengthWalk; rw [if_neg (by omega), if_neg (by omega)]

theorem lengthWalk_partial {c : Cfg} {b : Bytes} {left n pos dsum : Nat} {ls : List LineDesc}
    (h : pos + dsum < b.length) (hp : b.length < pos + c.lhStride) :
    lengthWalk c b (left + 1) n pos dsum ls = .error (.truncated b.length) := by
  unfold lengthWalk; rw [if_neg (by omega), if_neg (by omega)]; simp [hp]

theorem lengthWalk_next {c : Cfg} {b : Bytes} {left n pos dsum : Nat} {ls : List LineDesc}
    (h : pos + dsum < b.length) (hp : pos + c.lhStride ≤ b.length) :
    lengthWalk c b (left + 1) n pos dsum ls =
      lengthWalk c b left (n + 1) (pos + c.lhStride) (dsum + (readDesc c b pos).len.toNat) (ls ++ [readDesc c b pos]) := by
  conv_lhs => unfold lengthWalk
  rw [if_neg (by omega), if_neg (by omega)]; simp [show ¬ b.length < pos + c.lhStride by omega]

/-! ## The walk whole (R101, R135) -/

@[simp] theorem lenSum_nil : lenSum [] = 0 := rfl
@[simp] theorem lenSum_cons (d : LineDesc) (ds : List LineDesc) : lenSum (d :: ds) = d.len.toNat + lenSum ds := rfl
@[simp] theorem lenSum_append (a b : List LineDesc) : lenSum (a ++ b) = lenSum a + lenSum b := by simp [lenSum]

/-- Over descriptors as ENC_HDR writes them the walk gives them back and stops where the data starts. -/
theorem lengthWalk_encoded {c : Cfg} (hs : 2 ≤ c.lhSlot) (data : Bytes) : ∀ (ls : List LineDesc) (pre : Bytes) (done : List LineDesc) (left n dsum : Nat),
    ls.length ≤ left → data.length = dsum + lenSum ls →
    lengthWalk c (pre ++ (ls.flatMap (encDesc c) ++ data)) left n pre.length dsum done = .ok (done ++ ls, pre.length + ls.length * c.lhStride) := by
  intro ls
  induction ls with
  | nil => intro pre done left n dsum _ hd; rw [lengthWalk_fits (by simp at hd; simp [hd])]; simp
  | cons d ds ih =>
    intro pre done left n dsum hl hd
    obtain ⟨left, rfl⟩ : ∃ k, left = k + 1 := ⟨left - 1, by simp at hl; omega⟩
    have hst : 6 ≤ c.lhStride := by simp [Cfg.lhStride]; omega
    have hlen : (pre ++ (List.flatMap (encDesc c) (d :: ds) ++ data)).length = pre.length + ((ds.length + 1) * c.lhStride + data.length) := by
      rw [List.length_append, List.length_append, encDescs_length hs]; simp
    have hmul : (ds.length + 1) * c.lhStride = ds.length * c.lhStride + c.lhStride := by ring
    simp only [lenSum_cons, List.length_cons] at hd hl
    have hrd : readDesc c (pre ++ (List.flatMap (encDesc c) (d :: ds) ++ data)) pre.length = d := by
      rw [readDesc_append, List.flatMap_cons, List.append_assoc, readDesc_encDesc hs]
    rw [lengthWalk_next (by rw [hlen]; omega) (by rw [hlen]; omega), hrd]
    have he : pre ++ (List.flatMap (encDesc c) (d :: ds) ++ data) = (pre ++ encDesc c d) ++ (List.flatMap (encDesc c) ds ++ data) := by
      simp
    have hpl : pre.length + c.lhStride = (pre ++ encDesc c d).length := by simp [hs]
    rw [he, hpl, ih (pre ++ encDesc c d) (done ++ [d]) left (n+1) (dsum + d.len.toNat) (by omega) (by omega)]
    simp [hs, hmul]; omega

/-- One descriptor more (R101). -/
theorem walkTotal_succ (c : Cfg) (b : Bytes) (n : Nat) : walkTotal c b (n+1) = walkTotal c b n + c.lhStride + (readDesc c b (14 + n * c.lhStride)).len.toNat := by
  simp only [walkTotal, descsAt, List.range_succ, List.map_append, lenSum_append, List.map_cons, List.map_nil, lenSum_cons, lenSum_nil]
  ring

theorem walkTotal_mono {c : Cfg} (b) {n k : Nat} (h : n ≤ k) : walkTotal c b n + (k - n) * c.lhStride ≤ walkTotal c b k := by
  induction k with
  | zero => have : n = 0 := by omega
            subst this; simp
  | succ k ih =>
    rcases Nat.lt_or_ge n (k+1) with h' | h'
    · have := ih (by omega)
      rw [walkTotal_succ, show k + 1 - n = (k - n) + 1 by omega, Nat.add_mul]; omega
    · have : n = k+1 := by omega
      subst this; simp

/-- How the walk ends, told by the totals of R101 instead of its turns. -/
theorem lengthWalk_outcome {c : Cfg} (hs : 2 ≤ c.lhSlot) (b : Bytes) : ∀ (left n : Nat), n + left = c.maxLines → (∀ k < n, walkTotal c b k < b.length) →
   let r := lengthWalk c b left n (14 + n * c.lhStride) (lenSum (descsAt c b n)) (descsAt c b n)
   (∀ k, n ≤ k → k ≤ c.maxLines → walkTotal c b k = b.length → r = .ok (descsAt c b k, 14 + k * c.lhStride)) ∧
   (walkTotal c b c.maxLines < b.length → r = .error (.lineCountExceeded (c.maxLines + 1))) ∧
   ((∀ k, n ≤ k → k ≤ c.maxLines → walkTotal c b k ≠ b.length) → b.length < walkTotal c b c.maxLines → r = .error (.truncated b.length)) := by
  have hst : 6 ≤ c.lhStride := by simp [Cfg.lhStride]; omega
  intro left
  induction left with
  | zero =>
    intro n hn hk
    have hn' : n = c.maxLines := by omega
    subst hn'
    refine ⟨fun k h1 h2 h3 => ?_, fun h => ?_, fun h1 h2 => ?_⟩
    · have : k = c.maxLines := by omega
      subst this; rw [lengthWalk_fits (by simpa [walkTotal] using h3)]
    · rw [lengthWalk_tooMany (by simpa [walkTotal] using h)]
    · rw [lengthWalk_overrun (by simpa [walkTotal] using h2)]
  | succ left ih =>
    intro n hn hk
    have ht : walkTotal c b n = 14 + n * c.lhStride + lenSum (descsAt c b n) := rfl
    rcases Nat.lt_trichotomy (walkTotal c b n) b.length with h | h | h
    · by_cases hp : 14 + n * c.lhStride + c.lhStride ≤ b.length
      · have hnext : lengthWalk c b (left+1) n (14 + n * c.lhStride) (lenSum (descsAt c b n)) (descsAt c b n) = lengthWalk c b left (n+1) (14 + (n+1) * c.lhStride) (lenSum (descsAt c b (n+1))) (descsAt c b (n+1)) := by
          rw [lengthWalk_next (by rw [← ht]; exact h) hp]
          have : descsAt c b (n+1) = descsAt c b n ++ [readDesc c b (14 + n * c.lhStride)] := by simp [descsAt, List.range_succ]
          rw [this]; congr 1
          · ring
          · simp
        have := ih (n+1) (by omega) (fun k hk' => by rcases Nat.lt_or_ge k n with h' | h'; exact hk k h'; have : k = n := by omega
                                                     subst this; exact h)
        rw [← hnext] at this
        refine ⟨fun k h1 h2 h3 => this.1 k ?_ h2 h3, this.2.1, fun h1 h2 => this.2.2 (fun k hk1 => h1 k (by omega)) h2⟩
        rcases Nat.lt_or_ge n k with h' | h'
        · omega
        · have : k = n := by omega
          subst this; omega
      · have hr := @lengthWalk_partial c b left n (14 + n * c.lhStride) (lenSum (descsAt c b n)) (descsAt c b n) (by rw [← ht]; exact h) (by omega)
        have hgt : ∀ k, n + 1 ≤ k → b.length < walkTotal c b k := fun k hk' => by
          have h1 : walkTotal c b k ≥ 14 + k * c.lhStride := by simp only [walkTotal]; omega
          have h2 : (n+1) * c.lhStride ≤ k * c.lhStride := Nat.mul_le_mul_right _ hk'
          have h3 : (n+1) * c.lhStride = n * c.lhStride + c.lhStride := by ring
          omega
        refine ⟨fun k h1 h2 h3 => ?_, fun h' => ?_, fun h1 h2 => hr⟩
        · rcases Nat.lt_or_ge n k with h' | h'
          · have := hgt k h'; omega
          · have : k = n := by omega
            subst this; omega
        · have := hgt c.maxLines (by omega); omega
    · have hr := @lengthWalk_fits c b (left+1) n (14 + n * c.lhStride) (lenSum (descsAt c b n)) (descsAt c b n) (by rw [← ht]; exact h)
      have hgt : ∀ k, n + 1 ≤ k → b.length < walkTotal c b k := fun k hk' => by
        have := @walkTotal_mono c b n k (by omega)
        have h3 : 1 * c.lhStride ≤ (k - n) * c.lhStride := Nat.mul_le_mul_right _ (by omega)
        omega
      refine ⟨fun k h1 h2 h3 => ?_, fun h' => ?_, fun h1 h2 => ?_⟩
      · rcases Nat.lt_or_ge n k with h' | h'
        · have := hgt k h'; omega
        · have : k = n := by omega
          subst this; exact hr
      · have := @walkTotal_mono c b n c.maxLines (by omega); omega
      · exact absurd h (h1 n (by omega) (by omega))
    · have hr := @lengthWalk_overrun c b (left+1) n (14 + n * c.lhStride) (lenSum (descsAt c b n)) (descsAt c b n) (by rw [← ht]; exact h)
      refine ⟨fun k h1 h2 h3 => ?_, fun h' => ?_, fun h1 h2 => hr⟩
      · have := @walkTotal_mono c b n k h1; omega
      · have := @walkTotal_mono c b n c.maxLines (by omega); omega

end Sys2Proof.Machine
end

