-- ==== Sys2Proof/Laws/Depacketizer.lean ====
section
/-! SUPPORT. RX_DGRAM (43_depacketizer.md R191 to R195): what each of its three steps does to each piece of state, and
what each of them leaves alone. -/

namespace Sys2Proof.Machine

/-- What no step of RX_DGRAM touches: TXE, CFG, the pending requests, what `Recv` has still to answer and has answered,
the busy bit, the outcome of the operation before, the free values drawn. -/
structure RxKept (s t : State) : Prop where
  tx : SameTx s t
  rest : SameRest s t
  rxBusy : t.rxBusy = s.rxBusy
  recvAnswers : t.recvAnswers = s.recvAnswers
  recvLog : t.recvLog = s.recvLog
  rxFree : t.rxFree = s.rxFree
  outcome : t.outcome = s.outcome

theorem SameTx.rfl' (s : State) : SameTx s s :=
  ⟨rfl, rfl, rfl, rfl, rfl, rfl, rfl, rfl, rfl, rfl, rfl, rfl, rfl, rfl, rfl, rfl⟩

theorem SameTx.trans {s t u : State} (h : SameTx s t) (k : SameTx t u) : SameTx s u :=
  ⟨k.1.trans h.1, k.2.trans h.2, k.3.trans h.3, k.4.trans h.4, k.5.trans h.5, k.6.trans h.6, k.7.trans h.7,
    k.8.trans h.8, k.9.trans h.9, k.10.trans h.10, k.11.trans h.11, k.12.trans h.12, k.13.trans h.13,
    k.14.trans h.14, k.15.trans h.15, k.16.trans h.16⟩

theorem SameRx.rfl' (s : State) : SameRx s s :=
  ⟨rfl, rfl, rfl, rfl, rfl, rfl, rfl, rfl, rfl, rfl, rfl⟩

theorem SameRx.trans {s t u : State} (h : SameRx s t) (k : SameRx t u) : SameRx s u :=
  ⟨k.1.trans h.1, k.2.trans h.2, k.3.trans h.3, k.4.trans h.4, k.5.trans h.5, k.6.trans h.6, k.7.trans h.7,
    k.8.trans h.8, k.9.trans h.9, k.10.trans h.10, k.11.trans h.11⟩

theorem SameRest.trans {s t u : State} (h : SameRest s t) (k : SameRest t u) : SameRest s u :=
  ⟨k.1.trans h.1, k.2.trans h.2, k.3.trans h.3⟩

theorem RxKept.rfl' (s : State) : RxKept s s :=
  ⟨SameTx.rfl' s, ⟨rfl, rfl, rfl⟩, rfl, rfl, rfl, rfl, rfl⟩

theorem RxKept.trans {s t u : State} (h : RxKept s t) (k : RxKept t u) : RxKept s u :=
  ⟨h.1.trans k.1, h.2.trans k.2, k.3.trans h.3, k.4.trans h.4, k.5.trans h.5, k.6.trans h.6, k.7.trans h.7⟩

/-! ## Step 1: the sequence number (R193) -/

section sequence
variable (q : Word) (s : State)

theorem rxSequence_kept : RxKept s (rxSequence q s) :=
  ⟨⟨rfl, rfl, rfl, rfl, rfl, rfl, rfl, rfl, rfl, rfl, rfl, rfl, rfl, rfl, rfl, rfl⟩, ⟨rfl, rfl, rfl⟩, rfl, rfl,
    rfl, rfl, rfl⟩

@[simp] theorem rxSequence_cfg : (rxSequence q s).cfg = s.cfg := rfl
@[simp] theorem rxSequence_rxState : (rxSequence q s).rxState = s.rxState := rfl
@[simp] theorem rxSequence_asm : (rxSequence q s).asm = s.asm := rfl
@[simp] theorem rxSequence_rxWritten : (rxSequence q s).rxWritten = s.rxWritten := rfl
theorem rxSequence_rxGap : (rxSequence q s).rxGap = (s.rxGap || seqGap s q) := rfl
theorem rxSequence_diag : (rxSequence q s).diag =
    s.diag ++ if seqGap s q then [.seqGap (s.rxExtHi.toNat + 1) q.toNat] else [] := rfl
theorem rxSequence_rxExtHi : (rxSequence q s).rxExtHi = if seqAdvances s q then q else s.rxExtHi := rfl
theorem rxSequence_rxSeqValid : (rxSequence q s).rxSeqValid = true := by
  by_cases h : s.rxSeqValid = true <;> simp [rxSequence, seqAdvances, h]

end sequence

/-! ## Step 2: one fragment (R192, R194) -/

section fragment
variable (b : Bytes) (i p : Nat) (d : LineDesc) (s : State)

/-- A fragment writes ASM, `rx_written` and the diagnostic log, nothing else. -/
structure FragKept (s t : State) : Prop where
  kept : RxKept s t
  rxState : t.rxState = s.rxState
  rxSeqValid : t.rxSeqValid = s.rxSeqValid
  rxExtHi : t.rxExtHi = s.rxExtHi
  rxGap : t.rxGap = s.rxGap

theorem FragKept.rfl' (s : State) : FragKept s s := ⟨RxKept.rfl' s, rfl, rfl, rfl, rfl⟩

theorem FragKept.trans {s t u : State} (h : FragKept s t) (k : FragKept t u) : FragKept s u :=
  ⟨h.1.trans k.1, k.2.trans h.2, k.3.trans h.3, k.4.trans h.4, k.5.trans h.5⟩

theorem rxFragment_kept : FragKept s (rxFragment b i p d s).2 :=
  ⟨⟨⟨rfl, rfl, rfl, rfl, rfl, rfl, rfl, rfl, rfl, rfl, rfl, rfl, rfl, rfl, rfl, rfl⟩, ⟨rfl, rfl, rfl⟩, rfl, rfl,
    rfl, rfl, rfl⟩, rfl, rfl, rfl, rfl⟩

@[simp] theorem rxFragment_cfg : (rxFragment b i p d s).2.cfg = s.cfg := rfl
@[simp] theorem rxFragment_fst : (rxFragment b i p d s).1 = fragInFrame s.cfg d := rfl
theorem rxFragment_asm : (rxFragment b i p d s).2.asm =
    if fragInFrame s.cfg d then memWriteBytes s.asm (fragAddr s.cfg d) (slice b p d.len.toNat) else s.asm := rfl
theorem rxFragment_rxWritten : (rxFragment b i p d s).2.rxWritten =
    if fragInFrame s.cfg d && s.cfg.rxValidate then setAddRange s.rxWritten (fragAddr s.cfg d) d.len.toNat
    else s.rxWritten := rfl
theorem rxFragment_diag : (rxFragment b i p d s).2.diag = s.diag ++
    if fragInFrame s.cfg d then
      if s.cfg.rxValidate && setMeets s.rxWritten (fragAddr s.cfg d) d.len.toNat then [.rangeOverlap i d] else []
    else [.fragOutOfFrame i d] := by
  by_cases h : fragInFrame s.cfg d = true <;> simp [rxFragment, h]

end fragment

/-- A fragment that passes the bounds check lies inside ASM (R68). -/
theorem fragInFrame_addr {c : Cfg} {d : LineDesc} (h : fragInFrame c d = true) :
    fragAddr c d + d.len.toNat ≤ c.rxSize := by
  simp only [fragInFrame, Bool.and_eq_true, decide_eq_true_eq] at h
  unfold fragAddr Cfg.rxSize
  calc d.line.toNat * c.rxStride + d.off.toNat + d.len.toNat ≤ d.line.toNat * c.rxStride + c.rxStride := by omega
    _ = (d.line.toNat + 1) * c.rxStride := by rw [Nat.add_mul, Nat.one_mul]
    _ ≤ c.rxHeight * c.rxStride := Nat.mul_le_mul_right _ h.1

theorem fragCovers_iff {c : Cfg} {d : LineDesc} {a : Nat} : fragCovers c d a = true ↔
    fragInFrame c d = true ∧ fragAddr c d ≤ a ∧ a < fragAddr c d + d.len.toNat := by
  simp [fragCovers, and_assoc]

theorem fragCovers_lt {c : Cfg} {d : LineDesc} {a : Nat} (h : fragCovers c d a = true) : a < c.rxSize := by
  obtain ⟨h1, _, h3⟩ := fragCovers_iff.1 h
  have := fragInFrame_addr h1; omega

theorem byteAt_slice {b : Bytes} {p n k : Nat} (h : k < n) : byteAt (slice b p n) k = byteAt b (p + k) := by
  simp [byteAt, slice, List.getD_eq_getElem?_getD, h]

theorem slice_length (b : Bytes) {p n : Nat} (h : p + n ≤ b.length) : (slice b p n).length = n := by
  simp [slice]; omega

/-- ASM after one fragment whose data is all there. -/
theorem rxFragment_memRead (b : Bytes) (i : Nat) {p : Nat} (d : LineDesc) (s : State)
    (h : p + d.len.toNat ≤ b.length) (a : Nat) : memRead (rxFragment b i p d s).2.asm a =
      if fragCovers s.cfg d a then some (byteAt b (p + (a - fragAddr s.cfg d))) else memRead s.asm a := by
  rw [rxFragment_asm]
  by_cases hf : fragInFrame s.cfg d = true
  · rw [if_pos hf, memRead_memWriteBytes, slice_length b h]
    by_cases hr : fragAddr s.cfg d ≤ a ∧ a < fragAddr s.cfg d + d.len.toNat
    · rw [if_pos hr, if_pos (fragCovers_iff.2 ⟨hf, hr⟩), byteAt_slice (by omega)]
    · rw [if_neg hr, if_neg (fun hc => hr (fragCovers_iff.1 hc).2)]
  · rw [if_neg hf, if_neg (fun hc => hf (fragCovers_iff.1 hc).1)]

/-! ## Step 2: all fragments (R191) -/

section fragments
variable (b : Bytes)

theorem rxFragments_kept : ∀ (ds : List LineDesc) (i p : Nat) (wrote : Bool) (s : State),
    FragKept s (rxFragments b i p wrote ds s).2 := by
  intro ds
  induction ds with
  | nil => intro i p wrote s; exact FragKept.rfl' s
  | cons d ds ih => intro i p wrote s; exact (rxFragment_kept b i p d s).trans (ih _ _ _ _)

@[simp] theorem rxFragments_cfg (ds : List LineDesc) (i p : Nat) (wrote : Bool) (s : State) :
    (rxFragments b i p wrote ds s).2.cfg = s.cfg := (rxFragments_kept b ds i p wrote s).kept.rest.cfg

/-- Some fragment passed the bounds check. -/
theorem rxFragments_fst : ∀ (ds : List LineDesc) (i p : Nat) (wrote : Bool) (s : State),
    (rxFragments b i p wrote ds s).1 = (wrote || ds.any (fragInFrame s.cfg)) := by
  intro ds
  induction ds with
  | nil => intro i p wrote s; simp [rxFragments]
  | cons d ds ih => intro i p wrote s; simp [rxFragments, ih, Bool.or_assoc]

/-- ASM after the fragments: the byte of the last one that covers the offset. -/
theorem rxFragments_memRead : ∀ (ds : List LineDesc) (i p : Nat) (wrote : Bool) (s : State),
    p + lenSum ds ≤ b.length → ∀ a, memRead (rxFragments b i p wrote ds s).2.asm a =
      (lastCovering s.cfg b p ds a).or (memRead s.asm a) := by
  intro ds
  induction ds with
  | nil => intro i p wrote s _ a; rfl
  | cons d ds ih =>
    intro i p wrote s h a
    have hl : lenSum (d :: ds) = d.len.toNat + lenSum ds := by simp [lenSum]
    simp only [rxFragments, lastCovering]
    rw [ih _ _ _ _ (by omega), rxFragment_cfg, rxFragment_memRead b i d s (by omega), Option.or_assoc]
    by_cases hc : fragCovers s.cfg d a = true <;> simp [hc]

theorem rxFragments_rxWritten_off : ∀ (ds : List LineDesc) (i p : Nat) (wrote : Bool) (s : State),
    s.cfg.rxValidate = false → (rxFragments b i p wrote ds s).2.rxWritten = s.rxWritten := by
  intro ds
  induction ds with
  | nil => intro i p wrote s _; rfl
  | cons d ds ih =>
    intro i p wrote s h
    simp only [rxFragments]
    rw [ih _ _ _ _ (by simpa using h), rxFragment_rxWritten]; simp [h]

theorem mem_rxFragments_rxWritten : ∀ (ds : List LineDesc) (i p : Nat) (wrote : Bool) (s : State),
    s.cfg.rxValidate = true → ∀ k, k ∈ (rxFragments b i p wrote ds s).2.rxWritten ↔
      k ∈ s.rxWritten ∨ ds.any (fun d => fragCovers s.cfg d k) = true := by
  intro ds
  induction ds with
  | nil => intro i p wrote s _ k; simp [rxFragments]
  | cons d ds ih =>
    intro i p wrote s h k
    simp only [rxFragments]
    rw [ih _ _ _ _ (by simpa using h), rxFragment_rxWritten, rxFragment_cfg, List.any_cons, Bool.or_eq_true,
      fragCovers_iff]
    by_cases hf : fragInFrame s.cfg d = true
    · simp only [hf, h, Bool.and_self, if_true, mem_setAddRange, true_and, or_assoc]
    · simp only [hf, Bool.false_and, Bool.false_eq_true, if_false, false_and, false_or]

theorem rxFragments_rising : ∀ (ds : List LineDesc) (i p : Nat) (wrote : Bool) (s : State),
    setRisingFrom 0 s.rxWritten = true → setRisingFrom 0 (rxFragments b i p wrote ds s).2.rxWritten = true := by
  intro ds
  induction ds with
  | nil => intro i p wrote s h; exact h
  | cons d ds ih =>
    intro i p wrote s h
    simp only [rxFragments]
    refine ih _ _ _ _ ?_
    rw [rxFragment_rxWritten]
    split
    · exact setRisingFrom_setAddRange _ _ h
    · exact h

theorem rxFragments_asm_wf : ∀ (ds : List LineDesc) (i p : Nat) (wrote : Bool) (s : State),
    s.asm.wf = true → (rxFragments b i p wrote ds s).2.asm.wf = true := by
  intro ds
  induction ds with
  | nil => intro i p wrote s h; exact h
  | cons d ds ih =>
    intro i p wrote s h
    simp only [rxFragments]
    refine ih _ _ _ _ ?_
    rw [rxFragment_asm]
    split
    · exact memWriteBytes_wf _ _ h
    · exact h

theorem rxFragments_asm_within : ∀ (ds : List LineDesc) (i p : Nat) (wrote : Bool) (s : State),
    s.asm.within s.cfg.rxSize = true → (rxFragments b i p wrote ds s).2.asm.within s.cfg.rxSize = true := by
  intro ds
  induction ds with
  | nil => intro i p wrote s h; exact h
  | cons d ds ih =>
    intro i p wrote s h
    simp only [rxFragments]
    have := ih (i + 1) (p + d.len.toNat) (wrote || (rxFragment b i p d s).1) (rxFragment b i p d s).2
    rw [rxFragment_cfg] at this
    refine this ?_
    rw [rxFragment_asm]
    split
    · rename_i hf
      refine memWriteBytes_within _ _ h ?_
      have h1 := fragInFrame_addr hf
      have h2 : (slice b p d.len.toNat).length ≤ d.len.toNat := by simp [slice]
      omega
    · exact h

/-- The events of the fragments, given which offsets earlier descriptors of the datagram covered. -/
theorem rxFragments_diag (w : List Nat) : ∀ (ds before : List LineDesc) (p : Nat) (wrote : Bool) (s : State),
    (s.cfg.rxValidate = true → ∀ k, k ∈ s.rxWritten ↔ k ∈ w ∨ before.any (fun e => fragCovers s.cfg e k) = true) →
    (rxFragments b before.length p wrote ds s).2.diag = s.diag ++ fragEvents s.cfg w before ds := by
  intro ds
  induction ds with
  | nil => intro before p wrote s _; simp [rxFragments, fragEvents]
  | cons d ds ih =>
    intro before p wrote s h
    simp only [rxFragments, fragEvents]
    have hstep : (rxFragment b before.length p d s).2.diag = s.diag ++ fragEvent s.cfg w before before.length d := by
      rw [rxFragment_diag]
      congr 1
      unfold fragEvent
      by_cases hf : fragInFrame s.cfg d = true
      · rw [if_pos hf, if_pos hf]
        by_cases hv : s.cfg.rxValidate = true
        · have : setMeets s.rxWritten (fragAddr s.cfg d) d.len.toNat =
              (List.range d.len.toNat).any (fun k => w.contains (fragAddr s.cfg d + k) ||
                before.any fun e => fragCovers s.cfg e (fragAddr s.cfg d + k)) := by
            rw [Bool.eq_iff_iff, setMeets_iff, List.any_eq_true]
            constructor
            · rintro ⟨k, hk, h1, h2⟩
              refine ⟨k - fragAddr s.cfg d, by simp; omega, ?_⟩
              rw [show fragAddr s.cfg d + (k - fragAddr s.cfg d) = k by omega]
              have := (h hv k).1 hk
              simpa using this
            · rintro ⟨k, hk, hx⟩
              have hk' : k < d.len.toNat := by simpa using hk
              exact ⟨fragAddr s.cfg d + k, (h hv _).2 (by simpa using hx), by omega, by omega⟩
          rw [this]
        · simp [hv]
      · rw [if_neg hf, if_neg hf]
    have hnext := ih (before ++ [d]) (p + d.len.toNat) (wrote || (rxFragment b before.length p d s).1)
      (rxFragment b before.length p d s).2 ?_
    · rw [List.length_append, List.length_singleton, rxFragment_cfg] at hnext
      rw [hnext, hstep, List.append_assoc]
    · intro hv k
      rw [rxFragment_cfg] at hv ⊢
      rw [rxFragment_rxWritten, List.any_append, Bool.or_eq_true, List.any_cons, List.any_nil, Bool.or_false,
        fragCovers_iff]
      by_cases hf : fragInFrame s.cfg d = true
      · simp only [hf, hv, Bool.and_self, if_true, mem_setAddRange, h hv k, true_and, or_assoc]
      · simp only [hf, Bool.false_and, Bool.false_eq_true, if_false, h hv k, false_and, or_false]

end fragments

/-! ## What DEC_HDR says of the datagram it accepts (R98, R101) -/

theorem lengthWalk_ok {c : Cfg} {b : Bytes} : ∀ {left n pos dsum : Nat} {ls : List LineDesc} {r : List LineDesc × Nat},
    lengthWalk c b left n pos dsum ls = .ok r → dsum = lenSum ls →
      r.2 + lenSum r.1 = b.length ∧ r.1.length + n ≤ left + n + ls.length := by
  intro left
  induction left with
  | zero =>
    intro n pos dsum ls r h hd
    rcases Nat.lt_trichotomy (pos + dsum) b.length with h1 | h1 | h1
    · rw [lengthWalk_tooMany h1] at h; cases h
    · rw [lengthWalk_fits h1] at h
      obtain rfl : (ls, pos) = r := Except.ok.inj h
      exact ⟨by simp only; omega, by simp only; omega⟩
    · rw [lengthWalk_overrun h1] at h; cases h
  | succ left ih =>
    intro n pos dsum ls r h hd
    rcases Nat.lt_trichotomy (pos + dsum) b.length with h1 | h1 | h1
    · by_cases hp : pos + c.lhStride ≤ b.length
      · rw [lengthWalk_next h1 hp] at h
        have := ih h (by simp [lenSum, hd])
        refine ⟨this.1, ?_⟩
        have := this.2
        simp only [List.length_append, List.length_singleton] at this
        omega
      · rw [lengthWalk_partial h1 (by omega)] at h; cases h
    · rw [lengthWalk_fits h1] at h
      obtain rfl : (ls, pos) = r := Except.ok.inj h
      exact ⟨by simp only; omega, by simp only; omega⟩
    · rw [lengthWalk_overrun h1] at h; cases h

/-- The data area holds exactly the descriptors' data (R98). -/
theorem decHdr_ok {c : Cfg} {b : Bytes} {f : HdrFields} (h : decHdr c b = .ok f) :
    f.ds + lenSum f.lines = b.length ∧ f.n = f.lines.length ∧ f.lines.length ≤ c.maxLines := by
  unfold decHdr at h
  split at h
  · cases h
  · split at h
    · cases h
    · cases hw : lengthWalk c b c.maxLines 0 14 0 [] with
      | error e => rw [hw] at h; cases h
      | ok r =>
        rw [hw] at h
        obtain rfl := Except.ok.inj h
        have := lengthWalk_ok hw rfl
        exact ⟨this.1, rfl, by simpa [hdrFields] using this.2⟩

/-! ## RX_DGRAM whole (R191) -/

/-- After the first two steps and the transition to Assembling. -/
def rxAccepted (b : Bytes) (f : HdrFields) (s : State) : State :=
  let r := rxFragments b 0 f.ds false f.lines (rxSequence f.xseq s)
  rxAssemble r.1 r.2

theorem rxDgram_error {s : State} {b : Bytes} {e : OpError} (h : decHdr s.cfg b = .error e) :
    rxDgram b s = (.dropped e, s) := by simp [rxDgram, h]

theorem rxDgram_open {s : State} {b : Bytes} {f : HdrFields} (h : decHdr s.cfg b = .ok f) (hm : f.m = false) :
    rxDgram b s = (.accepted, rxAccepted b f s) := by simp [rxDgram, h, hm, rxAccepted]

theorem rxDgram_marker {s : State} {b : Bytes} {f : HdrFields} (h : decHdr s.cfg b = .ok f) (hm : f.m = true) :
    rxDgram b s =
      (.frameDone (incompleteFlag (rxAccepted b f s)), rxFrameBoundary (rxAccepted b f s)) := by
  simp [rxDgram, h, hm, rxAccepted, rxMarker, incompleteFlag, fullyWritten, rxFrameBoundary]

section accepted
variable (b : Bytes) (f : HdrFields) (s : State)

theorem rxAssemble_kept (wrote : Bool) : RxKept s (rxAssemble wrote s) :=
  ⟨⟨rfl, rfl, rfl, rfl, rfl, rfl, rfl, rfl, rfl, rfl, rfl, rfl, rfl, rfl, rfl, rfl⟩, ⟨rfl, rfl, rfl⟩, rfl, rfl,
    rfl, rfl, rfl⟩

theorem rxFrameBoundary_kept : RxKept s (rxFrameBoundary s) :=
  ⟨⟨rfl, rfl, rfl, rfl, rfl, rfl, rfl, rfl, rfl, rfl, rfl, rfl, rfl, rfl, rfl, rfl⟩, ⟨rfl, rfl, rfl⟩, rfl, rfl,
    rfl, rfl, rfl⟩

@[simp] theorem rxAssemble_asm (wrote : Bool) : (rxAssemble wrote s).asm = s.asm := rfl
@[simp] theorem rxAssemble_rxWritten (wrote : Bool) : (rxAssemble wrote s).rxWritten = s.rxWritten := rfl
@[simp] theorem rxAssemble_rxGap (wrote : Bool) : (rxAssemble wrote s).rxGap = s.rxGap := rfl
@[simp] theorem rxAssemble_rxExtHi (wrote : Bool) : (rxAssemble wrote s).rxExtHi = s.rxExtHi := rfl
@[simp] theorem rxAssemble_rxSeqValid (wrote : Bool) : (rxAssemble wrote s).rxSeqValid = s.rxSeqValid := rfl
@[simp] theorem rxAssemble_diag (wrote : Bool) : (rxAssemble wrote s).diag = s.diag := rfl

theorem rxAccepted_kept : RxKept s (rxAccepted b f s) :=
  ((rxSequence_kept f.xseq s).trans (rxFragments_kept b f.lines 0 f.ds false _).kept).trans (rxAssemble_kept _ _)

@[simp] theorem rxAccepted_cfg : (rxAccepted b f s).cfg = s.cfg := (rxAccepted_kept b f s).rest.cfg

theorem rxAccepted_rxState : (rxAccepted b f s).rxState =
    if s.rxState = .idle ∧ f.lines.any (fragInFrame s.cfg) = true then .assembling else s.rxState := by
  have h1 := rxFragments_fst b f.lines 0 f.ds false (rxSequence f.xseq s)
  have h2 := (rxFragments_kept b f.lines 0 f.ds false (rxSequence f.xseq s)).rxState
  rw [rxSequence_cfg, Bool.false_or] at h1
  rw [rxSequence_rxState] at h2
  simp only [rxAccepted, rxAssemble, h1]
  by_cases ha : f.lines.any (fragInFrame s.cfg) = true <;> by_cases hs : s.rxState = .idle <;> simp [ha, hs, h2]

theorem rxAccepted_rxSeqValid : (rxAccepted b f s).rxSeqValid = true := by
  simp only [rxAccepted, rxAssemble_rxSeqValid]
  rw [(rxFragments_kept b f.lines 0 f.ds false _).rxSeqValid, rxSequence_rxSeqValid]

theorem rxAccepted_rxExtHi : (rxAccepted b f s).rxExtHi = if seqAdvances s f.xseq then f.xseq else s.rxExtHi := by
  simp only [rxAccepted, rxAssemble_rxExtHi]
  rw [(rxFragments_kept b f.lines 0 f.ds false _).rxExtHi, rxSequence_rxExtHi]

theorem rxAccepted_rxGap : (rxAccepted b f s).rxGap = (s.rxGap || seqGap s f.xseq) := by
  simp only [rxAccepted, rxAssemble_rxGap]
  rw [(rxFragments_kept b f.lines 0 f.ds false _).rxGap, rxSequence_rxGap]

theorem rxAccepted_diag : (rxAccepted b f s).diag =
    s.diag ++ (if seqGap s f.xseq then [.seqGap (s.rxExtHi.toNat + 1) f.xseq.toNat] else [])
      ++ fragEvents s.cfg s.rxWritten [] f.lines := by
  simp only [rxAccepted, rxAssemble_diag]
  have := rxFragments_diag b s.rxWritten f.lines [] f.ds false (rxSequence f.xseq s) (fun _ k => by simp)
  rw [List.length_nil, rxSequence_cfg, rxSequence_diag] at this
  exact this

theorem rxAccepted_memRead (h : f.ds + lenSum f.lines = b.length) (a : Nat) : memRead (rxAccepted b f s).asm a =
    (lastCovering s.cfg b f.ds f.lines a).or (memRead s.asm a) := by
  simp only [rxAccepted, rxAssemble_asm]
  rw [rxFragments_memRead b f.lines 0 f.ds false _ (by omega), rxSequence_cfg, rxSequence_asm]

theorem rxAccepted_rxWritten_off (h : s.cfg.rxValidate = false) : (rxAccepted b f s).rxWritten = s.rxWritten := by
  simp only [rxAccepted, rxAssemble_rxWritten]
  rw [rxFragments_rxWritten_off b _ _ _ _ _ (by simpa using h), rxSequence_rxWritten]

theorem mem_rxAccepted_rxWritten (h : s.cfg.rxValidate = true) (k : Nat) : k ∈ (rxAccepted b f s).rxWritten ↔
    k ∈ s.rxWritten ∨ f.lines.any (fun d => fragCovers s.cfg d k) = true := by
  simp only [rxAccepted, rxAssemble_rxWritten]
  rw [mem_rxFragments_rxWritten b _ _ _ _ _ (by simpa using h), rxSequence_rxWritten, rxSequence_cfg]

theorem rxAccepted_rising (h : setRisingFrom 0 s.rxWritten = true) :
    setRisingFrom 0 (rxAccepted b f s).rxWritten = true := by
  simp only [rxAccepted, rxAssemble_rxWritten]
  exact rxFragments_rising b _ _ _ _ _ (by simpa using h)

theorem rxAccepted_asm_wf (h : s.asm.wf = true) : (rxAccepted b f s).asm.wf = true := by
  simp only [rxAccepted, rxAssemble_asm]
  exact rxFragments_asm_wf b _ _ _ _ _ (by simpa using h)

theorem rxAccepted_asm_within (h : s.asm.within s.cfg.rxSize = true) :
    (rxAccepted b f s).asm.within s.cfg.rxSize = true := by
  simp only [rxAccepted, rxAssemble_asm]
  have := rxFragments_asm_within b f.lines 0 f.ds false (rxSequence f.xseq s)
  rw [rxSequence_cfg, rxSequence_asm] at this
  exact this h

end accepted

/-- An offset that a fragment covers gets a byte. -/
theorem lastCovering_isSome {c : Cfg} {b : Bytes} : ∀ {ds : List LineDesc} {p a : Nat},
    (lastCovering c b p ds a).isSome = ds.any (fun d => fragCovers c d a) := by
  intro ds
  induction ds with
  | nil => intro p a; rfl
  | cons d ds ih =>
    intro p a
    rw [lastCovering, Option.isSome_or, ih, List.any_cons, Bool.or_comm]
    by_cases hc : fragCovers c d a = true <;> simp [hc]

end Sys2Proof.Machine
end

