-- ==== Sys2Proof/Laws/Packetizer.lean ====
section
/-! SUPPORT. TX_FRAME (42_packetizer.md R166 to R172): what is true at every turn of its loop, that each turn keeps it,
that the turns never run out, and from these everything the loop can end with (`txLoop_spec`). -/

namespace Sys2Proof.Machine

/-! ## Descriptors that take up a run of bytes -/

/-- The descriptors take up the bytes p .. q-1 of a frame of rows of rb bytes, in order, each at least one byte and
inside its row. -/
def coversBytes (rb : Nat) : (p : Nat) → List LineDesc → (q : Nat) → Prop
  | p, [], q => p = q
  | p, d :: ds, q =>
    d.line.toNat * rb + d.off.toNat = p ∧ d.off.toNat + d.len.toNat ≤ rb ∧ 1 ≤ d.len.toNat
      ∧ coversBytes rb (p + d.len.toNat) ds q

/-- The data of the descriptors, taken from the frame (R170 (c)). -/
def dataOf (frame : Bytes) (rb : Nat) (ds : List LineDesc) : Bytes :=
  ds.flatMap fun d => slice frame (d.line.toNat * rb + d.off.toNat) d.len.toNat

theorem coversBytes_append {rb : Nat} {a b : List LineDesc} : ∀ {p q : Nat},
    coversBytes rb p (a ++ b) q ↔ ∃ m, coversBytes rb p a m ∧ coversBytes rb m b q := by
  induction a with
  | nil => intro p q; simp [coversBytes]
  | cons d ds ih =>
    intro p q
    simp only [List.cons_append, coversBytes, ih]
    constructor
    · rintro ⟨h1, h2, h3, m, h4, h5⟩; exact ⟨m, ⟨h1, h2, h3, h4⟩, h5⟩
    · rintro ⟨m, ⟨h1, h2, h3, h4⟩, h5⟩; exact ⟨h1, h2, h3, m, h4, h5⟩

theorem coversBytes_length {rb : Nat} {ds : List LineDesc} : ∀ {p q : Nat},
    coversBytes rb p ds q → q = p + lenSum ds := by
  induction ds with
  | nil => intro p q h; simpa using h.symm
  | cons d ds ih => intro p q h; have := ih h.2.2.2; simp; omega

theorem coversBytes_count {rb : Nat} {ds : List LineDesc} : ∀ {p q : Nat},
    coversBytes rb p ds q → ds.length ≤ lenSum ds := by
  induction ds with
  | nil => intro p q _; simp
  | cons d ds ih => intro p q h; have := ih h.2.2.2; have := h.2.2.1; simp; omega

theorem slice_append (frame : Bytes) (p a b : Nat) :
    slice frame p a ++ slice frame (p + a) b = slice frame p (a + b) := by
  simp only [slice, ← List.drop_drop, List.take_add]

@[simp] theorem dataOf_append (frame : Bytes) (rb : Nat) (a b : List LineDesc) :
    dataOf frame rb (a ++ b) = dataOf frame rb a ++ dataOf frame rb b := by simp [dataOf]

@[simp] theorem dataOf_nil (frame : Bytes) (rb : Nat) : dataOf frame rb [] = [] := rfl

/-- The data of descriptors that take up a run of bytes is that run. -/
theorem dataOf_covers {frame : Bytes} {rb : Nat} {ds : List LineDesc} : ∀ {p q : Nat},
    coversBytes rb p ds q → dataOf frame rb ds = slice frame p (q - p) := by
  induction ds with
  | nil => intro p q h; have : p = q := h; simp [this, slice]
  | cons d ds ih =>
    intro p q h
    have hl := coversBytes_length h.2.2.2
    have : dataOf frame rb (d :: ds) = slice frame (d.line.toNat * rb + d.off.toNat) d.len.toNat
        ++ dataOf frame rb ds := rfl
    rw [this, ih h.2.2.2, h.1, slice_append]
    congr 1; omega

theorem dataOf_length {frame : Bytes} {rb : Nat} {ds : List LineDesc} {p q : Nat}
    (h : coversBytes rb p ds q) (hq : q ≤ frame.length) : (dataOf frame rb ds).length = lenSum ds := by
  have := coversBytes_length h
  rw [dataOf_covers h]; simp [slice]; omega

/-! ## What is true at every turn -/

/-- The size of a packet with these descriptors. -/
def pktSize (c : Cfg) (g : List LineDesc) : Nat := hdrBase + g.length * c.lhStride + lenSum g

/-- A finished packet of the frame: between 1 and MAX_LINES descriptors (R170 (a)), within the budget (R169). -/
structure GroupOk (c : Cfg) (g : List LineDesc) : Prop where
  ne : g ≠ []
  count : g.length ≤ c.maxLines
  size : pktSize c g ≤ c.mtuBudget

/-- No further descriptor with a byte fits (R168 (e), R170 (d)). -/
def GroupFull (c : Cfg) (g : List LineDesc) : Prop :=
  g.length = c.maxLines ∨ c.mtuBudget < pktSize c g + c.lhStride + 1

/-- The packets of a frame that were sent: the k-th carries the number `seq_last + k + 1`, the frame's timestamp and
M = 0. -/
def sentPackets (s0 : State) (frame : Bytes) (rb : Nat) (groups : List (List LineDesc)) : List (Bytes × SendAnswer) :=
  groups.mapIdx fun k g =>
    (encPkt s0.cfg false (s0.seqLast + BitVec.ofNat 32 (k + 1)) (tsFrame s0.cfg s0.frameIdx) g (dataOf frame rb g), .ok)

/-- Where the loop of TX_FRAME is, seen from the state `s0` in which the command was issued: `groups` are the
descriptors of the packets sent so far. -/
structure TxProgress (s0 : State) (frame : Bytes) (height rb : Nat) (groups : List (List LineDesc)) (s : State) :
    Prop where
  cfg : s.cfg = s0.cfg
  buffer : s.frame = frame
  ts : s.txTs = tsFrame s0.cfg s0.frameIdx
  frameIdx : s.frameIdx = s0.frameIdx + 1
  txd : s.txd = s0.txd ++ sentPackets s0 frame rb groups
  seqLast : s.seqLast = s0.seqLast + BitVec.ofNat 32 groups.length
  seqOvf : s.seqOvf = (s0.seqOvf || decide (2 ^ 32 ≤ s0.seqLast.toNat + groups.length))
  sent : s.txSent = BitVec.ofNat 32 groups.length
  answers : s.sendAnswers = s0.sendAnswers.drop groups.length
  answered : ∀ a ∈ s0.sendAnswers.take groups.length, a = .ok
  acc : AccOk s
  accData : s.accData = dataOf frame rb s.accLh
  covers : coversBytes rb 0 (groups.flatten ++ s.accLh) (s.txRow.toNat * rb + s.txOff.toNat)
  row : s.txRow.toNat ≤ height
  off : s.txOff.toNat ≤ rb
  atEnd : s.txRow.toNat = height → s.txOff.toNat = 0
  started : s.accLh = [] → s.txRow.toNat < height ∧ s.txOff.toNat < rb
  groupsOk : ∀ g ∈ groups, GroupOk s0.cfg g
  groupsFull : ∀ g ∈ groups, GroupFull s0.cfg g
  txBusy : s.txBusy = s0.txBusy
  rx : SameRx s0 s
  rest : SameRest s0 s

/-- The turns still needed. -/
def turnsNeeded (height rb : Nat) (s : State) : Nat :=
  (height - s.txRow.toNat) * (2 * rb + 1) - 2 * s.txOff.toNat + if accFull s then 1 else 0

section turns
variable {s0 s : State} {frame : Bytes} {height rb : Nat} {groups : List (List LineDesc)}

theorem TxProgress.accSize_eq (h : TxProgress s0 frame height rb groups s) : s.accSize = pktSize s0.cfg s.accLh := by
  have := h.acc.size
  rw [pktSize, this, h.acc.count, h.cfg]

/-- With an empty accumulator there is room (R52, R170 (a)). -/
theorem accFull_empty (hc : s.cfg.wf = true) (hn : s.accN = 0) (hs : s.accSize = hdrBase) : accFull s = false := by
  have := (cfg_wf_iff s.cfg).1 hc
  simp only [accFull, hn, hs, hdrBase, Bool.or_eq_false_iff, decide_eq_false_iff_not]
  exact ⟨by omega, by omega⟩

/-- A flush is of at least one descriptor (R170 (a)). -/
theorem TxProgress.full_ne (h : TxProgress s0 frame height rb groups s) (hc : s0.cfg.wf = true)
    (hf : accFull s = true) : s.accLh ≠ [] := by
  intro h0
  have hn : s.accN = 0 := by rw [h.acc.count, h0]; rfl
  have hs : s.accSize = hdrBase := by rw [h.acc.size, hn, h0]; simp
  rw [accFull_empty (by rw [h.cfg]; exact hc) hn hs] at hf
  exact Bool.noConfusion hf

theorem TxProgress.group_ok (h : TxProgress s0 frame height rb groups s) (hne : s.accLh ≠ []) :
    GroupOk s0.cfg s.accLh := by
  refine ⟨hne, ?_, ?_⟩
  · rw [← h.acc.count, ← h.cfg]; exact h.acc.countMax
  · rw [← h.accSize_eq, ← h.cfg]; exact h.acc.sizeMax

/-- The packet a flush makes now. -/
theorem TxProgress.packet (h : TxProgress s0 frame height rb groups s) (m : Bool) :
    flushPacket m (s.seqLast + 1) s =
      encPkt s0.cfg m (s0.seqLast + BitVec.ofNat 32 (groups.length + 1)) (tsFrame s0.cfg s0.frameIdx) s.accLh
        (dataOf frame rb s.accLh) := by
  have hq : s.seqLast + 1 = s0.seqLast + BitVec.ofNat 32 (groups.length + 1) := by
    rw [h.seqLast, BitVec.add_assoc]; congr 1
    apply BitVec.eq_of_toNat_eq; simp
  rw [flushPacket, encPkt, h.accData, h.cfg, h.ts, hq, h.acc.count, List.take_length]

/-- The row is finished (R166): the cursor goes to the next one. -/
theorem TxProgress.nextRow (h : TxProgress s0 frame height rb groups s) (hh : height ≤ 65536)
    (hrow : s.txRow.toNat < height) (hoff : s.txOff.toNat = rb) :
    TxProgress s0 frame height rb groups (txNextRow s) := by
  have hr : (s.txRow + 1).toNat = s.txRow.toNat + 1 := by
    rw [BitVec.toNat_add]; simp; omega
  have hne : s.accLh ≠ [] := fun h0 => by have := h.started h0; omega
  exact {
    cfg := h.cfg, buffer := h.buffer, ts := h.ts, frameIdx := h.frameIdx, txd := h.txd, seqLast := h.seqLast
    seqOvf := h.seqOvf, sent := h.sent, answers := h.answers, answered := h.answered
    acc := ⟨h.acc.count, h.acc.countMax, h.acc.size, h.acc.sizeMax, h.acc.data⟩
    accData := h.accData
    covers := by
      have := h.covers
      simp only [txNextRow_accLh, txNextRow_txRow, txNextRow_txOff, hr]
      rw [hoff] at this
      simpa [Nat.add_mul] using this
    row := by simp only [txNextRow_txRow, hr]; omega
    off := by simp
    atEnd := fun _ => rfl
    started := fun h0 => absurd h0 hne
    groupsOk := h.groupsOk, groupsFull := h.groupsFull, txBusy := h.txBusy
    rx := ⟨h.rx.1, h.rx.2, h.rx.3, h.rx.4, h.rx.5, h.rx.6, h.rx.7, h.rx.8, h.rx.9, h.rx.10, h.rx.11⟩
    rest := ⟨h.rest.1, h.rest.2, h.rest.3⟩ }

/-- A fragment goes into the accumulator (R166). -/
theorem TxProgress.take (h : TxProgress s0 frame height rb groups s) (hh : height ≤ 65536) (hrb : rb ≤ 65535)
    (hlen : frame.length = height * rb) (hrow : s.txRow.toNat < height) (hoff : s.txOff.toNat ≠ rb)
    (hfull : accFull s = false) :
    TxProgress s0 frame height rb groups (txTake rb s) ∧ 1 ≤ txFragLen rb s ∧ s.txOff.toNat + txFragLen rb s ≤ rb := by
  have hoff' : s.txOff.toNat < rb := Nat.lt_of_le_of_ne h.off hoff
  simp only [accFull, Bool.or_eq_false_iff, decide_eq_false_iff_not] at hfull
  have hroom : txFragLen rb s = min (rb - s.txOff.toNat) (s.cfg.mtuBudget - s.accSize - s.cfg.lhStride) := rfl
  have hl1 : 1 ≤ txFragLen rb s := by omega
  have hl2 : s.txOff.toNat + txFragLen rb s ≤ rb := by omega
  have hl3 : txFragLen rb s % 2 ^ 16 = txFragLen rb s := Nat.mod_eq_of_lt (by omega)
  have hline : (s.txRow.setWidth 16).toNat = s.txRow.toNat := by
    rw [BitVec.toNat_setWidth]; exact Nat.mod_eq_of_lt (by omega)
  have ho : (s.txOff + BitVec.ofNat 16 (txFragLen rb s)).toNat = s.txOff.toNat + txFragLen rb s := by
    rw [BitVec.toNat_add, BitVec.toNat_ofNat, hl3]; exact Nat.mod_eq_of_lt (by omega)
  have htake : s.accLh.take s.accN = s.accLh := by rw [h.acc.count, List.take_length]
  have hin : s.txRow.toNat * rb + s.txOff.toNat + txFragLen rb s ≤ frame.length := by
    rw [hlen]
    calc s.txRow.toNat * rb + s.txOff.toNat + txFragLen rb s ≤ s.txRow.toNat * rb + rb := by omega
      _ = (s.txRow.toNat + 1) * rb := by rw [Nat.add_mul, Nat.one_mul]
      _ ≤ height * rb := Nat.mul_le_mul_right _ hrow
  refine ⟨?_, hl1, hl2⟩
  exact {
    cfg := h.cfg, buffer := h.buffer, ts := h.ts, frameIdx := h.frameIdx, txd := h.txd, seqLast := h.seqLast
    seqOvf := h.seqOvf, sent := h.sent, answers := h.answers, answered := h.answered
    acc := by
      have hcount := h.acc.count
      have hmax := h.acc.countMax
      have hsz := h.acc.size
      have hsm := h.acc.sizeMax
      have hd := h.acc.data
      constructor
      · simp [hcount]
      · simp only [txTake_accN, txTake_cfg]; omega
      · simp only [txTake_accSize, txTake_accN, txTake_accLh, txTake_cfg, htake, lenSum_append, lenSum_cons,
          lenSum_nil, BitVec.toNat_ofNat, hl3, hsz, Nat.add_mul]
        omega
      · simp only [txTake_accSize, txTake_cfg]; omega
      · simp only [txTake_accData, txTake_accLh, htake, lenSum_append, lenSum_cons, lenSum_nil, BitVec.toNat_ofNat,
          hl3, List.length_append, hd, frameRead, h.buffer]
        simp [slice]; omega
    accData := by
      simp only [txTake_accData, txTake_accLh, htake, dataOf_append, h.accData, frameRead, h.buffer]
      simp only [dataOf, List.flatMap_cons, List.flatMap_nil, List.append_nil, hline, BitVec.toNat_ofNat, hl3]
    covers := by
      simp only [txTake_accLh, htake, txTake_txRow, txTake_txOff, ho]
      rw [← List.append_assoc]
      refine coversBytes_append.2 ⟨_, h.covers, ?_⟩
      simp only [coversBytes, hline, BitVec.toNat_ofNat, hl3]
      exact ⟨trivial, hl2, hl1, by omega⟩
    row := h.row
    off := by simp only [txTake_txOff, ho]; exact hl2
    atEnd := fun he => absurd he (Nat.ne_of_lt hrow)
    started := by simp
    groupsOk := h.groupsOk, groupsFull := h.groupsFull, txBusy := h.txBusy
    rx := ⟨h.rx.1, h.rx.2, h.rx.3, h.rx.4, h.rx.5, h.rx.6, h.rx.7, h.rx.8, h.rx.9, h.rx.10, h.rx.11⟩
    rest := ⟨h.rest.1, h.rest.2, h.rest.3⟩ }

/-- Which answers a flush finds: the next of those given. -/
theorem send_answer (b : Bytes) (t : State) : ∀ a ∈ t.sendAnswers.take 1, a = (send b t).1 := by
  unfold send; split <;> simp_all

theorem sentPackets_snoc (g : List LineDesc) :
    sentPackets s0 frame rb (groups ++ [g]) = sentPackets s0 frame rb groups ++
      [(encPkt s0.cfg false (s0.seqLast + BitVec.ofNat 32 (groups.length + 1)) (tsFrame s0.cfg s0.frameIdx) g
        (dataOf frame rb g), .ok)] := by
  simp [sentPackets, List.mapIdx_append]

/-- A full packet is sent and answered `Ok` (R166, R167). -/
theorem TxProgress.flush (h : TxProgress s0 frame height rb groups s) (hc : s0.cfg.wf = true)
    (hrow : s.txRow.toNat < height) (hoff : s.txOff.toNat ≠ rb) (hfull : accFull s = true)
    (hok : (txFlush false s).1 = .ok) :
    TxProgress s0 frame height rb (groups ++ [s.accLh]) (txFlush false s).2 := by
  have hoff' : s.txOff.toNat < rb := Nat.lt_of_le_of_ne h.off hoff
  have hne := h.full_ne hc hfull
  have hwf := (cfg_wf_iff s0.cfg).1 hc
  have hone : ∀ n : Nat, BitVec.ofNat 32 n + 1 = BitVec.ofNat 32 (n + 1) := fun n => by
    apply BitVec.eq_of_toNat_eq; simp
  exact {
    cfg := by simp [h.cfg], buffer := by simp [h.buffer], ts := by simp [h.ts], frameIdx := by simp [h.frameIdx]
    txd := by
      rw [txFlush_txd, h.txd, h.packet, hok, sentPackets_snoc, List.append_assoc]
    seqLast := by
      simp only [txFlush_seqLast, h.seqLast, List.length_append, List.length_singleton, BitVec.add_assoc, hone]
    seqOvf := by
      have h1 : s.seqLast.toNat = (s0.seqLast.toNat + groups.length) % 2 ^ 32 := by
        rw [h.seqLast]; simp
      have h2 := s0.seqLast.isLt
      have h3 : (s.seqLast == 0xFFFFFFFF) = decide (s.seqLast.toNat = 2 ^ 32 - 1) := by
        rw [Bool.eq_iff_iff, beq_iff_eq, decide_eq_true_eq]
        constructor
        · intro hx; rw [hx]; rfl
        · intro hx; exact BitVec.eq_of_toNat_eq hx
      simp only [txFlush_seqOvf, seqOvfAfter, h.seqOvf, h3, List.length_append, List.length_singleton, Bool.or_assoc]
      congr 1
      rw [← Bool.decide_or]
      congr 1
      apply propext
      omega
    sent := by
      rw [txFlush_txSent, if_pos hok, h.sent, List.length_append, List.length_singleton, hone]
    answers := by
      simp [txFlush, h.answers]
    answered := by
      intro a ha
      rw [List.length_append, List.length_singleton, List.take_add] at ha
      rcases List.mem_append.1 ha with ha | ha
      · exact h.answered a ha
      · rw [← h.answers] at ha
        rw [← hok]
        exact send_answer _ (nextSeq s).2 a ha
    acc := by
      constructor <;> simp [hdrBase, h.cfg]
      omega
    accData := by simp
    covers := by simpa using h.covers
    row := by simpa using h.row
    off := by simpa using h.off
    atEnd := by simpa using h.atEnd
    started := fun _ => by simpa using ⟨hrow, hoff'⟩
    groupsOk := fun g hg => by
      rcases List.mem_append.1 hg with hg | hg
      · exact h.groupsOk g hg
      · rw [List.mem_singleton.1 hg]; exact h.group_ok hne
    groupsFull := fun g hg => by
      rcases List.mem_append.1 hg with hg | hg
      · exact h.groupsFull g hg
      · rw [List.mem_singleton.1 hg]
        simp only [accFull, Bool.or_eq_true, decide_eq_true_eq, h.accSize_eq, h.cfg, h.acc.count] at hfull
        exact hfull
    txBusy := by simp [h.txBusy]
    rx := by
      constructor <;> simp [h.rx.1, h.rx.2, h.rx.3, h.rx.4, h.rx.5, h.rx.6, h.rx.7, h.rx.8, h.rx.9, h.rx.10, h.rx.11]
    rest := by constructor <;> simp [h.rest.1, h.rest.2, h.rest.3] }

/-- The start of TX_FRAME (R166). -/
theorem TxProgress.begin (hc : s0.cfg.wf = true) (hh : 1 ≤ height) (hrb : 1 ≤ rb) :
    TxProgress s0 frame height rb [] (txBegin frame s0) := by
  have hwf := (cfg_wf_iff s0.cfg).1 hc
  have h2 := s0.seqLast.isLt
  exact {
    cfg := rfl, buffer := rfl, ts := rfl, frameIdx := rfl, txd := by simp [sentPackets], seqLast := by simp
    seqOvf := by simp; omega
    sent := rfl, answers := rfl, answered := by simp
    acc := by constructor <;> simp [hdrBase]; omega
    accData := rfl, covers := by simp [coversBytes], row := by simp, off := by simp, atEnd := fun _ => rfl
    started := fun _ => by simp; omega
    groupsOk := by simp, groupsFull := by simp, txBusy := rfl
    rx := ⟨rfl, rfl, rfl, rfl, rfl, rfl, rfl, rfl, rfl, rfl, rfl⟩
    rest := ⟨rfl, rfl, rfl⟩ }

/-- How the loop of TX_FRAME can end: with all rows placed and something in the accumulator, or at a flush that
TRANSPORT answers `IoError`. It never gets stuck. -/
theorem txLoop_spec (hc : s0.cfg.wf = true) (hh : height ≤ 65536) (hrb : rb ≤ 65535)
    (hlen : frame.length = height * rb) : ∀ (turns : Nat) {groups : List (List LineDesc)} {s : State},
    TxProgress s0 frame height rb groups s → turnsNeeded height rb s < turns →
    (∃ t groups', txLoop height rb turns s = .rowsDone t ∧ TxProgress s0 frame height rb groups' t
        ∧ t.txRow.toNat = height ∧ t.accLh ≠ []) ∨
    (∃ t groups', txLoop height rb turns s = .sendFailed (txFlush false t).2 ∧ TxProgress s0 frame height rb groups' t
        ∧ t.txRow.toNat < height ∧ t.accLh ≠ [] ∧ GroupFull s0.cfg t.accLh ∧ (txFlush false t).1 = .ioError) := by
  intro turns
  induction turns with
  | zero => intro groups s _ h; omega
  | succ turns ih =>
    intro groups s h hn
    have hb : ∀ k, k * (2 * rb + 1) = 2 * (k * rb) + k := fun k => by ring
    unfold txLoop
    by_cases hrow : s.txRow.toNat < height
    · rw [if_pos hrow]
      have hsub : height - s.txRow.toNat = (height - s.txRow.toNat - 1) + 1 := by omega
      have hexp : (height - s.txRow.toNat) * (2 * rb + 1) =
          (height - s.txRow.toNat - 1) * (2 * rb + 1) + (2 * rb + 1) := by
        conv_lhs => rw [hsub]
        rw [Nat.add_mul, Nat.one_mul]
      by_cases hoff : s.txOff.toNat = rb
      · rw [if_pos hoff]
        refine ih (h.nextRow hh hrow hoff) ?_
        have hr : (s.txRow + 1).toNat = s.txRow.toNat + 1 := by rw [BitVec.toNat_add]; simp; omega
        have hf : accFull (txNextRow s) = accFull s := rfl
        have hz : (txNextRow s).txOff.toNat = 0 := rfl
        have hrr : height - (s.txRow.toNat + 1) = height - s.txRow.toNat - 1 := by omega
        simp only [turnsNeeded, hf, hz, txNextRow_txRow, hr, hrr] at hn ⊢
        rw [hexp, hoff] at hn
        omega
      · rw [if_neg hoff]
        have hoff' : s.txOff.toNat < rb := Nat.lt_of_le_of_ne h.off hoff
        by_cases hfull : accFull s = true
        · rw [if_pos hfull]
          rcases hfl : txFlush false s with ⟨a, t⟩
          cases a with
          | ioError =>
            refine .inr ⟨s, groups, ?_, h, hrow, h.full_ne hc hfull, ?_, by rw [hfl]⟩
            · simp [hfl]
            · simp only [accFull, Bool.or_eq_true, decide_eq_true_eq, h.accSize_eq, h.cfg, h.acc.count] at hfull
              exact hfull
          | ok =>
            have hp := h.flush hc hrow hoff hfull (by rw [hfl])
            rw [hfl] at hp
            refine ih hp ?_
            have hfe : accFull t = false := by
              have h1 := txFlush_accN s false
              have h2 := txFlush_accSize s false
              rw [hfl] at h1 h2
              exact accFull_empty (by rw [hp.cfg]; exact hc) h1 h2
            have h3 : t.txRow = s.txRow := by have := txFlush_txRow s false; rwa [hfl] at this
            have h4 : t.txOff = s.txOff := by have := txFlush_txOff s false; rwa [hfl] at this
            simp only [turnsNeeded, hfull, if_true] at hn
            simp only [turnsNeeded, hfe, h3, h4]
            simp only [Bool.false_eq_true, if_false]
            omega
        · rw [if_neg hfull]
          have hfull' : accFull s = false := by simpa using hfull
          obtain ⟨hp, hl1, hl2⟩ := h.take hh hrb hlen hrow hoff hfull'
          refine ih hp ?_
          have ho : (txTake rb s).txOff.toNat = s.txOff.toNat + txFragLen rb s := by
            simp only [txTake_txOff]
            rw [BitVec.toNat_add, BitVec.toNat_ofNat, Nat.mod_eq_of_lt (show txFragLen rb s < 2 ^ 16 by omega)]
            exact Nat.mod_eq_of_lt (by omega)
          simp only [turnsNeeded, hfull', Bool.false_eq_true, if_false] at hn
          simp only [turnsNeeded, ho, txTake_txRow]
          have : (if accFull (txTake rb s) = true then 1 else 0) ≤ 1 := by split <;> omega
          omega
    · rw [if_neg hrow]
      have hrow' : s.txRow.toNat = height := Nat.le_antisymm h.row (Nat.le_of_not_lt hrow)
      exact .inl ⟨s, groups, rfl, h, hrow', fun h0 => by have := h.started h0; omega⟩

/-- The bound of `txTurns` suffices from the start. -/
theorem turnsNeeded_begin (hc : s0.cfg.wf = true) :
    turnsNeeded height rb (txBegin frame s0) < txTurns height rb := by
  have : accFull (txBegin frame s0) = false := accFull_empty hc rfl rfl
  simp [turnsNeeded, txTurns, this]

end turns

/-! ## TX_FRAME whole (R166, R169 to R172) -/

/-- Everything a TX_FRAME with valid arguments leaves behind: `groups` are the descriptors of the packets sent with
M = 0 and answered `Ok`, `g` those of the last packet handed to `Send`, `m` its marker, `a` TRANSPORT's answer to it. -/
structure TxRun (s : State) (frame : Bytes) (rb : Nat) (groups : List (List LineDesc)) (g : List LineDesc) (m : Bool)
    (a : SendAnswer) (t : State) : Prop where
  txd : t.txd = s.txd ++ (sentPackets s frame rb groups ++
    [(encPkt s.cfg m (s.seqLast + BitVec.ofNat 32 (groups.length + 1)) (tsFrame s.cfg s.frameIdx) g
      (dataOf frame rb g), a)])
  done : a = .ok → m = true ∧ t.outcome = some (.ok (.packetCount (BitVec.ofNat 32 (groups.length + 1))))
  failed : a = .ioError → t.outcome = some (.err (.transportSend (BitVec.ofNat 32 groups.length)))
  /-- The descriptors take up the frame from its first byte on, and all of it where the marker is set. -/
  covers : ∃ q, q ≤ frame.length ∧ coversBytes rb 0 (groups.flatten ++ g) q ∧ (m = true → q = frame.length)
  full : m = false → GroupFull s.cfg g
  groupOk : GroupOk s.cfg g
  groupsOk : ∀ g ∈ groups, GroupOk s.cfg g
  groupsFull : ∀ g ∈ groups, GroupFull s.cfg g
  frameIdx : t.frameIdx = s.frameIdx + 1
  seqLast : t.seqLast = s.seqLast + BitVec.ofNat 32 (groups.length + 1)
  seqOvf : t.seqOvf = (s.seqOvf || decide (2 ^ 32 ≤ s.seqLast.toNat + (groups.length + 1)))
  answers : t.sendAnswers = s.sendAnswers.drop (groups.length + 1)
  answered : ∀ x ∈ s.sendAnswers.take groups.length, x = .ok
  answeredLast : ∀ x ∈ (s.sendAnswers.drop groups.length).take 1, x = a
  acc : AccInRange t
  released : t.frame = []
  txBusy : t.txBusy = s.txBusy
  rx : SameRx s t
  rest : SameRest s t

theorem coversBytes_le {rb : Nat} {ds : List LineDesc} {p q height : Nat} (h : coversBytes rb p ds q)
    (hp : p ≤ height * rb) (hd : ∀ d ∈ ds, d.line.toNat < height) : q ≤ height * rb := by
  induction ds generalizing p with
  | nil => have : p = q := h; omega
  | cons d ds ih =>
    refine ih h.2.2.2 ?_ (fun e he => hd e (List.mem_cons_of_mem _ he))
    have h1 := hd d List.mem_cons_self
    have h2 : (d.line.toNat + 1) * rb ≤ height * rb := Nat.mul_le_mul_right _ h1
    rw [Nat.add_mul] at h2
    have := h.1; have := h.2.1; omega

/-- The free values of the accumulator's registers lie in their ranges (R28 to R30; log entry 9). -/
theorem txForget_acc {s : State} (hc : s.cfg.wf = true) : AccInRange (txForget s) := by
  have hwf := (cfg_wf_iff s.cfg).1 hc
  have h1 := Nat.mod_lt (Config.freeAccN s.txFree) (Nat.succ_pos s.cfg.maxLines)
  have h2 := Nat.mod_lt (Config.freeAccSize s.txFree) (Nat.succ_pos (s.cfg.mtuBudget - hdrBase))
  exact {
    count := Nat.le_of_lt_succ h1
    sizeMin := Nat.le_add_right _ _
    sizeMax := by
      simp only [txForget, hdrBase, Nat.succ_eq_add_one] at h2 ⊢
      omega
    entries := by simp [txForget] }

section run
variable {s0 s : State} {frame : Bytes} {height rb : Nat} {groups : List (List LineDesc)}

/-- The last flush of a TX_FRAME, at any point of its loop, and the end of the command. -/
theorem TxProgress.run (h : TxProgress s0 frame height rb groups s) (hc : s0.cfg.wf = true) (hne : s.accLh ≠ []) (m : Bool)
    (hlen : frame.length = height * rb)
    (hm : (txFlush m s).1 = .ok → m = true) (hend : m = true → s.txRow.toNat = height)
    (hfull : m = false → GroupFull s0.cfg s.accLh) :
    TxRun s0 frame rb groups s.accLh m (txFlush m s).1
      (deliver (match (txFlush m s).1 with
        | .ok => .ok (.packetCount (txFlush m s).2.txSent)
        | .ioError => .err (.transportSend (txFlush m s).2.txSent)) (txEnd (txFlush m s).2)) := by
  have hone : ∀ n : Nat, BitVec.ofNat 32 n + 1 = BitVec.ofNat 32 (n + 1) := fun n => by
    apply BitVec.eq_of_toNat_eq; simp
  constructor
  case txd => simp only [deliver_txd, txEnd_txd, txFlush_txd, h.txd, h.packet, List.append_assoc]
  case done =>
    intro ha
    refine ⟨hm ha, ?_⟩
    simp only [deliver_outcome, ha, txFlush_txSent, if_true, h.sent, hone]
  case failed =>
    intro ha
    simp only [deliver_outcome, ha, txFlush_txSent, h.sent, reduceCtorEq, if_false]
  case covers =>
    refine ⟨_, ?_, h.covers, fun hm => ?_⟩
    · rw [hlen]
      rcases Nat.lt_or_ge s.txRow.toNat height with hr | hr
      · calc s.txRow.toNat * rb + s.txOff.toNat ≤ s.txRow.toNat * rb + rb := by have := h.off; omega
          _ = (s.txRow.toNat + 1) * rb := by rw [Nat.add_mul, Nat.one_mul]
          _ ≤ height * rb := Nat.mul_le_mul_right _ hr
      · have hr' : s.txRow.toNat = height := Nat.le_antisymm h.row hr
        rw [h.atEnd hr', hr']; omega
    · rw [hend hm, h.atEnd (hend hm), hlen, Nat.add_zero]
  case full => exact hfull
  case groupOk => exact h.group_ok hne
  case groupsOk => exact h.groupsOk
  case groupsFull => exact h.groupsFull
  case frameIdx => simp [h.frameIdx]
  case seqLast => simp only [deliver_seqLast, txEnd_seqLast, txFlush_seqLast, h.seqLast, BitVec.add_assoc, hone]
  case seqOvf =>
    have h1 : s.seqLast.toNat = (s0.seqLast.toNat + groups.length) % 2 ^ 32 := by
      rw [h.seqLast]; simp
    have h2 := s0.seqLast.isLt
    have h3 : (s.seqLast == 0xFFFFFFFF) = decide (s.seqLast.toNat = 2 ^ 32 - 1) := by
      rw [Bool.eq_iff_iff, beq_iff_eq, decide_eq_true_eq]
      constructor
      · intro hx; rw [hx]; rfl
      · intro hx; exact BitVec.eq_of_toNat_eq hx
    simp only [deliver_seqOvf, txEnd_seqOvf, txFlush_seqOvf, seqOvfAfter, h.seqOvf, h3, Bool.or_assoc]
    congr 1
    rw [← Bool.decide_or]
    congr 1
    apply propext
    omega
  case answers => simp [txFlush, h.answers]
  case answered => exact h.answered
  case answeredLast =>
    intro x hx
    rw [← h.answers] at hx
    exact send_answer _ (nextSeq s).2 x hx
  case acc =>
    have r := txForget_acc (s := (txFlush m s).2) (by rw [txFlush_cfg, h.cfg]; exact hc)
    exact ⟨r.count, r.sizeMin, r.sizeMax, r.entries⟩
  case released => simp
  case txBusy => simp [h.txBusy]
  case rx =>
    constructor <;> simp [h.rx.1, h.rx.2, h.rx.3, h.rx.4, h.rx.5, h.rx.6, h.rx.7, h.rx.8, h.rx.9, h.rx.10, h.rx.11]
  case rest => constructor <;> simp [h.rest.1, h.rest.2, h.rest.3]

end run

theorem txArgsOk_iff (frame : Bytes) (height width bpp : Nat) :
    txArgsOk frame height width bpp = true ↔ ValidFrame frame height width bpp := by
  simp only [txArgsOk, Bool.and_eq_true, decide_eq_true_eq]
  constructor
  · rintro ⟨⟨⟨⟨⟨h1, h2⟩, h3⟩, h4⟩, h5⟩, h6⟩; exact ⟨h1, h2, h3, h4, h5, h6⟩
  · rintro ⟨h1, h2, h3, h4, h5, h6⟩; exact ⟨⟨⟨⟨⟨h1, h2⟩, h3⟩, h4⟩, h5⟩, h6⟩

/-- Everything TX_FRAME does with valid arguments. -/
theorem execTxFrame_run {s : State} {frame : Bytes} {height width bpp : Nat} (hc : s.cfg.wf = true)
    (hv : ValidFrame frame height width bpp) : ∃ t groups g m a,
      execTxFrame frame height width bpp s = .next t ∧ TxRun s frame (width * bpp) groups g m a t := by
  have hrb : 1 ≤ width * bpp := Nat.mul_pos hv.widthMin hv.bppMin
  have hbegin := TxProgress.begin (frame := frame) hc hv.heightMin hrb
  rcases txLoop_spec hc hv.heightMax hv.rowMax hv.size _ hbegin (turnsNeeded_begin hc) with
    ⟨t, groups, hl, hp, hrow, hne⟩ | ⟨t, groups, hl, hp, hrow, hne, hfull, ha⟩
  · have hr := hp.run hc hne true hv.size (fun _ => rfl) (fun _ => hrow) (fun h => Bool.noConfusion h)
    refine ⟨_, groups, t.accLh, true, _, ?_, hr⟩
    rw [execTxFrame, guarded_of_wf hc, if_pos ((txArgsOk_iff _ _ _ _).2 hv), hl]
    rcases hf : txFlush true t with ⟨a, u⟩
    cases a <;> simp [finish, raise, hf]
  · have hr := hp.run hc hne false hv.size (fun h => by rw [ha] at h; cases h) (fun h => Bool.noConfusion h)
      (fun _ => hfull)
    refine ⟨_, groups, t.accLh, false, _, ?_, hr⟩
    rw [execTxFrame, guarded_of_wf hc, if_pos ((txArgsOk_iff _ _ _ _).2 hv), hl, ha]
    rfl

end Sys2Proof.Machine
end

