-- ==== Sys2Proof/Laws/PerInstr.lean ====
section
/-! SUPPORT. Per instruction: the encoder gives each instruction the command code, or the number of bytes, of its row of
spec/opcode_table.json, and the engine of its code is its own. -/

namespace Sys2Proof.Laws

/-- What a row of the opcode table fixes: the command code (R110, R111), or the number of bytes of a wire-format element
(R91, R95, R96). -/
inductive RowForm where
  | code (c : BitVec 4)
  | bytes (n : Nat)
  deriving DecidableEq, Repr

/-- The row of each instruction, as the table gives it. -/
def rowForm : Instr → RowForm
  | .txInit _ _ => .code 0b0001
  | .encHdr _ _ _ _ => .code 0b0010
  | .decHdr _ => .code 0b0011
  | .nextSeq => .code 0b0100
  | .tsFrame _ => .code 0b0101
  | .txFrame _ _ _ _ => .code 0b0110
  | .txFlush _ => .code 0b0111
  | .rxFrame _ => .code 0b1000
  | .rxDgram _ => .code 0b1001
  | .rxExpire => .code 0b1010
  | .rxIoerr => .code 0b1011
  | .rxInit => .code 0b1100
  | .reserved0 => .code 0b0000
  | .reservedD => .code 0b1101
  | .reservedE => .code 0b1110
  | .reservedF => .code 0b1111
  | .pktTx _ _ => .bytes 4
  | .pktRx _ _ _ _ _ _ => .bytes 4
  | .payloadExt _ => .bytes 2
  | .lineDesc _ _ _ => .bytes 6

/-- What the encoder gives. -/
def formOf : Encoded → RowForm
  | .cmd c _ => .code c
  | .wire b => .bytes b.length

/-- The engine on whose port HOST may issue the encoded instruction, where there is one. -/
def portOf : Encoded → Option Engine
  | .cmd c _ => Machine.commandEngine c
  | .wire _ => none

/-- The encoding has the form of the instruction's row, and a command's port is the instruction's own engine (R110). -/
def EncodedAsItsRow.Statement (i : Instr) : Prop :=
  ∀ c : Cfg, formOf (encode c i) = rowForm i ∧
    ∀ p, portOf (encode c i) = some p → Machine.engineOf i = some p

theorem EncodedAsItsRow.txInit (a b : Word) : EncodedAsItsRow.Statement (.txInit a b) :=
  fun _ => ⟨rfl, fun _ h => h⟩
theorem EncodedAsItsRow.encHdr (m : Bool) (q t : Word) (l : List LineDesc) :
    EncodedAsItsRow.Statement (.encHdr m q t l) := fun _ => ⟨rfl, fun _ h => h⟩
theorem EncodedAsItsRow.decHdr (b : Bytes) : EncodedAsItsRow.Statement (.decHdr b) := fun _ => ⟨rfl, fun _ h => h⟩
theorem EncodedAsItsRow.nextSeq : EncodedAsItsRow.Statement .nextSeq := fun _ => ⟨rfl, fun _ h => by cases h⟩
theorem EncodedAsItsRow.tsFrame (k : Word) : EncodedAsItsRow.Statement (.tsFrame k) :=
  fun _ => ⟨rfl, fun _ h => by cases h⟩
theorem EncodedAsItsRow.txFrame (f : Bytes) (h w p : Nat) : EncodedAsItsRow.Statement (.txFrame f h w p) :=
  fun _ => ⟨rfl, fun _ h => h⟩
theorem EncodedAsItsRow.txFlush (m : Bool) : EncodedAsItsRow.Statement (.txFlush m) :=
  fun _ => ⟨rfl, fun _ h => by cases h⟩
theorem EncodedAsItsRow.rxFrame (t : Nat) : EncodedAsItsRow.Statement (.rxFrame t) := fun _ => ⟨rfl, fun _ h => h⟩
theorem EncodedAsItsRow.rxDgram (b : Bytes) : EncodedAsItsRow.Statement (.rxDgram b) := fun _ => ⟨rfl, fun _ h => h⟩
theorem EncodedAsItsRow.rxExpire : EncodedAsItsRow.Statement .rxExpire := fun _ => ⟨rfl, fun _ h => by cases h⟩
theorem EncodedAsItsRow.rxIoerr : EncodedAsItsRow.Statement .rxIoerr := fun _ => ⟨rfl, fun _ h => by cases h⟩
theorem EncodedAsItsRow.rxInit : EncodedAsItsRow.Statement .rxInit := fun _ => ⟨rfl, fun _ h => h⟩
theorem EncodedAsItsRow.reserved0 : EncodedAsItsRow.Statement .reserved0 := fun _ => ⟨rfl, fun _ h => by cases h⟩
theorem EncodedAsItsRow.reservedD : EncodedAsItsRow.Statement .reservedD := fun _ => ⟨rfl, fun _ h => by cases h⟩
theorem EncodedAsItsRow.reservedE : EncodedAsItsRow.Statement .reservedE := fun _ => ⟨rfl, fun _ h => by cases h⟩
theorem EncodedAsItsRow.reservedF : EncodedAsItsRow.Statement .reservedF := fun _ => ⟨rfl, fun _ h => by cases h⟩
theorem EncodedAsItsRow.pktTx (m : Bool) (q : Half) : EncodedAsItsRow.Statement (.pktTx m q) :=
  fun _ => ⟨rfl, fun _ h => by cases h⟩
theorem EncodedAsItsRow.pktRx (p x : Bool) (cc : BitVec 4) (m : Bool) (pt : BitVec 7) (q : Half) :
    EncodedAsItsRow.Statement (.pktRx p x cc m pt q) := fun _ => ⟨rfl, fun _ h => by cases h⟩
theorem EncodedAsItsRow.payloadExt (e : Half) : EncodedAsItsRow.Statement (.payloadExt e) :=
  fun _ => ⟨rfl, fun _ h => by cases h⟩
theorem EncodedAsItsRow.lineDesc (l n o : Half) : EncodedAsItsRow.Statement (.lineDesc l n o) :=
  fun _ => ⟨rfl, fun _ h => by cases h⟩

end Sys2Proof.Laws
end

