-- ==== Sys2Proof/Laws/Step.lean ====
section
/-! SUPPORT. What a step that answers a next state can have done, said once (`step_cases`), and the same for the loop of
RX_FRAME (`rxLoop_rel`), so that claims over all steps need not unfold `step` or `rxLoop`. -/

namespace Sys2Proof.Machine

/-- An instruction that answers a next state ran under a well-formed CFG (R52). -/
theorem exec_next_wf {i : Instr} {s t : State} (h : exec i s = .next t) : s.cfg.wf = true := by
  by_contra hc
  have hc : s.cfg.wf = false := by simpa using hc
  cases i <;> simp [exec, execTxInit, execEncHdr, execDecHdr, execNextSeq, execTsFrame, execTxFrame, execTxFlush,
    execRxFrame, execRxDgram, execRxExpire, execRxIoerr, execRxInit, execReserved0, execReservedD, execReservedE,
    execReservedF, illegalCommand, execPktTx, execPktRx, execPayloadExt, execLineDesc, guarded, hc] at h

/-- A wire-format element decodes to a row that belongs to no engine (R115). -/
theorem decode_wire_engine {c : Cfg} {bs : Bytes} {i : Instr} (h : decode c (.wire bs) = .ok i) :
    engineOf i = none := by
  match bs, h with
  | [b0, b1], h => obtain rfl := Except.ok.inj h; rfl
  | [b0, b1, b2, b3, b4, b5], h => obtain rfl := Except.ok.inj h; rfl
  | [b0, b1, b2, b3], h =>
    simp only [decode, decodeWire, decodeWord0] at h
    split at h
    · split at h <;> (obtain rfl := Except.ok.inj h; rfl)
    · cases h
  | [], h | [_], h | [_, _, _], h | [_, _, _, _, _], h | _ :: _ :: _ :: _ :: _ :: _ :: _ :: _, h => cases h

theorem runEncoded_next {e : Encoded} {s t : State} (h : runEncoded e s = .next t) :
    ∃ i, decode s.cfg e = .ok i ∧ exec i s = .next t := by
  unfold runEncoded at h
  split at h
  · exact ⟨_, ‹_›, h⟩
  · cases h

/-- Everything a step that answers a next state can have done. -/
inductive StepCase (s t : State) : Prop where
  /-- An internal operation without its caller (log entry 2). -/
  | lone (code : BitVec 4) (ops : Operands) (hl : s.loneCall = some (code, ops)) (hi : isInternalOp code = true)
      (hx : exec (decodeCmd code ops) { s with loneCall := none } = .next t)
  /-- Nothing was pending (R272). -/
  | idle (hl : s.loneCall = none) (hp : s.pending = []) (ht : t = s)
  /-- The hardware reset (R270). -/
  | reset (rest : List Request) (hl : s.loneCall = none) (hp : s.pending = .reset :: rest)
      (ht : t = hwReset { s with pending := rest })
  /-- HOST's store into ASM (R55). -/
  | store (rest : List Request) (o : Nat) (b : Bytes) (hl : s.loneCall = none)
      (hp : s.pending = .hostWriteAsm o b :: rest) (hb : o + b.length ≤ s.cfg.rxSize)
      (ht : t = { s with pending := rest, asm := memWriteBytes s.asm o b })
  /-- A wire-format element (R115). -/
  | wire (rest : List Request) (bs : Bytes) (i : Instr) (hl : s.loneCall = none) (hp : s.pending = .wire bs :: rest)
      (hd : decode s.cfg (.wire bs) = .ok i) (he : engineOf i = none) (hx : exec i { s with pending := rest } = .next t)
  /-- A code HOST may not issue on the port (R111). -/
  | illegal (rest : List Request) (port : Engine) (code : BitVec 4) (ops : Operands) (hl : s.loneCall = none)
      (hp : s.pending = .host port code ops :: rest) (hm : hostMayIssue port code = false)
      (ht : t = deliver (.err (.illegalCommand code)) { s with pending := rest })
  /-- HOST's command, run with the engine's busy bit set (R24, R37). -/
  | host (rest : List Request) (port : Engine) (code : BitVec 4) (ops : Operands) (u : State) (hl : s.loneCall = none)
      (hp : s.pending = .host port code ops :: rest) (hm : hostMayIssue port code = true)
      (hx : exec (decodeCmd code ops) (setBusy port true { s with pending := rest }) = .next u)
      (ht : t = setBusy port false u)

theorem step_cases {s t : State} (h : step s = .next t) : StepCase s t := by
  unfold step at h
  split at h
  · rename_i code ops hl
    unfold internalCall at h
    split at h
    · obtain ⟨i, hd, he⟩ := runEncoded_next h
      obtain rfl : i = decodeCmd code ops := by simpa [decode] using hd.symm
      exact .lone code ops hl ‹_› he
    · cases h
  rename_i hl
  split at h
  · rename_i hp
    exact .idle hl hp (by simpa using h.symm)
  · rename_i r rest hp
    cases r with
    | host port code ops =>
      simp only [serve, hostCommand] at h
      split at h
      · rename_i hm
        split at h
        · cases h
        · unfold endCommand at h
          split at h
          · rename_i u hu
            obtain ⟨i, hd, he⟩ := runEncoded_next hu
            obtain rfl : i = decodeCmd code ops := by simpa [decode] using hd.symm
            exact .host rest port code ops _ hl hp hm he (by simpa using h.symm)
          · cases h
          · cases h
      · rename_i hm
        unfold illegalCommand guarded at h
        split at h
        · exact .illegal rest port code ops hl hp (by simpa using hm) (by simpa [raise] using h.symm)
        · cases h
    | wire bs =>
      obtain ⟨i, hd, he⟩ := runEncoded_next h
      exact .wire rest bs i hl hp hd (decode_wire_engine hd) he
    | reset => exact .reset rest hl hp (by simpa [serve] using h.symm)
    | hostWriteAsm o b =>
      simp only [serve, hostStore] at h
      split at h
      · exact .store rest o b hl hp ‹_› (by simpa using h.symm)
      · cases h

/-- With no lone call a step takes the oldest request off and serves it. -/
theorem step_serves {s : State} {r : Request} {rest : List Request} (hl : s.loneCall = none)
    (hp : s.pending = r :: rest) : step s = serve r { s with pending := rest } := by
  cases s
  obtain rfl : _ = none := hl
  obtain rfl : _ = r :: rest := hp
  rfl

/-- The request a step serves, where none is a lone call's. -/
@[simp] theorem served_of_none {s : State} (h : s.loneCall = none) : served s = s.pending.head? := by simp [served, h]

@[simp] theorem served_of_some {s : State} {c : BitVec 4 × Operands} (h : s.loneCall = some c) : served s = none := by
  simp [served, h]

/-! ## RX_DGRAM and RX_FRAME -/

/-- RX_DGRAM touches only what the receive side owns (R20, R191). -/
theorem rxDgram_kept (b : Bytes) (s : State) : RxKept s (rxDgram b s).2 := by
  cases hd : decHdr s.cfg b with
  | error e => rw [rxDgram_error hd]; exact RxKept.rfl' _
  | ok f =>
    cases hm : f.m
    · rw [rxDgram_open hd hm]; exact rxAccepted_kept b f _
    · rw [rxDgram_marker hd hm]; exact (rxAccepted_kept b f _).trans (rxFrameBoundary_kept _)

/-- RX_FRAME is its loop over TRANSPORT's answers (R190). -/
theorem execRxFrame_eq {s : State} (hc : s.cfg.wf = true) (timeout : Nat) : execRxFrame timeout s =
    .next (deliver (rxLoop timeout s.recvAnswers s).1 (rxLoop timeout s.recvAnswers s).2) := by
  simp only [execRxFrame, guarded_of_wf hc]
  split <;> simp_all [finish, raise]

/-- What the steps of the loop keep, the loop keeps. -/
theorem rxLoop_rel (R : State → State → Prop) (htrans : ∀ s t u, R s t → R t u → R s u)
    (hrecv : ∀ t a l s, R s (recvAnswered t a l s)) (hdgram : ∀ b s, R s (rxDgram b s).2)
    (hend : ∀ s, R s (rxFrameBoundary s)) (timeout : Nat) :
    ∀ (answers : List RecvAnswer) (s : State), R s (rxLoop timeout answers s).2 := by
  intro answers
  induction answers with
  | nil => intro s; exact htrans _ _ _ (hrecv _ _ _ _) (hend _)
  | cons a l ih =>
    intro s
    cases a with
    | timeout => exact htrans _ _ _ (hrecv _ _ _ _) (hend _)
    | ioError => exact htrans _ _ _ (hrecv _ _ _ _) (hend _)
    | dgram b =>
      have k := htrans _ _ _ (hrecv timeout (.dgram b) l s) (hdgram b _)
      simp only [rxLoop]
      rcases hr : rxDgram b (recvAnswered timeout (.dgram b) l s) with ⟨v, t⟩
      rw [hr] at k
      have ki := htrans _ _ _ k (ih t)
      cases v <;> first | exact ki | exact k

end Sys2Proof.Machine
end

