-- ==== Sys2Proof/Tests/Slice0.lean ====
section
/-! SUPPORT. The model's own tests. Expected values are the spec's worked vectors (95_test_vectors.md, named by their
ids) or are read off its encoding tables by hand; one step each. After them, the witnesses: for each statement with
hypotheses, a concrete state and operands that meet them together. -/

namespace Sys2Proof.Tests

open Sys2Proof.Machine

/-! ## Helpers -/

/-- n bytes counting up from a. -/
def upFrom (a n : Nat) : Bytes := (List.range n).map fun i => BitVec.ofNat 8 (a + i)

/-- The frame F24 of 95_test_vectors.md: `A0 A1 ... B7`. -/
def f24 : Bytes := upFrom 0xA0 24

/-- The state after reset under a configuration, with TRANSPORT's answers and ASM holding 24 bytes `EE`. -/
def start (c : Cfg) (sends : List SendAnswer) (recvs : List RecvAnswer) : State :=
  { State.reset with
    cfg := c, sendAnswers := sends, recvAnswers := recvs, asm := (List.range 24).map fun k => (k, 0xEE) }

/-- The default configuration of the vectors with another budget. -/
def budget (n : Nat) : Cfg := { Cfg.atReset with mtuBudget := n }

/-- The default configuration of the vectors with MAX_LINES = 4. -/
def fourLines : Cfg := { Cfg.atReset with maxLines := 4 }

/-- The default configuration of the vectors with LH_SLOT = 4. -/
def slot4 : Cfg := { Cfg.atReset with lhSlot := 4 }

/-- The answer is a next state with this property. -/
def nextIs (o : Host.Outcome State Fault Refusal) (p : State → Bool) : Bool :=
  match o with
  | .next t => p t
  | _ => false

/-- What `nextIs` says. -/
theorem nextIs_iff (o : Host.Outcome State Fault Refusal) (p : State → Bool) :
    nextIs o p = true ↔ ∃ t, o = .next t ∧ p t = true := by
  cases o <;> simp [nextIs]

/-- The answer is this refusal. -/
def refusedWith (o : Host.Outcome State Fault Refusal) (r : Refusal) : Bool :=
  match o with
  | .refused q => decide (q = r)
  | _ => false

/-- The answer is this fault. -/
def faultsWith (o : Host.Outcome State Fault Refusal) (f : Fault) : Bool :=
  match o with
  | .fault g => decide (g = f)
  | _ => false

/-- ASM's bytes in order of their offsets. -/
def asmBytes (s : State) : Bytes := s.asm.map Prod.snd

/-- The receive state as 95_test_vectors.md lists it: state, valid, highest number, gap, size of `rx_written`. -/
def rxRow (s : State) : RxState × Bool × Nat × Bool × Nat :=
  (s.rxState, s.rxSeqValid, s.rxExtHi.toNat, s.rxGap, s.rxWritten.length)

/-- The fields of a decoded header that 2.2 of 95_test_vectors.md lists: M, number, N, descriptors, DS. -/
def hdrRow (r : Except OpError HdrFields) : Option (Bool × Nat × Nat × List LineDesc × Nat) :=
  r.toOption.map fun f => (f.m, f.xseq.toNat, f.n, f.lines, f.ds)

/-- A decoded header is this error. -/
def errIs (r : Except OpError HdrFields) (e : OpError) : Bool :=
  match r with
  | .error e' => decide (e' = e)
  | .ok _ => false

/-- Packet E1 of 95_test_vectors.md: the 26 header bytes of vector T1. -/
def hdrE1 : Bytes :=
  [0x80, 0xE0, 0x00, 0x01, 0x00, 0x00, 0x00, 0x00, 0x12, 0x34, 0x56, 0x78, 0x00, 0x00]
    ++ [0x00, 0x0C, 0x00, 0x00, 0x00, 0x00] ++ [0x00, 0x0C, 0x00, 0x01, 0x00, 0x00]

/-- B50: the 50-byte packet of vector T1. -/
def b50 : Bytes := hdrE1 ++ f24

/-- P1 of 2.5 (packet 1 of T2). -/
def p1 : Bytes :=
  [0x80, 0x60, 0x00, 0x01, 0x00, 0x00, 0x00, 0x00, 0x12, 0x34, 0x56, 0x78, 0x00, 0x00]
    ++ [0x00, 0x0C, 0x00, 0x00, 0x00, 0x00] ++ upFrom 0xA0 12

/-- P2 of 2.5 (packet 2 of T2). -/
def p2 : Bytes :=
  [0x80, 0xE0, 0x00, 0x02, 0x00, 0x00, 0x00, 0x00, 0x12, 0x34, 0x56, 0x78, 0x00, 0x00]
    ++ [0x00, 0x0C, 0x00, 0x01, 0x00, 0x00] ++ upFrom 0xAC 12

/-- P3 of 2.5. -/
def p3 : Bytes :=
  [0x80, 0x60, 0x00, 0x03, 0x00, 0x00, 0x0E, 0x10, 0x12, 0x34, 0x56, 0x78, 0x00, 0x00]
    ++ [0x00, 0x0C, 0x00, 0x00, 0x00, 0x00] ++ upFrom 0xC0 12

/-- P4 of 2.5. -/
def p4 : Bytes :=
  [0x80, 0xE0, 0x00, 0x04, 0x00, 0x00, 0x0E, 0x10, 0x12, 0x34, 0x56, 0x78, 0x00, 0x00]
    ++ [0x00, 0x0C, 0x00, 0x01, 0x00, 0x00] ++ upFrom 0xCC 12

/-! ## Well-formedness -/

/-- A PKT_RX whose word is a PKT_TX (R115) is ill-formed; one bit apart it is well formed. -/
theorem test_wf_pktRx :
    (Instr.pktRx false false 0 true 96 1).wellFormed Cfg.atReset = false ∧
    (Instr.pktRx true false 0 true 96 1).wellFormed Cfg.atReset = true ∧
    (Instr.pktRx false true 0 true 96 1).wellFormed Cfg.atReset = true ∧
    (Instr.pktRx false false 1 true 96 1).wellFormed Cfg.atReset = true ∧
    (Instr.pktRx false false 0 true 97 1).wellFormed Cfg.atReset = true := by decide

/-- Each condition of R41 to R52 refuses a configuration that breaks it alone. -/
theorem test_wf_cfg :
    ({ Cfg.atReset with sampleRate := 48000 } : Cfg).wf = false ∧
    ({ Cfg.atReset with frameRate := 0 } : Cfg).wf = false ∧
    ({ Cfg.atReset with frameRate := 90001 } : Cfg).wf = false ∧
    (budget 4294967296).wf = false ∧ (budget 20).wf = false ∧
    ({ Cfg.atReset with maxLines := 0 } : Cfg).wf = false ∧
    ({ Cfg.atReset with maxLines := 65536 } : Cfg).wf = false ∧
    ({ Cfg.atReset with lhSlot := 3 } : Cfg).wf = false ∧
    ({ Cfg.atReset with rxHeight := 0 } : Cfg).wf = false ∧
    ({ Cfg.atReset with rxHeight := 65537 } : Cfg).wf = false ∧
    ({ Cfg.atReset with rxWidth := 0 } : Cfg).wf = false ∧
    ({ Cfg.atReset with rxBpp := 0 } : Cfg).wf = false ∧
    ({ Cfg.atReset with rxWidth := 65536, rxBpp := 1 } : Cfg).wf = false := by decide

/-- The edges of R45 to R52 are well formed: the smallest budget (T5), the largest row (T8). -/
theorem test_wf_cfg_edges :
    Cfg.atReset.wf = true ∧ (budget 21).wf = true ∧ (budget 4294967295).wf = true ∧
    ({ Cfg.atReset with frameRate := 90000 } : Cfg).wf = true ∧
    ({ Cfg.atReset with maxLines := 65535, rxHeight := 65536, rxWidth := 65535, rxBpp := 1 } : Cfg).wf = true := by
  decide

/-! ## Decoding, words written out from 30_encoding.md R91, R95, R96, R110 -/

/-- PKT_TX: V = 10, P X CC = 0, M = 1, PT = 1100000, SEQ = 1 (R92). -/
theorem test_decode_pktTx :
    (decode Cfg.atReset (.wire [0b10000000, 0b11100000, 0x00, 0x01])).toOption = some (.pktTx true 1) := by decide

/-- PKT_RX: V = 10, P = 1, X = 0, CC = 0101, M = 0, PT = 1111111, SEQ = 0x8001 (R91). -/
theorem test_decode_pktRx :
    (decode Cfg.atReset (.wire [0b10100101, 0b01111111, 0x80, 0x01])).toOption
      = some (.pktRx true false 5 false 127 0x8001) := by decide

/-- A word of another version is no row and is rejected by name. -/
theorem test_decode_version :
    decodeTableWord 32 0x40E00001 = none ∧
    refusedWith (runEncoded (.wire [0x40, 0xE0, 0x00, 0x01]) State.reset) (.undecodable (.versionBits 1)) = true := by
  decide

/-- PAYLOAD_EXT, most significant byte first (R95). -/
theorem test_decode_payloadExt :
    (decode Cfg.atReset (.wire [0x01, 0x02])).toOption = some (.payloadExt 0x0102) := by decide

/-- LINE_DESC: LEN, LINE, OFF in this order (R96), descriptor (12, 1, 0x0304). -/
theorem test_decode_lineDesc :
    (decode Cfg.atReset (.wire [0x00, 0x0C, 0x00, 0x01, 0x03, 0x04])).toOption = some (.lineDesc 12 1 0x0304) := by
  decide

/-- Byte strings of any other number of bytes are rejected by name. -/
theorem test_decode_noElement :
    refusedWith (runEncoded (.wire []) State.reset) (.undecodable (.noSuchElement 0)) = true ∧
    refusedWith (runEncoded (.wire [1, 2, 3]) State.reset) (.undecodable (.noSuchElement 3)) = true := by decide

/-- The codes of R110 with the operands of R112. -/
theorem test_decode_commands :
    decodeCmd 0b0001 { seqInit := 7, frameInit := 9 } = .txInit 7 9 ∧
    decodeCmd 0b0010 { m := true, xseq := 1, ts := 2, lines := [⟨3, 4, 5⟩] } = .encHdr true 1 2 [⟨3, 4, 5⟩] ∧
    decodeCmd 0b0011 { b := [1] } = .decHdr [1] ∧ decodeCmd 0b0100 {} = .nextSeq ∧
    decodeCmd 0b0101 { k := 6 } = .tsFrame 6 ∧
    decodeCmd 0b0110 { frame := [1, 2], height := 1, width := 2, bpp := 1 } = .txFrame [1, 2] 1 2 1 ∧
    decodeCmd 0b0111 { m := true } = .txFlush true ∧ decodeCmd 0b1000 { timeout := 5 } = .rxFrame 5 ∧
    decodeCmd 0b1001 { b := [2] } = .rxDgram [2] ∧ decodeCmd 0b1010 {} = .rxExpire ∧
    decodeCmd 0b1011 {} = .rxIoerr ∧ decodeCmd 0b1100 {} = .rxInit ∧
    decodeCmd 0b0000 {} = .reserved0 ∧ decodeCmd 0b1101 {} = .reservedD ∧
    decodeCmd 0b1110 {} = .reservedE ∧ decodeCmd 0b1111 {} = .reservedF := by decide

/-- The words of spec/opcode_table.json run as the first instruction after reset: a host command on its engine's port, an
internal operation as a lone call. -/
theorem test_withFetchWord :
    nextIs (step (State.reset.withFetchWord 4 0x6)) (fun t => decide (t.outcome = some (.err .argFrame))) = true ∧
    nextIs (step (State.reset.withFetchWord 4 0x4)) (fun t => decide (t.outcome = some (.ok (.xseq 1)))) = true ∧
    nextIs (step (State.reset.withFetchWord 4 0xD))
      (fun t => decide (t.outcome = some (.err (.illegalCommand 0xD)))) = true ∧
    nextIs (step (State.reset.withFetchWord 32 0x80E00001))
      (fun t => decide (t.outcome = some (.ok (.bytes [0x80, 0xE0, 0x00, 0x01])))) = true := by decide

/-! ## WireFormat -/

/-- E1 and E6. -/
theorem test_encHdr :
    nextIs (exec (.encHdr true 1 0 [⟨12, 0, 0⟩, ⟨12, 1, 0⟩]) State.reset)
      (fun t => decide (t.outcome = some (.ok (.bytes hdrE1)))) = true ∧
    (encHdr { Cfg.atReset with payloadType := 127 } true 0xFFFFFFFF 0xFFFFFFFF [⟨0xFFFF, 0xFFFF, 0xFFFF⟩]).toOption
      = some ([0x80, 0xFF, 0xFF, 0xFF, 0xFF, 0xFF, 0xFF, 0xFF, 0x12, 0x34, 0x56, 0x78]
          ++ List.replicate 8 0xFF) := by decide

/-- E3 (LH_SLOT = 4: two pad bytes behind each value, none behind EXT) and E5 (too many descriptors). -/
theorem test_encHdr_slots :
    nextIs (exec (.encHdr false 0x00010000 3600 [⟨5, 0x0102, 0x0304⟩]) (start slot4 [] []))
      (fun t => decide (t.outcome = some (.ok (.bytes
        ([0x80, 0x60, 0x00, 0x00, 0x00, 0x00, 0x0E, 0x10, 0x12, 0x34, 0x56, 0x78, 0x00, 0x01]
          ++ [0x00, 0x05, 0x00, 0x00, 0x01, 0x02, 0x00, 0x00, 0x03, 0x04, 0x00, 0x00]))))) = true ∧
    nextIs (exec (.encHdr false 0 0 [⟨1, 0, 0⟩, ⟨1, 0, 1⟩]) (start { Cfg.atReset with maxLines := 1 } [] []))
      (fun t => decide (t.outcome = some (.err (.argLines 2)))) = true := by decide

/-- D3, D12, D13, D14 and D18: datagrams that decode. -/
theorem test_decHdr :
    hdrRow (decHdr Cfg.atReset (b50.take 14)) = some (true, 1, 0, [], 14) ∧
    hdrRow (decHdr Cfg.atReset b50) = some (true, 1, 2, [⟨12, 0, 0⟩, ⟨12, 1, 0⟩], 26) ∧
    hdrRow (decHdr Cfg.atReset ([0xBF, 0x7F] ++ b50.drop 2)) = some (false, 1, 2, [⟨12, 0, 0⟩, ⟨12, 1, 0⟩], 26) ∧
    hdrRow (decHdr Cfg.atReset (b50.take 14 ++ [0, 0, 0, 5, 0, 7, 0, 0, 0, 6, 0, 8]))
      = some (true, 1, 2, [⟨0, 5, 7⟩, ⟨0, 6, 8⟩], 26) ∧
    hdrRow (decHdr slot4 ([0x80, 0x60, 0x00, 0x07, 0x00, 0x00, 0x00, 0x00, 0x12, 0x34, 0x56, 0x78, 0x00, 0x00]
      ++ [0x00, 0x03, 0xAA, 0xBB, 0x00, 0x01, 0xCC, 0x00, 0x00, 0x02, 0x00, 0xDD, 0x78, 0x79, 0x7A]))
      = some (false, 7, 1, [⟨3, 1, 2⟩], 26) :=
  ⟨by decide, by decide, by decide, by decide, by decide⟩

/-- D1, D4, D5, D6, D7, D9, D10 and D11: datagrams that do not. -/
theorem test_decHdr_errors :
    errIs (decHdr Cfg.atReset []) (.truncated 0) = true ∧
    errIs (decHdr Cfg.atReset ([0x40] ++ b50.drop 1)) (.versionMismatch 1) = true ∧
    errIs (decHdr Cfg.atReset ([0x00] ++ (b50.take 13).drop 1)) (.truncated 13) = true ∧
    errIs (decHdr Cfg.atReset ([0xC0] ++ (b50.take 49).drop 1)) (.versionMismatch 3) = true ∧
    errIs (decHdr Cfg.atReset (b50.take 15)) (.truncated 15) = true ∧
    errIs (decHdr Cfg.atReset (b50.take 20)) (.truncated 20) = true ∧
    errIs (decHdr Cfg.atReset (b50.take 49)) (.truncated 49) = true ∧
    errIs (decHdr Cfg.atReset (b50 ++ [0])) (.lineCountExceeded 3) = true := by decide

/-- PKT_RX reports the fields of D13's word 0 (bytes BF 7F 00 01). -/
theorem test_pktRx :
    nextIs (exec (.pktRx true true 15 false 127 1) State.reset)
      (fun t => decide (t.outcome = some (.ok (.word0Fields 2 true true 15 false 127 1)))) = true := by decide

/-- LINE_DESC with LH_SLOT = 4: the descriptor bytes of E3; PAYLOAD_EXT: its EXT bytes. -/
theorem test_wire_rows :
    nextIs (exec (.lineDesc 5 0x0102 0x0304) (start slot4 [] []))
      (fun t => decide (t.outcome = some (.ok (.descriptor ⟨5, 0x0102, 0x0304⟩
        [0x00, 0x05, 0x00, 0x00, 0x01, 0x02, 0x00, 0x00, 0x03, 0x04, 0x00, 0x00])))) = true ∧
    nextIs (exec (.payloadExt 0x0001) (start slot4 [] []))
      (fun t => decide (t.outcome = some (.ok (.extField 1 [0x00, 0x01])))) = true := by decide

/-! ## SessionClock and session control -/

/-- K2b: the wrap of `seq_last`, and the sticky flag after it. -/
theorem test_nextSeq :
    nextIs (exec .nextSeq { State.reset with seqLast := 0xFFFFFFFE })
      (fun t => decide (t.outcome = some (.ok (.xseq 0xFFFFFFFF)) ∧ t.seqOvf = false)) = true ∧
    nextIs (exec .nextSeq { State.reset with seqLast := 0xFFFFFFFF })
      (fun t => decide (t.outcome = some (.ok (.xseq 0)) ∧ t.seqLast = 0 ∧ t.seqOvf = true)) = true ∧
    nextIs (exec .nextSeq { State.reset with seqOvf := true })
      (fun t => decide (t.outcome = some (.ok (.xseq 1)) ∧ t.seqOvf = true)) = true := by decide

/-- K3: frame rates 25 and 7, with the wrap at 2^32. -/
theorem test_tsFrame :
    nextIs (exec (.tsFrame 1193047) State.reset) (fun t => decide (t.outcome = some (.ok (.ts 1904)))) = true ∧
    nextIs (exec (.tsFrame 0xFFFFFFFF) (start { Cfg.atReset with frameRate := 7 } [] []))
      (fun t => decide (t.outcome = some (.ok (.ts 4294954439)))) = true := by decide

/-- I1. -/
theorem test_txInit :
    nextIs (exec (.txInit 0x0000FFFE 0) { State.reset with seqLast := 7, frameIdx := 3, seqOvf := true })
      (fun t => decide (t.outcome = some (.ok .unit) ∧ t.seqLast = 0x0000FFFE ∧ t.frameIdx = 0
        ∧ t.seqOvf = false)) = true := by decide

/-- I3: the sequence expectation is forgotten, ASM is not touched. -/
theorem test_rxInit :
    nextIs (exec .rxInit { start Cfg.atReset [] [] with
        rxState := .assembling, rxSeqValid := true, rxExtHi := 9, rxGap := true, rxWritten := List.range 12 })
      (fun t => decide (t.outcome = some (.ok .unit) ∧ t.rxState = .idle ∧ t.rxSeqValid = false ∧ t.rxGap = false
        ∧ t.rxWritten = [] ∧ asmBytes t = List.replicate 24 0xEE)) = true := by decide

/-! ## Packetizer -/

/-- T3: a row split across two packets. -/
theorem test_txFrame :
    nextIs (exec (.txFrame f24 2 4 3) (start (budget 40) [.ok, .ok] []))
      (fun t => decide (t.outcome = some (.ok (.packetCount 2)) ∧ t.seqLast = 2 ∧ t.frameIdx = 1 ∧ t.txd =
        [(p1.take 14 ++ [0x00, 0x0C, 0x00, 0x00, 0x00, 0x00, 0x00, 0x02, 0x00, 0x01, 0x00, 0x00] ++ upFrom 0xA0 14, .ok),
         (p2.take 14 ++ [0x00, 0x0A, 0x00, 0x01, 0x00, 0x02] ++ upFrom 0xAE 10, .ok)])) = true := by decide

/-- T9: the second `Send` fails. -/
theorem test_txFrame_sendFails :
    nextIs (exec (.txFrame f24 2 4 3) (start (budget 32) [.ok, .ioError] []))
      (fun t => decide (t.outcome = some (.err (.transportSend 1)) ∧ t.seqLast = 2 ∧ t.frameIdx = 1
        ∧ t.txd = [(p1, .ok), (p2, .ioError)])) = true := by decide

/-- T1's packet, flushed from the accumulator that its trace gives (`acc_size` 50 after two fragments). -/
theorem test_txFlush :
    nextIs (exec (.txFlush true) { start Cfg.atReset [.ok] [] with
        accN := 2, accSize := 50, accLh := [⟨12, 0, 0⟩, ⟨12, 1, 0⟩], accData := f24 })
      (fun t => decide (t.outcome = some (.ok .unit) ∧ t.txd = [(b50, .ok)] ∧ t.seqLast = 1 ∧ t.accN = 0
        ∧ t.accSize = 14 ∧ t.accData = [])) = true := by decide

/-! ## Depacketizer -/

/-- X1: P1 from reset, and X3: P2 alone after number 0. -/
theorem test_rxDgram :
    nextIs (exec (.rxDgram p1) (start Cfg.atReset [] []))
      (fun t => decide (t.outcome = some (.ok .accepted) ∧ rxRow t = (.assembling, true, 1, false, 12)
        ∧ t.diag = [] ∧ asmBytes t = upFrom 0xA0 12 ++ List.replicate 12 0xEE)) = true ∧
    nextIs (exec (.rxDgram p2) { start Cfg.atReset [] [] with rxSeqValid := true })
      (fun t => decide (t.outcome = some (.ok (.frameDone true)) ∧ rxRow t = (.idle, true, 2, false, 0)
        ∧ t.diag = [.seqGap 1 2] ∧ asmBytes t = List.replicate 12 0xEE ++ upFrom 0xAC 12)) = true := by decide

/-- X5 (two fragments outside the frame) and X7 (an overlap: the later fragment wins). -/
theorem test_rxDgram_anomalies :
    nextIs (exec (.rxDgram ([0x80, 0xE0, 0x00, 0x05, 0x00, 0x00, 0x00, 0x00, 0x12, 0x34, 0x56, 0x78, 0x00, 0x00]
        ++ [0x00, 0x04, 0x00, 0x02, 0x00, 0x00] ++ [0x00, 0x04, 0x00, 0x01, 0x00, 0x0A]
        ++ [0x00, 0x04, 0x00, 0x01, 0x00, 0x08] ++ upFrom 0x61 12)) (start fourLines [] []))
      (fun t => decide (t.outcome = some (.ok (.frameDone true)) ∧ rxRow t = (.idle, true, 5, false, 0)
        ∧ t.diag = [.fragOutOfFrame 0 ⟨4, 2, 0⟩, .fragOutOfFrame 1 ⟨4, 1, 10⟩]
        ∧ asmBytes t = List.replicate 20 0xEE ++ [0x69, 0x6A, 0x6B, 0x6C])) = true ∧
    nextIs (exec (.rxDgram (hdrE1 ++ [0x00, 0x02, 0x00, 0x00, 0x00, 0x0A] ++ f24 ++ [0x59, 0x5A]))
        (start fourLines [] []))
      (fun t => decide (t.outcome = some (.ok (.frameDone false)) ∧ t.diag = [.rangeOverlap 2 ⟨2, 0, 10⟩]
        ∧ asmBytes t = upFrom 0xA0 10 ++ [0x59, 0x5A] ++ upFrom 0xAC 12)) = true := by decide

/-- P4: the first RX_FRAME (a fragment, two datagrams dropped, a timeout), and one that completes with a gap. -/
theorem test_rxFrame :
    nextIs (exec (.rxFrame 7) (start (budget 32) []
        [.dgram p1, .dgram [0x80, 0x60, 0x00], .dgram ([0x40] ++ p2.drop 1), .timeout]))
      (fun t => decide (t.outcome = some (.err .timeout) ∧ rxRow t = (.idle, true, 1, false, 0) ∧ t.recvAnswers = []
        ∧ t.recvLog.map Prod.fst = [7, 7, 7, 7] ∧ asmBytes t = upFrom 0xA0 12 ++ List.replicate 12 0xEE)) = true ∧
    nextIs (exec (.rxFrame 7) { start (budget 32) [] [.dgram p3, .dgram p4, .ioError] with
        rxSeqValid := true, rxExtHi := 1 })
      (fun t => decide (t.outcome = some (.ok (.completeFrame true)) ∧ rxRow t = (.idle, true, 4, false, 0)
        ∧ t.diag = [.seqGap 2 3] ∧ t.recvAnswers = [.ioError] ∧ asmBytes t = upFrom 0xC0 24)) = true := by decide

/-- X12: RX_EXPIRE after P1. -/
theorem test_rxExpire :
    nextIs (exec .rxExpire { start Cfg.atReset [] [] with
        rxState := .assembling, rxSeqValid := true, rxExtHi := 1, rxWritten := List.range 12 })
      (fun t => decide (t.outcome = some (.err .timeout) ∧ rxRow t = (.idle, true, 1, false, 0))) = true := by decide

/-- R198: RX_IOERR keeps the sequence expectation and clears the gap. -/
theorem test_rxIoerr :
    nextIs (exec .rxIoerr { start Cfg.atReset [] [] with
        rxState := .assembling, rxSeqValid := true, rxExtHi := 3, rxGap := true, rxWritten := List.range 12 })
      (fun t => decide (t.outcome = some (.err .transportRecv) ∧ rxRow t = (.idle, true, 3, false, 0))) = true := by
  decide

/-! ## The command port -/

/-- I4 to I6. -/
theorem test_port_illegal :
    nextIs (step { State.reset with pending := [.host .rxe 0xD {}] })
      (fun t => decide (t.outcome = some (.err (.illegalCommand 0xD)))) = true ∧
    nextIs (step { State.reset with pending := [.host .txe 0x4 {}] })
      (fun t => decide (t.outcome = some (.err (.illegalCommand 0x4)) ∧ t.seqLast = 0)) = true ∧
    nextIs (step { State.reset with pending := [.host .rxe 0x6 { frame := f24, height := 2, width := 4, bpp := 3 }] })
      (fun t => decide (t.outcome = some (.err (.illegalCommand 0x6)) ∧ t.txd = [])) = true ∧
    nextIs (step { State.reset with pending := [.host .txe 0x9 { b := p1 }] })
      (fun t => decide (t.outcome = some (.err (.illegalCommand 0x9)))) = true := by decide

/-- The last row of the table of R196, from a frame half assembled. -/
theorem test_hardware_reset :
    nextIs (step { start Cfg.atReset [] [] with
        rxState := .assembling, rxSeqValid := true, rxWritten := [0, 1], pending := [.reset] })
      (fun t => decide (t.outcome = some (.ok .unit) ∧ t.rxState = .idle ∧ t.rxSeqValid = false ∧ t.rxWritten = []
        ∧ t.asm.length = 24)) = true := by decide

/-! ## Witnesses: states and operands that meet the hypotheses of the statements -/

/-- The answer is `ok` with this property. -/
def okIs (r : Except OpError HdrFields) (p : HdrFields → Bool) : Bool :=
  match r with
  | .ok f => p f
  | .error _ => false

/-- What `okIs` says. -/
theorem okIs_iff (r : Except OpError HdrFields) (p : HdrFields → Bool) :
    okIs r p = true ↔ ∃ f, r = .ok f ∧ p f = true := by
  cases r <;> simp [okIs]

/-- A receiver in the middle of a frame: row 0 written, numbers 0 and 1 seen. -/
def midFrame : State :=
  { start Cfg.atReset [] [] with
    rxState := .assembling, rxSeqValid := true, rxExtHi := 1, rxWritten := List.range 12 }

/-- The arguments of S1 are valid (R165). -/
theorem f24_valid : ValidFrame f24 2 4 3 :=
  ⟨by decide, by decide, by decide, by decide, by decide, by decide⟩

/-- The largest frame side and row of R165 are valid (T8's legal edge has this row). -/
theorem validFrame_edges :
    ValidFrame (List.replicate 65535 0) 1 65535 1 ∧ ValidFrame (List.replicate 65536 0) 65536 1 1 :=
  ⟨⟨by decide, by decide, by decide, by decide, by decide, List.length_replicate.trans (by decide)⟩,
    ⟨by decide, by decide, by decide, by decide, by decide, List.length_replicate.trans (by decide)⟩⟩

theorem witness_DecodeOfEncodeIsTheInstruction :
    (Instr.pktRx false false 0 true 97 1).wellFormed Cfg.atReset = true ∧
    (Instr.lineDesc 0xFFFF 0 1).wellFormed slot4 = true ∧
    (Instr.txFrame f24 2 4 3).wellFormed Cfg.atReset = true := by decide

theorem witness_WireBytesHaveOneReading :
    (∃ i, decode Cfg.atReset (.wire [0x01, 0x02]) = .ok i) ∧
    (∃ i, decode Cfg.atReset (.wire [0x80, 0xE0, 0x00, 0x01]) = .ok i) ∧
    (∃ i, decode Cfg.atReset (.wire [0xBF, 0x7F, 0x00, 0x01]) = .ok i) ∧
    (∃ i, decode Cfg.atReset (.wire [0, 12, 0, 1, 0, 0]) = .ok i) :=
  ⟨⟨_, rfl⟩, ⟨_, rfl⟩, ⟨_, rfl⟩, ⟨_, rfl⟩⟩

/-- MAX_LINES = 2: two descriptors encode, three do not; with LH_SLOT = 4 each slot has a pad byte. -/
theorem witness_EncodeHeaderWritesTheLayout :
    State.reset.cfg.wf = true ∧ slot4.wf = true ∧
    ([⟨12, 0, 0⟩, ⟨12, 1, 0⟩] : List LineDesc).length ≤ State.reset.cfg.maxLines ∧
    State.reset.cfg.maxLines < ([⟨12, 0, 0⟩, ⟨12, 1, 0⟩, ⟨1, 1, 11⟩] : List LineDesc).length ∧
    2 ≤ 3 ∧ 3 < slot4.lhSlot := by decide

/-- One datagram for each clause, D2, D4, D12 (and D3, no descriptor), D11 and D10, each one byte from its neighbour's
clause where lengths decide. -/
theorem witness_DecodeHeaderOutcomeByLengths :
    Cfg.atReset.wf = true ∧ (b50.take 13).length < 14 ∧
    (14 ≤ (b50.take 14).length ∧ word0V (rd32 ([0x40] ++ b50.drop 1) 0) ≠ Cfg.atReset.rtpVersion) ∧
    (word0V (rd32 b50 0) = Cfg.atReset.rtpVersion ∧ 2 ≤ Cfg.atReset.maxLines ∧
      walkTotal Cfg.atReset b50 2 = b50.length) ∧
    walkTotal Cfg.atReset (b50.take 14) 0 = (b50.take 14).length ∧
    walkTotal Cfg.atReset (b50 ++ [0]) Cfg.atReset.maxLines < (b50 ++ [0]).length ∧
    ((∀ n, n ≤ 2 → walkTotal Cfg.atReset (b50.take 49) n ≠ (b50.take 49).length) ∧
      (b50.take 49).length < walkTotal Cfg.atReset (b50.take 49) Cfg.atReset.maxLines) :=
  ⟨by decide, by decide, by decide, by decide, by decide, by decide, by decide⟩

theorem witness_HeadersRoundTrip :
    Cfg.atReset.wf = true ∧ ([⟨12, 0, 0⟩, ⟨12, 1, 0⟩] : List LineDesc).length ≤ Cfg.atReset.maxLines ∧
    f24.length = lenSum [⟨12, 0, 0⟩, ⟨12, 1, 0⟩] := by decide

theorem witness_WireRowsReportTheirFields : State.reset.cfg.wf = true ∧ slot4.wf = true := by decide

theorem witness_NextSeqIssuesTheSuccessor :
    ({ State.reset with seqLast := 0xFFFFFFFF } : State).cfg.wf = true := by decide

theorem witness_TsFrameIsTheFrameIndexInTicks : State.reset.cfg.wf = true := by decide

theorem witness_TxInitLoadsTheCounters : State.reset.cfg.wf = true := by decide

theorem witness_RxInitForgetsTheSession : midFrame.cfg.wf = true := by decide

/-- T8: a height of 0, a size that does not fit, a row of 65536 bytes. -/
theorem witness_TxFrameRefusesInvalidArguments :
    State.reset.cfg.wf = true ∧ ¬ ValidFrame f24 0 4 3 ∧ ¬ ValidFrame f24 2 4 2 ∧
    ¬ ValidFrame (List.replicate 65536 0) 1 65536 1 :=
  ⟨by decide, fun h => absurd h.heightMin (by decide), fun h => absurd h.size (by decide),
    fun h => absurd h.rowMax (by decide)⟩

/-- The accumulator at MAX_LINES, with an answer and without. -/
theorem witness_TxFlushSendsTheAccumulator :
    let s : State := { start Cfg.atReset [.ioError] [] with
      accN := 2, accSize := 50, accLh := [⟨12, 0, 0⟩, ⟨12, 1, 0⟩], accData := f24 }
    s.cfg.wf = true ∧ s.accN ≤ s.cfg.maxLines ∧ s.sendAnswers.head? = some .ioError ∧
      ({ s with sendAnswers := [] } : State).sendAnswers = [] := by decide

theorem witness_TxFrameEndsWithExactCounts : (start (budget 21) [] []).cfg.wf = true ∧ ValidFrame f24 2 4 3 :=
  ⟨by decide, f24_valid⟩

/-- The last byte of the last row still to be taken, with room for it; an accumulator under a well-formed CFG; a run of the
loop to the end of the rows, and one that TRANSPORT cuts short. -/
theorem witness_AccumulatorIsConsistentWhileTxFrameRuns :
    let s := start (budget 40) [.ioError] []
    let u := { txBegin f24 s with txRow := 1, txOff := 11 }
    s.cfg.wf = true ∧ ValidFrame f24 2 4 3 ∧
    (AccOk u ∧ accFull u = false ∧ u.frame = f24 ∧ u.txRow.toNat < 2 ∧ u.txOff.toNat < 4 * 3 ∧ u.cfg.wf = true) ∧
    (∃ turns v, txLoop 2 (4 * 3) turns (txBegin f24 (start (budget 50) [] [])) = .rowsDone v) ∧
    (∃ turns v, txLoop 2 (4 * 3) turns (txBegin f24 s) = .sendFailed v) :=
  ⟨by decide, f24_valid, ⟨⟨by decide, by decide, by decide, by decide, by decide⟩, by decide, rfl, by decide, by decide,
    by decide⟩, ⟨5, _, rfl⟩, ⟨8, _, rfl⟩⟩

theorem witness_TxFrameSucceedsOnAWillingTransport :
    let s := start (budget 40) (List.replicate 24 .ok ++ [.ioError]) []
    s.cfg.wf = true ∧ ValidFrame f24 2 4 3 ∧ s.sendAnswers = List.replicate f24.length .ok ++ [.ioError] :=
  ⟨by decide, f24_valid, by decide⟩

theorem witness_PacketsRespectTheMtuBudget : (start (budget 21) [] []).cfg.wf = true ∧ ValidFrame f24 2 4 3 :=
  ⟨by decide, f24_valid⟩

/-- A frame of two packets: k = 0 and k = 1 are its packets. -/
theorem witness_PacketsCarryOneTimestampAndConsecutiveNumbers :
    (start (budget 40) [.ok, .ok] []).cfg.wf = true ∧ ValidFrame f24 2 4 3 ∧
    ∃ t, exec (.txFrame f24 2 4 3) (start (budget 40) [.ok, .ok] []) = .next t ∧ t.txd.length = 2 :=
  ⟨by decide, f24_valid, by
    obtain ⟨t, ht, hp⟩ := (nextIs_iff _ _).1 test_txFrame
    simp only [decide_eq_true_eq] at hp
    exact ⟨t, ht, by rw [hp.2.2.2]; rfl⟩⟩

/-- T3 ends `Ok(2)`, T9 ends in a failure after one packet. -/
theorem witness_MarkerIsOnTheLastPacketOnly :
    (budget 40).wf = true ∧ (budget 32).wf = true ∧ ValidFrame f24 2 4 3 ∧
    (∃ t n, exec (.txFrame f24 2 4 3) (start (budget 40) [.ok, .ok] []) = .next t ∧
      t.outcome = some (.ok (.packetCount n))) ∧
    (∃ t n, exec (.txFrame f24 2 4 3) (start (budget 32) [.ok, .ioError] []) = .next t ∧
      t.outcome = some (.err (.transportSend n)) ∧ (p1, SendAnswer.ok) ∈ t.txd) := by
  obtain ⟨t, ht, hp⟩ := (nextIs_iff _ _).1 test_txFrame
  obtain ⟨u, hu, hq⟩ := (nextIs_iff _ _).1 test_txFrame_sendFails
  simp only [decide_eq_true_eq] at hp hq
  exact ⟨by decide, by decide, f24_valid, ⟨t, 2, ht, hp.1⟩, ⟨u, 1, hu, hq.1, by rw [hq.2.2.2]; simp⟩⟩

theorem witness_FragmentsCoverTheFrameInOrder :
    (budget 40).wf = true ∧ ValidFrame f24 2 4 3 ∧
    ∃ t n, exec (.txFrame f24 2 4 3) (start (budget 40) [.ok, .ok] []) = .next t ∧
      t.outcome = some (.ok (.packetCount n)) :=
  ⟨by decide, f24_valid, witness_MarkerIsOnTheLastPacketOnly.2.2.2.1⟩

theorem witness_EveryPacketButTheLastIsFull : (start (budget 40) [.ok, .ok] []).cfg.wf = true ∧ ValidFrame f24 2 4 3 :=
  ⟨by decide, f24_valid⟩

/-- D2. -/
theorem witness_UndecodableDatagramChangesNothing :
    midFrame.cfg.wf = true ∧ decHdr midFrame.cfg (b50.take 13) = .error (.truncated 13) := ⟨by decide, rfl⟩

/-- P1 has M = 0 and P2 has M = 1; a receiver between frames and one within a frame. -/
theorem witness_AcceptedDatagramMovesTheStateMachine :
    midFrame.cfg.wf = true ∧ midFrame.rxState ≠ .idle ∧ State.reset.rxState = .idle ∧
    (∃ f, decHdr midFrame.cfg p1 = .ok f ∧ f.m = false ∧ f.lines.any (fragInFrame midFrame.cfg) = true) ∧
    (∃ f, decHdr midFrame.cfg p2 = .ok f ∧ f.m = true) :=
  ⟨by decide, by decide, by decide, by
    simpa [okIs_iff] using (by decide : okIs (decHdr midFrame.cfg p1)
      (fun f => !f.m && f.lines.any (fragInFrame midFrame.cfg)) = true), by
    simpa [okIs_iff] using (by decide : okIs (decHdr midFrame.cfg p2) (fun f => f.m) = true)⟩

/-- P1 as the first datagram; P2 (number 2) where 1 is the highest seen: the successor, no gap; P3 (number 3) there: a
gap, by one. -/
theorem witness_SequenceGapsAreNoticedOnce :
    State.reset.cfg.wf = true ∧ State.reset.rxSeqValid = false ∧ (∃ f, decHdr State.reset.cfg p1 = .ok f) ∧
    midFrame.rxSeqValid = true ∧
    (∃ f, decHdr midFrame.cfg p2 = .ok f ∧ ¬ midFrame.rxExtHi.toNat + 1 < f.xseq.toNat) ∧
    (∃ f, decHdr midFrame.cfg p3 = .ok f ∧ midFrame.rxExtHi.toNat + 1 < f.xseq.toNat ∧ f.m = false) :=
  ⟨by decide, by decide, ⟨_, rfl⟩, by decide, ⟨_, rfl, by decide⟩, ⟨_, rfl, by decide⟩⟩

theorem witness_AssemblyBufferHoldsTheLastCoveringByte :
    midFrame.cfg.wf = true ∧ ∃ f, decHdr midFrame.cfg p2 = .ok f := ⟨by decide, ⟨_, rfl⟩⟩

/-- P3 on this receiver: a gap, and an overlap with row 0. -/
theorem witness_DiagnosticsComeInOrder :
    midFrame.cfg.wf = true ∧ ∃ f, decHdr midFrame.cfg p3 = .ok f ∧ midFrame.rxExtHi.toNat + 1 < f.xseq.toNat ∧
      fragEvents midFrame.cfg midFrame.rxWritten [] f.lines = [.rangeOverlap 0 ⟨12, 0, 0⟩] :=
  ⟨by decide, _, rfl, by decide, by decide⟩

theorem witness_WrittenSetGainsTheCoveredOffsets :
    (∃ f, decHdr midFrame.cfg p1 = .ok f ∧ f.m = false ∧ midFrame.cfg.wf = true ∧ midFrame.cfg.rxValidate = true) ∧
    (let s := start { Cfg.atReset with rxValidate := false } [] []
      ∃ f, decHdr s.cfg p1 = .ok f ∧ f.m = false ∧ s.cfg.wf = true ∧ s.cfg.rxValidate = false) :=
  ⟨⟨_, rfl, by decide⟩, ⟨_, rfl, by decide⟩⟩

/-- P2 completes row 1 of this receiver's frame; P4 does too, after a gap. -/
theorem witness_IncompleteFlagTellsGapsAndMissingBytes :
    midFrame.cfg.wf = true ∧ setRisingFrom 0 midFrame.rxWritten = true ∧
    (∀ k ∈ midFrame.rxWritten, k < midFrame.cfg.rxSize) ∧
    (∃ f, decHdr midFrame.cfg p2 = .ok f ∧ f.m = true ∧ ¬ midFrame.rxExtHi.toNat + 1 < f.xseq.toNat) ∧
    (∃ f, decHdr midFrame.cfg p4 = .ok f ∧ f.m = true ∧ midFrame.rxExtHi.toNat + 1 < f.xseq.toNat) :=
  ⟨by decide, by decide, by decide, ⟨_, rfl, by decide⟩, ⟨_, rfl, by decide⟩⟩

theorem witness_ExpireDiscardsThePartialFrame : midFrame.cfg.wf = true := by decide

theorem witness_IoErrorDiscardsThePartialFrame : midFrame.cfg.wf = true := by decide

/-- Each answer of TRANSPORT: a timeout, none left, a failure, a datagram that ends the frame, one that does not. -/
theorem witness_ReceiveFrameFollowsTransport :
    Cfg.atReset.wf = true ∧ (start Cfg.atReset [] [.timeout]).recvAnswers = .timeout :: [] ∧
    (start Cfg.atReset [] []).recvAnswers = [] ∧ (start Cfg.atReset [] [.ioError]).recvAnswers = .ioError :: [] ∧
    (start Cfg.atReset [] [.dgram p2, .timeout]).recvAnswers = .dgram p2 :: [.timeout] ∧
    (∃ t inc, exec (.rxDgram p2) midFrame = .next t ∧ t.outcome = some (.ok (.frameDone inc))) ∧
    (∃ t, exec (.rxDgram p1) midFrame = .next t ∧ ∀ inc, t.outcome ≠ some (.ok (.frameDone inc))) := by
  refine ⟨by decide, rfl, rfl, rfl, rfl, ?_, ?_⟩
  · obtain ⟨t, ht, hp⟩ := (nextIs_iff _ _).1 (by decide : nextIs (exec (.rxDgram p2) midFrame)
      (fun t => decide (t.outcome = some (.ok (.frameDone false)))) = true)
    exact ⟨t, false, ht, of_decide_eq_true hp⟩
  · obtain ⟨t, ht, hp⟩ := (nextIs_iff _ _).1 (by decide : nextIs (exec (.rxDgram p1) midFrame)
      (fun t => decide (t.outcome = some (.ok .accepted))) = true)
    exact ⟨t, ht, fun inc h => by rw [of_decide_eq_true hp] at h; cases h⟩

theorem witness_ReceiveFrameAlwaysEnds : (start Cfg.atReset [] [.dgram p1, .dgram [], .timeout]).cfg.wf = true := by
  decide

/-- S2: the two packets of a frame, and a receiver of the same geometry between two frames. -/
theorem witness_TransmitThenReceiveReproducesTheFrame :
    let s := start (budget 40) [.ok, .ok] []
    let r := { start Cfg.atReset [] [] with rxSeqValid := true, rxExtHi := 0 }
    s.cfg.wf = true ∧ r.cfg.wf = true ∧ ValidFrame f24 2 4 3 ∧
    (∃ t new n, exec (.txFrame f24 2 4 3) s = .next t ∧ t.outcome = some (.ok (.packetCount n)) ∧
      t.txd = s.txd ++ new) ∧
    r.cfg.rtpVersion = s.cfg.rtpVersion ∧ r.cfg.lhSlot = s.cfg.lhSlot ∧ s.cfg.maxLines ≤ r.cfg.maxLines ∧
    r.cfg.rxHeight = 2 ∧ r.cfg.rxStride = 4 * 3 ∧ r.rxState = .idle ∧ r.rxGap = false ∧ r.rxWritten = [] ∧
    (r.rxSeqValid = true ∧ r.rxExtHi.toNat = s.seqLast.toNat) ∧ State.reset.rxSeqValid = false := by
  obtain ⟨t, ht, hp⟩ := (nextIs_iff _ _).1 test_txFrame
  simp only [decide_eq_true_eq] at hp
  exact ⟨by decide, by decide, f24_valid, ⟨t, t.txd, 2, ht, hp.1, rfl⟩, by decide⟩

/-- T7: the four packets of a frame, the first three in the opposite order. -/
theorem witness_ReorderedPacketsReproduceTheFrame :
    let s := start { fourLines with mtuBudget := 26 } [.ok, .ok, .ok, .ok] []
    let r := { start fourLines [] [] with rxSeqValid := true, rxExtHi := 0 }
    s.cfg.wf = true ∧ r.cfg.wf = true ∧ ValidFrame f24 2 4 3 ∧
    (∃ t front last n, exec (.txFrame f24 2 4 3) s = .next t ∧ t.outcome = some (.ok (.packetCount n)) ∧
      t.txd = s.txd ++ (front ++ [last]) ∧ (front.map Prod.fst).reverse.Perm (front.map Prod.fst) ∧
      (front.map Prod.fst).reverse ≠ front.map Prod.fst ∧
      s.seqLast.toNat + (front.map Prod.fst).reverse.length + 1 < 2 ^ 32) ∧
    r.cfg.rtpVersion = s.cfg.rtpVersion ∧ r.cfg.lhSlot = s.cfg.lhSlot ∧ s.cfg.maxLines ≤ r.cfg.maxLines ∧
    r.cfg.rxHeight = 2 ∧ r.cfg.rxStride = 4 * 3 ∧ r.rxState = .idle ∧ r.rxGap = false ∧ r.rxWritten = [] ∧
    r.rxSeqValid = true ∧ r.rxExtHi.toNat = s.seqLast.toNat := by
  intro s r
  obtain ⟨t, ht, hp⟩ := (nextIs_iff _ _).1 (by decide : nextIs (exec (.txFrame f24 2 4 3) s)
    (fun t => decide (t.outcome = some (.ok (.packetCount 4)) ∧ t.txd = t.txd.take 3 ++ [t.txd.getD 3 ([], .ok)] ∧
      ((t.txd.take 3).map Prod.fst).reverse ≠ (t.txd.take 3).map Prod.fst ∧
      0 + ((t.txd.take 3).map Prod.fst).reverse.length + 1 < 2 ^ 32)) = true)
  simp only [decide_eq_true_eq] at hp
  exact ⟨by decide, by decide, f24_valid,
    ⟨t, t.txd.take 3, t.txd.getD 3 ([], .ok), 4, ht, hp.1, hp.2.1, List.reverse_perm _, hp.2.2.1, hp.2.2.2⟩, by decide⟩

theorem witness_ReservedCodesAnswerIllegalCommand : State.reset.cfg.wf = true := by decide

/-- I5 and I6, on each port. -/
theorem witness_ForeignCodesAreRefusedAtThePort :
    let s : State := { State.reset with pending := [.host .txe 0x4 {}] }
    let s' : State := { State.reset with pending := [.host .rxe 0x6 {}] }
    s.cfg.wf = true ∧ s.loneCall = none ∧ s'.loneCall = none ∧ s.pending = .host .txe 0x4 {} :: [] ∧ ((0x4 : BitVec 4) ≠ 0x1 ∧ (0x4 : BitVec 4) ≠ 0x2 ∧
      (0x4 : BitVec 4) ≠ 0x6) ∧
    s'.pending = .host .rxe 0x6 {} :: [] ∧ ((0x6 : BitVec 4) ≠ 0x3 ∧ (0x6 : BitVec 4) ≠ 0x8 ∧
      (0x6 : BitVec 4) ≠ 0x9 ∧ (0x6 : BitVec 4) ≠ 0xC) := by decide

theorem witness_StepRunsTheCommandIssued :
    let s : State := { State.reset with pending := [.host .txe 0x1 { seqInit := 5 }, .reset] }
    s.loneCall = none ∧ s.pending = .host .txe 0x1 { seqInit := 5 } :: [.reset] ∧
    hostMayIssue .txe 0x1 = true ∧ busy .txe s = false ∧
    decode s.cfg (.cmd 0x1 { seqInit := 5 }) = .ok (.txInit 5 0) := ⟨rfl, rfl, by decide, rfl, rfl⟩

theorem witness_StepRunsInternalCallsAndWireElements :
    let s : State := { State.reset with loneCall := some (0x7, { m := true }) }
    let s' : State := { State.reset with pending := [.wire [0x01, 0x02]] }
    (s.loneCall = some (0x7, { m := true }) ∧ isInternalOp 0x7 = true ∧
      decode s.cfg (.cmd 0x7 { m := true }) = .ok (.txFlush true)) ∧
    (s'.loneCall = none ∧ s'.pending = .wire [0x01, 0x02] :: [] ∧
      decode s'.cfg (.wire [0x01, 0x02]) = .ok (.payloadExt 0x0102)) :=
  ⟨⟨rfl, by decide, rfl⟩, rfl, rfl, rfl⟩

/-- Nothing pending; bytes of no row; TX_FRAME as a lone call; a command on an engine that is busy. -/
theorem witness_StepWaitsOrStopsByName :
    (State.reset.loneCall = none ∧ State.reset.pending = []) ∧
    (let s : State := { State.reset with pending := [.wire [1, 2, 3]] }
     s.loneCall = none ∧ s.pending = .wire [1, 2, 3] :: [] ∧
        decode s.cfg (.wire [1, 2, 3]) = .error (.noSuchElement 3)) ∧
    (let s : State := { State.reset with loneCall := some (0x6, {}) }
     s.loneCall = some (0x6, {}) ∧ isInternalOp 0x6 = false) ∧
    (let s : State := { State.reset with txBusy := true, pending := [.host .txe 0x6 {}] }
     s.loneCall = none ∧ s.pending = .host .txe 0x6 {} :: [] ∧ hostMayIssue .txe 0x6 = true ∧ busy .txe s = true) :=
  ⟨⟨rfl, rfl⟩, ⟨rfl, rfl, rfl⟩, ⟨rfl, by decide⟩, rfl, rfl, by decide, rfl⟩

/-- The last bytes of ASM (RX_SIZE = 24), and one byte past them. -/
theorem witness_HostStoreFillsTheBuffer :
    let s : State := { State.reset with pending := [.hostWriteAsm 22 [1, 2]] }
    let s' : State := { State.reset with pending := [.hostWriteAsm 23 [1, 2]] }
    (s.loneCall = none ∧ s.pending = .hostWriteAsm 22 [1, 2] :: [] ∧ 22 + ([1, 2] : Bytes).length ≤ s.cfg.rxSize) ∧
    (s'.loneCall = none ∧ s'.pending = .hostWriteAsm 23 [1, 2] :: [] ∧
      s'.cfg.rxSize < 23 + ([1, 2] : Bytes).length) := by decide

theorem witness_IllFormedConfigurationIsRefused : (start (budget 20) [] []).cfg.wf = false := by decide

theorem witness_EveryInstructionEndsWithAnOutcome : State.reset.cfg.wf = true := by decide

theorem witness_HardwareResetRestoresTheRegisters :
    let s : State := { midFrame with pending := [.reset] }
    s.loneCall = none ∧ s.pending = .reset :: [] := ⟨rfl, rfl⟩

theorem witness_HardwareResetAnswersOkAndKeepsTheInputs :
    let s : State := { midFrame with pending := [.reset, .host .rxe 0x8 { timeout := 5 }] }
    s.loneCall = none ∧ s.pending = .reset :: [.host .rxe 0x8 { timeout := 5 }] := ⟨rfl, rfl⟩

/-- The invariant holds in a state within a frame, with a command pending, and the step it takes answers. -/
theorem witness_StepKeepsTheInvariant :
    let s : State := { midFrame with pending := [.host .rxe 0x9 { b := p1 }] }
    BlockInv s ∧ ∃ t, step s = .next t := by
  refine ⟨⟨by decide, by decide, by decide, by decide, by decide, by decide, by decide, by decide, by decide, by decide,
    ⟨by decide, by decide, by decide, by decide⟩, by decide⟩, _, rfl⟩

theorem witness_NothingWritesTheConfiguration : ∃ t, step { State.reset with pending := [.reset] } = .next t :=
  ⟨_, rfl⟩

/-- An operation of each engine, and one of neither. -/
theorem witness_EnginesLeaveEachOtherAlone :
    (∃ t, exec .nextSeq State.reset = .next t) ∧ engineOf .nextSeq ≠ some .rxe ∧
    (∃ t, exec .rxExpire midFrame = .next t) ∧ engineOf .rxExpire ≠ some .txe ∧
    (∃ t, exec (.payloadExt 1) State.reset = .next t) ∧ engineOf (.payloadExt 1) ≠ some .rxe ∧
    engineOf (.payloadExt 1) ≠ some .txe :=
  ⟨⟨_, rfl⟩, by decide, ⟨_, rfl⟩, by decide, ⟨_, rfl⟩, by decide, by decide⟩

/-- The same TXE beside two different receivers. -/
theorem witness_TransmitCannotObserveReceive :
    engineOf .nextSeq = some .txe ∧ midFrame.cfg = State.reset.cfg ∧ SameTx State.reset midFrame ∧
    State.reset ≠ midFrame ∧ ∃ t, exec .nextSeq State.reset = .next t :=
  ⟨rfl, rfl, by constructor <;> rfl, by decide, _, rfl⟩

/-- The same RXE beside two different transmitters. -/
theorem witness_ReceiveCannotObserveTransmit :
    let s' : State := { midFrame with seqLast := 9, accData := [1] }
    engineOf (.rxDgram p1) = some .rxe ∧ s'.cfg = midFrame.cfg ∧ SameRx midFrame s' ∧ midFrame ≠ s' ∧
    ∃ t, exec (.rxDgram p1) midFrame = .next t :=
  ⟨rfl, rfl, by constructor <;> rfl, by decide, _, rfl⟩

theorem witness_LogsOnlyGrow :
    let s : State := { midFrame with pending := [.host .rxe 0x9 { b := p1 }] }
    (∃ t, step s = .next t) ∧ served s ≠ some .reset := ⟨⟨_, rfl⟩, by decide⟩

/-- TX_INIT clears the flag. -/
theorem witness_OverflowFlagIsSticky :
    let s : State := { State.reset with seqOvf := true, pending := [.host .txe 0x1 {}] }
    s.seqOvf = true ∧ ∃ t, step s = .next t ∧ t.seqOvf = false := ⟨rfl, _, rfl, rfl⟩

/-- TX_INIT moves both counters. -/
theorem witness_CountersMoveOnlyByTheirOperations :
    let s : State := { State.reset with pending := [.host .txe 0x1 { seqInit := 1, frameInit := 2 }] }
    ∃ t, step s = .next t ∧ t.frameIdx ≠ s.frameIdx ∧ t.seqLast ≠ s.seqLast := ⟨_, rfl, by decide⟩

/-- HOST's TX_FRAME of F24, with an answer for its one packet. -/
def txFrameIssued : State :=
  { start Cfg.atReset [.ok] [] with pending := [.host .txe 0x6 { frame := f24, height := 2, width := 4, bpp := 3 }] }

theorem txFrameIssued_steps : ∃ t, step txFrameIssued = .next t := by
  obtain ⟨t, ht, -⟩ := (nextIs_iff _ _).1 (by decide : nextIs (step txFrameIssued)
    (fun t => decide (t.outcome = some (.ok (.packetCount 1)))) = true)
  exact ⟨t, ht⟩

/-- HOST's TX_FRAME in two states that differ in every working register. -/
theorem witness_WorkingRegistersAreNotReadBetweenCommands :
    let s' : State := { txFrameIssued with
      txTs := 1, txRow := 2, txOff := 3, txSent := 4, accN := 2, accSize := 40, accLh := [⟨9, 9, 9⟩], accData := [7] }
    txFrameIssued.loneCall = none ∧ withoutWorking s' = withoutWorking txFrameIssued ∧
    ∃ t, step txFrameIssued = .next t :=
  ⟨rfl, rfl, txFrameIssued_steps⟩

/-- A step that is TX_FRAME's, and one that is not. -/
theorem witness_NumbersGoOnlyToThePacketsOfTxFrame :
    (txFrameIssued.loneCall = none ∧ (∃ t, step txFrameIssued = .next t) ∧ served txFrameIssued ≠ some .reset ∧
      ∀ ops, served txFrameIssued ≠ some (.host .txe 0x1 ops)) ∧
    (let s : State := { State.reset with pending := [.host .txe 0x2 {}] }
     s.loneCall = none ∧ (∃ t, step s = .next t) ∧ served s ≠ some .reset ∧
        (∀ ops, served s ≠ some (.host .txe 0x1 ops)) ∧ ∀ ops, served s ≠ some (.host .txe 0x6 ops)) := by
  refine ⟨⟨rfl, txFrameIssued_steps, by decide, fun ops h => ?_⟩, rfl, ⟨_, rfl⟩, by decide, fun ops h => ?_,
    fun ops h => ?_⟩
  all_goals cases h

/-- P1's row replaces the fill bytes. -/
theorem witness_OnlyReceiveAndHostWriteTheBuffer :
    let s : State := { start Cfg.atReset [] [] with pending := [.host .rxe 0x9 { b := p1 }] }
    (∃ t, step s = .next t ∧ t.asm ≠ s.asm) ∧ (memRead s.asm 0).isSome = true := ⟨⟨_, rfl, by decide⟩, by decide⟩

theorem witness_HighestNumberSeenNeverFalls :
    let s : State := { midFrame with pending := [.host .rxe 0x9 { b := p2 }] }
    (∃ t, step s = .next t) ∧ s.rxSeqValid = true ∧ served s ≠ some .reset ∧
    ∀ ops, served s ≠ some (.host .rxe 0xC ops) :=
  ⟨⟨_, rfl⟩, rfl, by decide, fun ops h => by cases h⟩

end Sys2Proof.Tests
end

section
/-! SUPPORT. Every instruction ends with an outcome (00_scope.md R11): what each kind of ending gives, the instructions
whose ending depends on a check or a loop, and the dispatcher over all of them. -/

namespace Sys2Proof.Machine

/-- The operation started in `s` ends (R11): its result is a next state that carries an outcome, with CFG and what is
pending as in `s`. -/
def EndsWithOutcome (s : State) (r : Host.Outcome State Fault Refusal) : Prop :=
  ∃ t o, r = .next t ∧ t.outcome = some o ∧ SameRest s t

/-! ## The ways to end -/

theorem SameRest.rfl' (s : State) : SameRest s s := ⟨rfl, rfl, rfl⟩

theorem EndsWithOutcome.deliver {s u : State} (o : OpOutcome) (h : SameRest s u) :
    EndsWithOutcome s (.next (deliver o u)) :=
  ⟨_, o, rfl, deliver_outcome u o, h.cfg, h.pending, h.loneCall⟩

theorem EndsWithOutcome.finish {s u : State} (v : OpValue) (h : SameRest s u) :
    EndsWithOutcome s (finish v u) := .deliver _ h

theorem EndsWithOutcome.raise {s u : State} (e : OpError) (h : SameRest s u) :
    EndsWithOutcome s (raise e u) := .deliver _ h

theorem EndsWithOutcome.guarded {s : State} {k : Host.Outcome State Fault Refusal} (hc : s.cfg.wf = true)
    (h : EndsWithOutcome s k) : EndsWithOutcome s (guarded s k) := by rwa [guarded_of_wf hc]

theorem illegalCommand_endsWithOutcome {s : State} (hc : s.cfg.wf = true) (code : BitVec 4) :
    EndsWithOutcome s (illegalCommand code s) := .guarded hc (.raise _ (.rfl' s))

/-! ## What the operations keep of CFG and the pending requests -/

theorem txFlush_rest (m : Bool) (s : State) : SameRest s (txFlush m s).2 :=
  ⟨txFlush_cfg s m, txFlush_pending s m, txFlush_loneCall s m⟩

/-- The loop of RX_FRAME keeps them, whatever TRANSPORT answers (R190). -/
theorem rxLoop_rest (timeout : Nat) (answers : List RecvAnswer) (s : State) :
    SameRest s (rxLoop timeout answers s).2 :=
  rxLoop_rel SameRest (fun _ _ _ => SameRest.trans) (fun _ _ _ _ => ⟨rfl, rfl, rfl⟩)
    (fun b s => (rxDgram_kept b s).rest) (fun s => (rxFrameBoundary_kept s).rest) timeout answers s

/-- However a TX_FRAME with valid arguments ends, it delivers an outcome (R166, R234). -/
theorem TxRun.outcome_some {s t : State} {frame : Bytes} {rb : Nat} {groups : List (List LineDesc)}
    {g : List LineDesc} {m : Bool} {a : SendAnswer} (h : TxRun s frame rb groups g m a t) :
    ∃ o, t.outcome = some o := by
  cases a with
  | ok => exact ⟨_, (h.done rfl).2⟩
  | ioError => exact ⟨_, h.failed rfl⟩

/-! ## The instructions whose ending depends on a check or a loop -/

section
variable {s : State} (hc : s.cfg.wf = true)
include hc

theorem execEncHdr_endsWithOutcome (m : Bool) (xseq ts : Word) (lines : List LineDesc) :
    EndsWithOutcome s (execEncHdr m xseq ts lines s) := by
  refine .guarded hc ?_
  cases encHdr s.cfg m xseq ts lines with
  | ok b => exact .finish _ (.rfl' s)
  | error e => exact .raise _ (.rfl' s)

theorem execDecHdr_endsWithOutcome (b : Bytes) : EndsWithOutcome s (execDecHdr b s) := by
  refine .guarded hc ?_
  cases decHdr s.cfg b with
  | ok f => exact .finish _ (.rfl' s)
  | error e => exact .raise _ (.rfl' s)

/-- Valid arguments make a run of the loop, which ends (`execTxFrame_run`); any others are an `ArgError` (R165). -/
theorem execTxFrame_endsWithOutcome (frame : Bytes) (height width bpp : Nat) :
    EndsWithOutcome s (execTxFrame frame height width bpp s) := by
  by_cases hv : ValidFrame frame height width bpp
  · obtain ⟨t, groups, g, m, a, hx, hr⟩ := execTxFrame_run hc hv
    obtain ⟨o, ho⟩ := hr.outcome_some
    exact ⟨t, o, hx, ho, hr.rest⟩
  · refine .guarded hc ?_
    rw [if_neg (mt (txArgsOk_iff _ _ _ _).1 hv)]
    exact .raise _ (.rfl' s)

theorem execRxFrame_endsWithOutcome (timeout : Nat) : EndsWithOutcome s (execRxFrame timeout s) := by
  rw [execRxFrame_eq hc]
  exact .deliver _ (rxLoop_rest timeout _ s)

theorem execPktRx_endsWithOutcome (p x : Bool) (cc : BitVec 4) (m : Bool) (pt : BitVec 7) (seq : Half) :
    EndsWithOutcome s (execPktRx p x cc m pt seq s) := by
  refine .guarded hc ?_
  dsimp only
  split
  · exact .raise _ (.rfl' s)
  · exact .finish _ (.rfl' s)

/-! ## Every instruction -/

theorem exec_endsWithOutcome (i : Instr) : EndsWithOutcome s (exec i s) :=
  match i with
  | .txInit _ _ => .guarded hc (.finish _ ⟨rfl, rfl, rfl⟩)
  | .encHdr m q t ls => execEncHdr_endsWithOutcome hc m q t ls
  | .decHdr b => execDecHdr_endsWithOutcome hc b
  | .nextSeq => .guarded hc (.finish _ ⟨rfl, rfl, rfl⟩)
  | .tsFrame _ => .guarded hc (.finish _ (.rfl' s))
  | .txFrame f h w p => execTxFrame_endsWithOutcome hc f h w p
  | .txFlush m => .guarded hc (.deliver _ (txFlush_rest m s))
  | .rxFrame t => execRxFrame_endsWithOutcome hc t
  | .rxDgram b => .guarded hc (.finish _ (rxDgram_kept b s).rest)
  | .rxExpire => .guarded hc (.raise _ (rxFrameBoundary_kept s).rest)
  | .rxIoerr => .guarded hc (.raise _ (rxFrameBoundary_kept s).rest)
  | .rxInit => .guarded hc (.finish _ ⟨rfl, rfl, rfl⟩)
  | .reserved0 => illegalCommand_endsWithOutcome hc 0x0
  | .reservedD => illegalCommand_endsWithOutcome hc 0xD
  | .reservedE => illegalCommand_endsWithOutcome hc 0xE
  | .reservedF => illegalCommand_endsWithOutcome hc 0xF
  | .pktTx _ _ => .guarded hc (.finish _ (.rfl' s))
  | .pktRx p x cc m pt q => execPktRx_endsWithOutcome hc p x cc m pt q
  | .payloadExt _ => .guarded hc (.finish _ (.rfl' s))
  | .lineDesc _ _ _ => .guarded hc (.finish _ (.rfl' s))

end

/-- Settles O44, instruction by instruction: TX_FRAME ends because its loop's turns never run out, RX_FRAME because its
loop goes down TRANSPORT's answers (log entry 12), every other instruction by one delivery. -/
theorem everyInstructionEndsWithAnOutcome : Obligations.EveryInstructionEndsWithAnOutcome :=
  fun i _ hc => exec_endsWithOutcome hc i

end Sys2Proof.Machine
end

section
/-! SUPPORT. What one engine can see of the other: each operation acts on its own engine's part of the state alone,
whatever stands in the rest (10_state.md R20, 60_exceptions.md R254). From it: neither engine can observe the other, and
neither writes what is the other's. -/

namespace Sys2Proof.Machine

/-! ## Outcomes, the guard and the instructions that change nothing but the outcome -/

/-- The outcome with a function applied to the next state. -/
def mapNext (φ : State → State) : Host.Outcome State Fault Refusal → Host.Outcome State Fault Refusal
  | .next t => .next (φ t)
  | .fault f => .fault f
  | .refused r => .refused r

theorem mapNext_mapNext (φ ψ : State → State) (o : Host.Outcome State Fault Refusal) :
    mapNext φ (mapNext ψ o) = mapNext (φ ∘ ψ) o := by cases o <;> rfl

theorem mapNext_eq_next {φ : State → State} {o : Host.Outcome State Fault Refusal} {u : State}
    (h : mapNext φ o = .next u) : ∃ t, o = .next t ∧ φ t = u := by
  cases o with
  | next t => exact ⟨t, rfl, Host.Outcome.next.inj h⟩
  | fault f => cases h
  | refused r => cases h

/-- The guard of R52 looks at CFG alone. -/
theorem guarded_mapNext {s s' : State} (hc : s'.cfg = s.cfg) {φ : State → State}
    {k k' : Host.Outcome State Fault Refusal} (h : k' = mapNext φ k) :
    guarded s' k' = mapNext φ (guarded s k) := by
  subst h; unfold guarded; rw [hc]; split <;> rfl

/-- What a guarded operation answers is its own next state. -/
theorem eq_of_guarded_next {s t u : State} (h : guarded s (.next u) = .next t) : t = u := by
  unfold guarded at h
  split at h
  · exact (Host.Outcome.next.inj h).symm
  · cases h

/-- The outcome of the instructions that change nothing else, a function of their operands and CFG: the pure operations
of WireFormat and SessionClock (R130, R135, R152), the reserved codes (R111) and the wire-format rows (R115). -/
def pureOutcome (c : Cfg) : Instr → Option OpOutcome
  | .encHdr m q t ls => some <| match encHdr c m q t ls with
    | .ok b => .ok (.bytes b)
    | .error e => .err e
  | .decHdr b => some <| match decHdr c b with
    | .ok f => .ok (.fields f)
    | .error e => .err e
  | .tsFrame k => some (.ok (.ts (tsFrame c k)))
  | .reserved0 => some (.err (.illegalCommand 0x0))
  | .reservedD => some (.err (.illegalCommand 0xD))
  | .reservedE => some (.err (.illegalCommand 0xE))
  | .reservedF => some (.err (.illegalCommand 0xF))
  | .pktTx m q => some (.ok (.bytes (be32 (txWord0 c m q))))
  | .pktRx p x cc m pt q => some <|
    let w := rd32 (be32 (word0 c.rtpVersion p x cc m pt q)) 0
    if word0V w ≠ c.rtpVersion then .err (.versionMismatch (word0V w))
    else .ok (.word0Fields (word0V w) (word0P w) (word0X w) (word0CC w) (word0M w) (word0PT w) (word0Seq w))
  | .payloadExt e => some (.ok (.extField (rd16 (be16 e) 0) (be16 e)))
  | .lineDesc l n o =>
    some (.ok (.descriptor (readDesc c (encDesc c ⟨l, n, o⟩) 0) (encDesc c ⟨l, n, o⟩)))
  | .txInit _ _ | .nextSeq | .txFrame _ _ _ _ | .txFlush _ | .rxFrame _ | .rxDgram _ | .rxExpire | .rxIoerr
  | .rxInit => none

/-- A pure instruction delivers its outcome and does nothing else. -/
theorem exec_pure {i : Instr} {s : State} {o : OpOutcome} (h : pureOutcome s.cfg i = some o) :
    exec i s = guarded s (.next (deliver o s)) := by
  match i, h with
  | .encHdr m q t ls, h =>
    obtain rfl := Option.some.inj h
    simp only [exec, execEncHdr]
    cases encHdr s.cfg m q t ls <;> rfl
  | .decHdr b, h =>
    obtain rfl := Option.some.inj h
    simp only [exec, execDecHdr]
    cases decHdr s.cfg b <;> rfl
  | .pktRx p x cc m pt q, h =>
    obtain rfl := Option.some.inj h
    simp only [exec, execPktRx]
    split <;> rfl
  | .tsFrame _, h | .reserved0, h | .reservedD, h | .reservedE, h | .reservedF, h | .pktTx _ _, h | .payloadExt _, h
  | .lineDesc _ _ _, h => obtain rfl := Option.some.inj h; rfl

/-- The instructions that belong to no engine are pure. -/
theorem pureOutcome_of_engineOf_none {i : Instr} (h : engineOf i = none) (c : Cfg) :
    ∃ o, pureOutcome c i = some o := by
  cases i with
  | reserved0 | reservedD | reservedE | reservedF | pktTx | pktRx | payloadExt | lineDesc => exact ⟨_, rfl⟩
  | _ => cases h

/-! ## The receive side -/

/-- The state `r` with CFG and RXE of `s`. -/
def rxOver (s r : State) : State :=
  { r with
    cfg := s.cfg, rxState := s.rxState, rxSeqValid := s.rxSeqValid, rxExtHi := s.rxExtHi, rxGap := s.rxGap
    rxWritten := s.rxWritten, rxBusy := s.rxBusy, diag := s.diag, asm := s.asm, recvAnswers := s.recvAnswers
    recvLog := s.recvLog, rxFree := s.rxFree }

/-- The same with the outcome of `s`. -/
def rxAnswer (r s : State) : State := { rxOver s r with outcome := s.outcome }

theorem rxOver_of_same {s s' : State} (hc : s'.cfg = s.cfg) (h : SameRx s s') : rxOver s s' = s' := by
  unfold rxOver
  rw [← hc, ← h.rxState, ← h.rxSeqValid, ← h.rxExtHi, ← h.rxGap, ← h.rxWritten, ← h.rxBusy, ← h.diag, ← h.asm,
    ← h.recvAnswers, ← h.recvLog, ← h.rxFree]

section receive
variable (r : State)

/-- A fragment is placed, step by step, without a look at the rest of the state. -/
theorem rxFragments_rxOver (b : Bytes) : ∀ (ds : List LineDesc) (i p : Nat) (wrote : Bool) (s : State),
    rxFragments b i p wrote ds (rxOver s r) =
      ((rxFragments b i p wrote ds s).1, rxOver (rxFragments b i p wrote ds s).2 r) := by
  intro ds
  induction ds with
  | nil => intro i p wrote s; rfl
  | cons d ds ih => intro i p wrote s; exact ih _ _ _ (rxFragment b i p d s).2

theorem rxAccepted_rxOver (b : Bytes) (f : HdrFields) (s : State) :
    rxAccepted b f (rxOver s r) = rxOver (rxAccepted b f s) r := by
  have h := rxFragments_rxOver r b f.lines 0 f.ds false (rxSequence f.xseq s)
  have hs : rxSequence f.xseq (rxOver s r) = rxOver (rxSequence f.xseq s) r := rfl
  unfold rxAccepted
  rw [hs, h]
  rfl

theorem rxDgram_rxOver (b : Bytes) (s : State) :
    rxDgram b (rxOver s r) = ((rxDgram b s).1, rxOver (rxDgram b s).2 r) := by
  have hc : (rxOver s r).cfg = s.cfg := rfl
  cases hd : decHdr s.cfg b with
  | error e => rw [rxDgram_error hd, rxDgram_error (hc ▸ hd)]
  | ok f =>
    cases hm : f.m with
    | false => rw [rxDgram_open hd hm, rxDgram_open (hc ▸ hd) hm, rxAccepted_rxOver]
    | true => rw [rxDgram_marker hd hm, rxDgram_marker (hc ▸ hd) hm, rxAccepted_rxOver]; rfl

theorem rxLoop_rxOver (timeout : Nat) : ∀ (answers : List RecvAnswer) (s : State),
    rxLoop timeout answers (rxOver s r) =
      ((rxLoop timeout answers s).1, rxOver (rxLoop timeout answers s).2 r) := by
  intro answers
  induction answers with
  | nil => intro s; rfl
  | cons a rest ih =>
    intro s
    cases a with
    | timeout => rfl
    | ioError => rfl
    | dgram b =>
      have hr : recvAnswered timeout (.dgram b) rest (rxOver s r) =
        rxOver (recvAnswered timeout (.dgram b) rest s) r := rfl
      simp only [rxLoop, hr, rxDgram_rxOver]
      rcases rxDgram b (recvAnswered timeout (.dgram b) rest s) with ⟨v, t⟩
      cases v <;> first | rfl | exact ih t

/-- An RXE operation does the same to RXE whatever the rest of the state is, and leaves that rest. -/
theorem exec_rxOver {i : Instr} (he : engineOf i = some .rxe) (s : State) :
    exec i (rxOver s r) = mapNext (rxAnswer r) (exec i s) := by
  match i, he with
  | .decHdr b, _ =>
    rw [exec_pure (s := s) rfl, exec_pure rfl]
    exact guarded_mapNext rfl rfl
  | .rxFrame t, _ =>
    refine guarded_mapNext (s := s) rfl ?_
    have hl := rxLoop_rxOver r t s.recvAnswers s
    rw [show (rxOver s r).recvAnswers = s.recvAnswers from rfl, hl]
    rcases rxLoop t s.recvAnswers s with ⟨o, u⟩
    cases o <;> rfl
  | .rxDgram b, _ =>
    refine guarded_mapNext (s := s) rfl ?_
    rw [rxDgram_rxOver]
    rfl
  | .rxExpire, _ | .rxIoerr, _ | .rxInit, _ => exact guarded_mapNext (s := s) rfl rfl

end receive

/-- Settles O54: the second state is the first one's RXE over a rest of its own, which an RXE operation does not
look at. -/
theorem receiveCannotObserveTransmit : Obligations.ReceiveCannotObserveTransmit := by
  intro i s s' t he hc hs hx
  refine ⟨rxAnswer s' t, ?_, ⟨rfl, rfl, rfl, rfl, rfl, rfl, rfl, rfl, rfl, rfl, rfl⟩, rfl⟩
  rw [← rxOver_of_same hc hs, exec_rxOver s' he, hx, rxOver_of_same hc hs]
  rfl

/-! ## The transmit side -/

/-- The state `r` with CFG and TXE of `s`. -/
def txOver (s r : State) : State :=
  { r with
    cfg := s.cfg, seqLast := s.seqLast, frameIdx := s.frameIdx, seqOvf := s.seqOvf, txBusy := s.txBusy, txTs := s.txTs
    txRow := s.txRow, txOff := s.txOff, txSent := s.txSent, accN := s.accN, accSize := s.accSize, accLh := s.accLh
    accData := s.accData, txd := s.txd, frame := s.frame, sendAnswers := s.sendAnswers, txFree := s.txFree }

/-- The same with the outcome of `s`. -/
def txAnswer (r s : State) : State := { txOver s r with outcome := s.outcome }

theorem txOver_of_same {s s' : State} (hc : s'.cfg = s.cfg) (h : SameTx s s') : txOver s s' = s' := by
  unfold txOver
  rw [← hc, ← h.seqLast, ← h.frameIdx, ← h.seqOvf, ← h.txBusy, ← h.txTs, ← h.txRow, ← h.txOff, ← h.txSent, ← h.accN,
    ← h.accSize, ← h.accLh, ← h.accData, ← h.txd, ← h.frame, ← h.sendAnswers, ← h.txFree]

/-- The end of TX_FRAME's loop with a function applied to the state. -/
def LoopEnd.map (φ : State → State) : LoopEnd → LoopEnd
  | .rowsDone s => .rowsDone (φ s)
  | .sendFailed s => .sendFailed (φ s)
  | .stuck => .stuck

section transmit
variable (r : State)

theorem send_txOver (b : Bytes) (s : State) : send b (txOver s r) = ((send b s).1, txOver (send b s).2 r) := by
  have ha : (txOver s r).sendAnswers = s.sendAnswers := rfl
  unfold send
  rw [ha]
  split <;> rfl

theorem txFlush_txOver (m : Bool) (s : State) :
    txFlush m (txOver s r) = ((txFlush m s).1, txOver (txFlush m s).2 r) := by
  have hq : (nextSeq (txOver s r)).2 = txOver (nextSeq s).2 r := rfl
  have hp : flushPacket m (nextSeq (txOver s r)).1 (txOver (nextSeq s).2 r) =
    flushPacket m (nextSeq s).1 (nextSeq s).2 := rfl
  simp only [txFlush, hq, hp, send_txOver]
  rfl

theorem txLoop_txOver (height rowBytes : Nat) : ∀ (turns : Nat) (s : State),
    txLoop height rowBytes turns (txOver s r) = (txLoop height rowBytes turns s).map (txOver · r) := by
  intro turns
  induction turns with
  | zero => intro s; rfl
  | succ turns ih =>
    intro s
    have hrow : (txOver s r).txRow = s.txRow := rfl
    have hoff : (txOver s r).txOff = s.txOff := rfl
    have hfull : accFull (txOver s r) = accFull s := rfl
    have hnext : txNextRow (txOver s r) = txOver (txNextRow s) r := rfl
    have htake : txTake rowBytes (txOver s r) = txOver (txTake rowBytes s) r := rfl
    simp only [txLoop, hrow, hoff, hfull, hnext, htake, txFlush_txOver]
    split
    · split
      · exact ih _
      · split
        · rcases txFlush false s with ⟨a, t⟩
          cases a with
          | ok => exact ih t
          | ioError => rfl
        · exact ih _
    · rfl

/-- A TXE operation does the same to TXE whatever the rest of the state is, and leaves that rest. -/
theorem exec_txOver {i : Instr} (he : engineOf i = some .txe) (s : State) :
    exec i (txOver s r) = mapNext (txAnswer r) (exec i s) := by
  match i, he with
  | .encHdr .., _ | .tsFrame _, _ =>
    rw [exec_pure (s := s) rfl, exec_pure rfl]
    exact guarded_mapNext rfl rfl
  | .txFrame f h w p, _ =>
    refine guarded_mapNext (s := s) rfl ?_
    have hb : txBegin f (txOver s r) = txOver (txBegin f s) r := rfl
    rw [hb, txLoop_txOver]
    split
    · rcases txLoop h (w * p) (txTurns h (w * p)) (txBegin f s) with t | t | _
      · simp only [LoopEnd.map, txFlush_txOver]
        rcases txFlush true t with ⟨a, u⟩
        cases a <;> rfl
      · rfl
      · rfl
    · rfl
  | .txFlush m, _ =>
    refine guarded_mapNext (s := s) rfl ?_
    rw [txFlush_txOver]
    rfl
  | .txInit _ _, _ | .nextSeq, _ => exact guarded_mapNext (s := s) rfl rfl

end transmit

/-- Settles O53: the second state is the first one's TXE over a rest of its own, which a TXE operation does not
look at. -/
theorem transmitCannotObserveReceive : Obligations.TransmitCannotObserveReceive := by
  intro i s s' t he hc hs hx
  refine ⟨txAnswer s' t, ?_,
    ⟨rfl, rfl, rfl, rfl, rfl, rfl, rfl, rfl, rfl, rfl, rfl, rfl, rfl, rfl, rfl, rfl⟩, rfl⟩
  rw [← txOver_of_same hc hs, exec_txOver s' he, hx, txOver_of_same hc hs]
  rfl

/-! ## What an operation leaves alone -/

/-- The rest over which an RXE operation runs may be the state's own, so it leaves TXE. -/
theorem sameTx_of_rxe {i : Instr} {s t : State} (he : engineOf i = some .rxe) (h : exec i s = .next t) :
    SameTx s t := by
  have hr : exec i s = mapNext (rxAnswer s) (exec i s) := exec_rxOver s he s
  rw [h] at hr
  rw [Host.Outcome.next.inj hr]
  exact ⟨rfl, rfl, rfl, rfl, rfl, rfl, rfl, rfl, rfl, rfl, rfl, rfl, rfl, rfl, rfl, rfl⟩

/-- And a TXE operation leaves RXE. -/
theorem sameRx_of_txe {i : Instr} {s t : State} (he : engineOf i = some .txe) (h : exec i s = .next t) :
    SameRx s t := by
  have hr : exec i s = mapNext (txAnswer s) (exec i s) := exec_txOver s he s
  rw [h] at hr
  rw [Host.Outcome.next.inj hr]
  exact ⟨rfl, rfl, rfl, rfl, rfl, rfl, rfl, rfl, rfl, rfl, rfl⟩

theorem exec_pure_next {i : Instr} {s t : State} {o : OpOutcome} (hp : pureOutcome s.cfg i = some o)
    (h : exec i s = .next t) : t = deliver o s :=
  eq_of_guarded_next ((exec_pure hp).symm.trans h)

theorem same_deliver (o : OpOutcome) (s : State) : SameRx s (deliver o s) ∧ SameTx s (deliver o s) :=
  ⟨⟨rfl, rfl, rfl, rfl, rfl, rfl, rfl, rfl, rfl, rfl, rfl⟩,
    ⟨rfl, rfl, rfl, rfl, rfl, rfl, rfl, rfl, rfl, rfl, rfl, rfl, rfl, rfl, rfl, rfl⟩⟩

theorem exec_sameRx {i : Instr} {s t : State} (h : exec i s = .next t) (he : engineOf i ≠ some .rxe) : SameRx s t := by
  rcases hi : engineOf i with _ | (_ | _)
  · obtain ⟨o, ho⟩ := pureOutcome_of_engineOf_none hi s.cfg
    exact exec_pure_next ho h ▸ (same_deliver o s).1
  · exact sameRx_of_txe hi h
  · exact absurd hi he

theorem exec_sameTx {i : Instr} {s t : State} (h : exec i s = .next t) (he : engineOf i ≠ some .txe) : SameTx s t := by
  rcases hi : engineOf i with _ | (_ | _)
  · obtain ⟨o, ho⟩ := pureOutcome_of_engineOf_none hi s.cfg
    exact exec_pure_next ho h ▸ (same_deliver o s).2
  · exact absurd hi he
  · exact sameTx_of_rxe hi h

theorem exec_sameRest {i : Instr} {s t : State} (h : exec i s = .next t) : SameRest s t := by
  obtain ⟨u, _, hu, _, hr⟩ := exec_endsWithOutcome (exec_next_wf h) i
  rw [h] at hu
  exact Host.Outcome.next.inj hu ▸ hr

/-- Settles O52: an operation of one engine leaves the other's part, and one of neither delivers its outcome alone. -/
theorem enginesLeaveEachOtherAlone : Obligations.EnginesLeaveEachOtherAlone :=
  fun _ _ _ h => ⟨exec_sameRx h, exec_sameTx h, exec_sameRest h⟩

end Sys2Proof.Machine
end

section
/-! SUPPORT. Relations between the state before and after: what the moves of an engine keep every instruction keeps, and
what every instruction keeps every step keeps. The claims over all steps follow from these three rules. -/

namespace Sys2Proof.Machine

/-! ## The receive side -/

/-- A relation between states that every move of RX_DGRAM and RX_FRAME keeps, and that sees of a state only CFG and
RXE. -/
structure RxRel (R : State → State → Prop) : Prop where
  trans : ∀ {s t u}, R s t → R t u → R s u
  same : ∀ {s t}, t.cfg = s.cfg → SameRx s t → R s t
  recv : ∀ t a l s, R s (recvAnswered t a l s)
  accept : ∀ {b f s}, decHdr s.cfg b = .ok f → R s (rxAccepted b f s)
  boundary : ∀ s, R s (rxFrameBoundary s)

section receive
variable {R : State → State → Prop} (hR : RxRel R)
include hR

theorem RxRel.rxDgram (b : Bytes) (s : State) : R s (rxDgram b s).2 := by
  cases hd : decHdr s.cfg b with
  | error e => rw [rxDgram_error hd]; exact hR.same rfl (SameRx.rfl' s)
  | ok f =>
    cases hm : f.m with
    | false => rw [rxDgram_open hd hm]; exact hR.accept hd
    | true => rw [rxDgram_marker hd hm]; exact hR.trans (hR.accept hd) (hR.boundary _)

theorem RxRel.deliver {s u : State} (h : R s u) (o : OpOutcome) : R s (deliver o u) :=
  hR.trans h (hR.same rfl (same_deliver o u).1)

/-- Every instruction keeps the relation, if RX_INIT does. -/
theorem RxRel.exec {i : Instr} {s t : State} (h : exec i s = .next t) (hinit : i = .rxInit → R s (rxForget s)) :
    R s t := by
  by_cases he : engineOf i = some .rxe
  · match i, he with
    | .decHdr b, _ =>
      obtain rfl := exec_pure_next (i := .decHdr b) rfl h
      exact hR.same rfl (same_deliver _ s).1
    | .rxFrame n, _ =>
      obtain rfl := Host.Outcome.next.inj ((execRxFrame_eq (exec_next_wf h) n).symm.trans h)
      exact hR.deliver (rxLoop_rel R (fun _ _ _ => hR.trans) hR.recv hR.rxDgram hR.boundary n _ s) _
    | .rxDgram b, _ =>
      obtain rfl := eq_of_guarded_next h
      exact hR.deliver (hR.rxDgram b s) _
    | .rxExpire, _ | .rxIoerr, _ =>
      obtain rfl := eq_of_guarded_next h
      exact hR.deliver (hR.boundary s) _
    | .rxInit, _ =>
      obtain rfl := eq_of_guarded_next h
      exact hR.deliver (hinit rfl) _
  · exact hR.same (exec_sameRest h).cfg (exec_sameRx h he)

end receive

/-! ## The transmit side -/

/-- A relation that sees of a state only CFG and TXE is kept by every instruction, if the TXE operations that write
keep it. -/
theorem exec_tx_rel {R : State → State → Prop} (trans : ∀ {s t u}, R s t → R t u → R s u)
    (same : ∀ {s t}, t.cfg = s.cfg → SameTx s t → R s t) {i : Instr} {s t : State} (h : exec i s = .next t)
    (hinit : ∀ a b, i = .txInit a b → R s { s with seqLast := a, frameIdx := b, seqOvf := false })
    (hnext : i = .nextSeq → R s (nextSeq s).2) (hflush : ∀ m, i = .txFlush m → R s (txFlush m s).2)
    (hrun : ∀ {f h w p groups g m a}, i = .txFrame f h w p → TxRun s f (w * p) groups g m a t → R s t) : R s t := by
  have deliver {u : State} (o : OpOutcome) (hu : R s u) : R s (deliver o u) := trans hu (same rfl (same_deliver o u).2)
  by_cases he : engineOf i = some .txe
  · have hc := exec_next_wf h
    match i, he with
    | .encHdr .., _ | .tsFrame _, _ =>
      obtain rfl := exec_pure_next rfl h
      exact same rfl (same_deliver _ s).2
    | .txInit a b, _ =>
      obtain rfl := eq_of_guarded_next h
      exact deliver _ (hinit a b rfl)
    | .nextSeq, _ =>
      obtain rfl := eq_of_guarded_next h
      exact deliver _ (hnext rfl)
    | .txFlush m, _ =>
      obtain rfl := eq_of_guarded_next h
      exact deliver _ (hflush m rfl)
    | .txFrame f n w p, _ =>
      by_cases hv : ValidFrame f n w p
      · obtain ⟨u, groups, g, m, a, hu, hr⟩ := execTxFrame_run hc hv
        obtain rfl := Host.Outcome.next.inj (hu.symm.trans h)
        exact hrun rfl hr
      · have hx : execTxFrame f n w p s = raise .argFrame s := by
          rw [execTxFrame, guarded_of_wf hc, if_neg (mt (txArgsOk_iff _ _ _ _).1 hv)]
        obtain rfl := Host.Outcome.next.inj (hx.symm.trans h)
        exact deliver _ (same rfl (SameTx.rfl' s))
  · exact same (exec_sameRest h).cfg (exec_sameTx h he)

/-! ## Steps -/

/-- The state without what the ports keep for themselves: the requests to come and the busy bits. -/
def bare (s : State) : State := { s with pending := [], loneCall := none, txBusy := false, rxBusy := false }

@[simp] theorem bare_setBusy (p : Engine) (v : Bool) (s : State) : bare (setBusy p v s) = bare s := by cases p <;> rfl

/-- The ways an instruction comes to run in a step: HOST's command, a wire-format element, or a lone call (log
entry 2). -/
inductive Issued (s : State) : Instr → Prop where
  | host {port code ops} (hs : served s = some (.host port code ops)) (hm : hostMayIssue port code = true) :
      Issued s (decodeCmd code ops)
  | wire {i} (he : engineOf i = none) : Issued s i
  | lone {code ops} (hl : s.loneCall = some (code, ops)) (hi : isInternalOp code = true) : Issued s (decodeCmd code ops)

theorem rowForm_decodeCmd (code : BitVec 4) (ops : Operands) : Laws.rowForm (decodeCmd code ops) = .code code := by
  obtain ⟨n⟩ := code
  fin_cases n <;> rfl

/-- HOST may issue no internal operation (R110). -/
theorem commandEngine_of_isInternalOp : ∀ {code : BitVec 4}, isInternalOp code = true → commandEngine code = none := by
  decide

/-- An operation that is a command of an engine was issued by HOST on its port. -/
theorem Issued.of_command {s : State} {i : Instr} {c : BitVec 4} {p : Engine} (h : Issued s i)
    (hr : Laws.rowForm i = .code c) (hc : commandEngine c = some p) (he : (engineOf i).isSome = true) :
    ∃ ops, served s = some (.host p c ops) := by
  cases h with
  | @host port code ops hs hm =>
    obtain rfl : code = c := Laws.RowForm.code.inj ((rowForm_decodeCmd code ops).symm.trans hr)
    obtain rfl : port = p := Option.some.inj ((of_decide_eq_true hm).symm.trans hc)
    exact ⟨ops, hs⟩
  | wire h0 => simp [h0] at he
  | @lone code ops hl hi =>
    obtain rfl : code = c := Laws.RowForm.code.inj ((rowForm_decodeCmd code ops).symm.trans hr)
    rw [commandEngine_of_isInternalOp hi] at hc
    cases hc

/-- An operation that is no command of either engine was a lone call. -/
theorem Issued.of_internal {s : State} {i : Instr} {c : BitVec 4} (h : Issued s i) (hr : Laws.rowForm i = .code c)
    (hc : commandEngine c = none) (he : (engineOf i).isSome = true) : ∃ ops, s.loneCall = some (c, ops) := by
  cases h with
  | @host port code ops hs hm =>
    obtain rfl : code = c := Laws.RowForm.code.inj ((rowForm_decodeCmd code ops).symm.trans hr)
    have := (of_decide_eq_true hm).symm.trans hc
    cases this
  | wire h0 => simp [h0] at he
  | @lone code ops hl hi =>
    obtain rfl : code = c := Laws.RowForm.code.inj ((rowForm_decodeCmd code ops).symm.trans hr)
    exact ⟨ops, hl⟩

/-- A relation that does not see the ports' own bookkeeping is kept by a step, if delivering an outcome, the reset,
HOST's store and every instruction keep it. -/
theorem step_rel {R : State → State → Prop} (hbare : ∀ s t, R (bare s) (bare t) ↔ R s t) {s t : State}
    (h : step s = .next t) (hquiet : ∀ o, R s { s with outcome := o })
    (hreset : served s = some .reset → R s (hwReset s))
    (hstore : ∀ o b, served s = some (.hostWriteAsm o b) → o + b.length ≤ s.cfg.rxSize →
      R s { s with asm := memWriteBytes s.asm o b })
    (hrun : ∀ i u v, Issued s i → exec i u = .next v → R u v) : R s t := by
  have of_bare {s' t' : State} (hr : R s' t') (hs : bare s' = bare s) (ht : bare t = bare t') : R s t :=
    (hbare s t).1 (hs ▸ ht ▸ (hbare s' t').2 hr)
  cases step_cases h with
  | lone code ops hl hi hx => exact of_bare (hrun _ _ _ (.lone hl hi) hx) rfl rfl
  | idle hl hp ht => exact of_bare (hquiet s.outcome) rfl (ht ▸ rfl)
  | reset rest hl hp ht => exact of_bare (hreset (by simp [hl, hp])) rfl (ht ▸ rfl)
  | store rest o b hl hp hb ht => exact of_bare (hstore o b (by simp [hl, hp]) hb) rfl (ht ▸ rfl)
  | wire rest bs i hl hp hd he hx => exact of_bare (hrun _ _ _ (.wire he) hx) rfl rfl
  | illegal rest port code ops hl hp hm ht =>
    exact of_bare (hquiet (some (.err (.illegalCommand code)))) rfl (ht ▸ rfl)
  | host rest port code ops u hl hp hm hx ht =>
    refine of_bare (hrun _ _ _ (.host (by simp [hl, hp]) hm) hx) ?_ ?_
    · rw [bare_setBusy]; rfl
    · rw [ht, bare_setBusy]

end Sys2Proof.Machine
end

section
/-! SUPPORT. What steps leave as it is: the claims about CFG, the logs, the counters, the overflow flag, the assembly
buffer and the highest number seen (10_state.md R21 to R23, R34, R38, R40, R55). -/

namespace Sys2Proof.Machine

/-! ## The configuration -/

/-- Settles O51: no instruction writes CFG, and neither does anything else a step may do. -/
theorem nothingWritesTheConfiguration : Obligations.NothingWritesTheConfiguration := fun _ _ h =>
  step_rel (R := fun s t => t.cfg = s.cfg) (fun _ _ => Iff.rfl) h (fun _ => rfl) (fun _ => rfl) (fun _ _ _ _ => rfl)
    (fun _ _ _ _ hx => (exec_sameRest hx).cfg)

/-! ## The logs -/

theorem diag_rxRel : RxRel fun s t => s.diag <+: t.diag where
  trans := List.IsPrefix.trans
  same := fun _ h => h.diag ▸ List.prefix_rfl
  recv := fun _ _ _ _ => List.prefix_rfl
  accept := fun {b f s} _ => by
    rw [rxAccepted_diag, List.append_assoc]
    exact List.prefix_append _ _
  boundary := fun _ => List.prefix_rfl

theorem exec_diag {i : Instr} {s t : State} (h : exec i s = .next t) : s.diag <+: t.diag :=
  diag_rxRel.exec h fun _ => List.prefix_rfl

theorem exec_txd {i : Instr} {s t : State} (h : exec i s = .next t) : s.txd <+: t.txd :=
  exec_tx_rel (R := fun s t => s.txd <+: t.txd) List.IsPrefix.trans (fun _ h => h.txd ▸ List.prefix_rfl) h
    (fun _ _ _ => List.prefix_rfl) (fun _ => List.prefix_rfl)
    (fun m _ => txFlush_txd s m ▸ List.prefix_append _ _) (fun _ hr => hr.txd ▸ List.prefix_append _ _)

/-- Settles O55: the moves of either engine only append to its log. -/
theorem logsOnlyGrow : Obligations.LogsOnlyGrow := fun _ _ h hn =>
  step_rel (R := fun s t => s.txd <+: t.txd ∧ s.diag <+: t.diag) (fun _ _ => Iff.rfl) h
    (fun _ => ⟨List.prefix_rfl, List.prefix_rfl⟩) (fun hs => absurd hs hn)
    (fun _ _ _ _ => ⟨List.prefix_rfl, List.prefix_rfl⟩) (fun _ _ _ _ hx => ⟨exec_txd hx, exec_diag hx⟩)

/-! ## The counters and the overflow flag -/

/-- Only TX_INIT clears `seq_ovf` (R23). -/
theorem exec_seqOvf {i : Instr} {s t : State} (h : exec i s = .next t) (hi : ∀ a b, i ≠ .txInit a b) :
    s.seqOvf = true → t.seqOvf = true :=
  exec_tx_rel (R := fun s t => s.seqOvf = true → t.seqOvf = true) (fun h k hs => k (h hs))
    (fun _ h hs => h.seqOvf.trans hs) h (fun a b he => absurd he (hi a b))
    (fun _ hs => by simp [seqOvfAfter, hs]) (fun _ _ hs => by simp [seqOvfAfter, hs])
    (fun _ hr hs => by simp [hr.seqOvf, hs])

/-- Only TX_INIT and TX_FRAME write `frame_idx` (R22). -/
theorem exec_frameIdx {i : Instr} {s t : State} (h : exec i s = .next t) (hi : ∀ a b, i ≠ .txInit a b)
    (hf : ∀ f n w p, i ≠ .txFrame f n w p) : t.frameIdx = s.frameIdx :=
  exec_tx_rel (R := fun s t => t.frameIdx = s.frameIdx) (fun h k => k.trans h) (fun _ h => h.frameIdx) h
    (fun a b he => absurd he (hi a b)) (fun _ => rfl) (fun m _ => txFlush_frameIdx s m)
    (fun he _ => absurd he (hf _ _ _ _))

/-- Only TX_INIT, TX_FRAME, NEXT_SEQ and TX_FLUSH write `seq_last` (R21). -/
theorem exec_seqLast {i : Instr} {s t : State} (h : exec i s = .next t) (hi : ∀ a b, i ≠ .txInit a b)
    (hf : ∀ f n w p, i ≠ .txFrame f n w p) (hq : i ≠ .nextSeq) (hm : ∀ m, i ≠ .txFlush m) :
    t.seqLast = s.seqLast :=
  exec_tx_rel (R := fun s t => t.seqLast = s.seqLast) (fun h k => k.trans h) (fun _ h => h.seqLast) h
    (fun a b he => absurd he (hi a b)) (fun he => absurd he hq) (fun m he => absurd he (hm m))
    (fun he _ => absurd he (hf _ _ _ _))

section issued
variable {s : State} {i : Instr} (h : Issued s i)
include h

theorem Issued.txInit {a b : Word} (he : i = .txInit a b) : ∃ ops, served s = some (.host .txe 0x1 ops) :=
  h.of_command (c := 0x1) (by rw [he]; rfl) rfl (by rw [he]; rfl)

theorem Issued.txFrame {f : Bytes} {n w p : Nat} (he : i = .txFrame f n w p) :
    ∃ ops, served s = some (.host .txe 0x6 ops) :=
  h.of_command (c := 0x6) (by rw [he]; rfl) rfl (by rw [he]; rfl)

theorem Issued.rxFrame {n : Nat} (he : i = .rxFrame n) : ∃ ops, served s = some (.host .rxe 0x8 ops) :=
  h.of_command (c := 0x8) (by rw [he]; rfl) rfl (by rw [he]; rfl)

theorem Issued.rxDgram {b : Bytes} (he : i = .rxDgram b) : ∃ ops, served s = some (.host .rxe 0x9 ops) :=
  h.of_command (c := 0x9) (by rw [he]; rfl) rfl (by rw [he]; rfl)

theorem Issued.rxInit (he : i = .rxInit) : ∃ ops, served s = some (.host .rxe 0xC ops) :=
  h.of_command (c := 0xC) (by rw [he]; rfl) rfl (by rw [he]; rfl)

theorem Issued.nextSeq (he : i = .nextSeq) : ∃ ops, s.loneCall = some (0x4, ops) :=
  h.of_internal (c := 0x4) (by rw [he]; rfl) rfl (by rw [he]; rfl)

theorem Issued.txFlush {m : Bool} (he : i = .txFlush m) : ∃ ops, s.loneCall = some (0x7, ops) :=
  h.of_internal (c := 0x7) (by rw [he]; rfl) rfl (by rw [he]; rfl)

end issued

/-- Settles O56: a step that is neither the reset nor HOST's TX_INIT keeps a set flag set. -/
theorem overflowFlagIsSticky : Obligations.OverflowFlagIsSticky := by
  intro s t h hs ht
  by_contra hn
  obtain ⟨hreset, hinit⟩ := not_or.1 hn
  have : s.seqOvf = true → t.seqOvf = true :=
    step_rel (R := fun s t => s.seqOvf = true → t.seqOvf = true) (fun _ _ => Iff.rfl) h (fun _ => id)
      (fun hr => absurd hr hreset) (fun _ _ _ _ => id)
      (fun i u v hi hx => exec_seqOvf hx fun a b he => hinit (hi.txInit he))
  exact Bool.noConfusion (ht.symm.trans (this hs))

/-- Settles O57: a step that serves none of the requests named runs an instruction that writes no counter. -/
theorem countersMoveOnlyByTheirOperations : Obligations.CountersMoveOnlyByTheirOperations := by
  intro s t h
  refine ⟨fun hne => ?_, fun hne => ?_⟩
  · by_contra hn
    obtain ⟨hreset, hops⟩ := not_or.1 hn
    refine hne (step_rel (R := fun s t => t.frameIdx = s.frameIdx) (fun _ _ => Iff.rfl) h (fun _ => rfl)
      (fun hr => absurd hr hreset) (fun _ _ _ _ => rfl) fun i u v hi hx =>
        exec_frameIdx hx (fun a b he => ?_) (fun f n w p he => ?_))
    · exact hops ((hi.txInit he).imp fun _ => .inl)
    · exact hops ((hi.txFrame he).imp fun _ => .inr)
  · by_contra hn
    obtain ⟨hreset, hops⟩ := not_or.1 hn
    refine hne (step_rel (R := fun s t => t.seqLast = s.seqLast) (fun _ _ => Iff.rfl) h (fun _ => rfl)
      (fun hr => absurd hr hreset) (fun _ _ _ _ => rfl) fun i u v hi hx =>
        exec_seqLast hx (fun a b he => ?_) (fun f n w p he => ?_) (fun he => ?_) (fun m he => ?_))
    · exact hops ((hi.txInit he).imp fun _ => .inl)
    · exact hops ((hi.txFrame he).imp fun _ h6 => .inr (.inl h6))
    · exact hops ((hi.nextSeq he).imp fun _ h4 => .inr (.inr (.inl h4)))
    · exact hops ((hi.txFlush he).imp fun _ h7 => .inr (.inr (.inr h7)))

/-! ## The assembly buffer -/

theorem asm_isSome_rxRel (a : Nat) :
    RxRel fun s t => (memRead s.asm a).isSome = true → (memRead t.asm a).isSome = true where
  trans := fun h k hs => k (h hs)
  same := fun _ h hs => h.asm ▸ hs
  recv := fun _ _ _ _ => id
  accept := fun {b f s} hd hs => by
    rw [rxAccepted_memRead b f s (decHdr_ok hd).1, Option.isSome_or, hs, Bool.or_true]
  boundary := fun _ => id

/-- Only RX_FRAME and RX_DGRAM write ASM (R55). -/
theorem exec_asm {i : Instr} {s t : State} (h : exec i s = .next t) (hf : ∀ n, i ≠ .rxFrame n)
    (hd : ∀ b, i ≠ .rxDgram b) : t.asm = s.asm := by
  by_cases he : engineOf i = some .rxe
  · match i, he with
    | .decHdr b, _ => exact exec_pure_next (i := .decHdr b) rfl h ▸ rfl
    | .rxFrame n, _ => exact absurd rfl (hf n)
    | .rxDgram b, _ => exact absurd rfl (hd b)
    | .rxExpire, _ | .rxIoerr, _ | .rxInit, _ =>
      obtain rfl := eq_of_guarded_next h
      rfl
  · exact (exec_sameRx h he).asm

/-- Settles O59: only the two receive operations and HOST's store write ASM, and each of them only adds bytes. -/
theorem onlyReceiveAndHostWriteTheBuffer : Obligations.OnlyReceiveAndHostWriteTheBuffer := by
  intro s t h
  refine ⟨fun hne => ?_, fun a => ?_⟩
  · by_contra hn
    obtain ⟨hstore, hops⟩ := not_or.1 hn
    refine hne (step_rel (R := fun s t => t.asm = s.asm) (fun _ _ => Iff.rfl) h (fun _ => rfl) (fun _ => rfl)
      (fun o b hs _ => absurd ⟨o, b, hs⟩ hstore) (fun i u v hi hx => exec_asm hx (fun n he => ?_) (fun b he => ?_)))
    · obtain ⟨ops, hs⟩ := hi.rxFrame he
      exact hops ⟨ops, .inl hs⟩
    · obtain ⟨ops, hs⟩ := hi.rxDgram he
      exact hops ⟨ops, .inr hs⟩
  · refine step_rel (R := fun s t => (memRead s.asm a).isSome = true → (memRead t.asm a).isSome = true)
      (fun _ _ => Iff.rfl) h (fun _ => id) (fun _ => id) (fun o b _ _ hs => ?_)
      (fun i u v _ hx => (asm_isSome_rxRel a).exec hx fun _ => id)
    rw [memRead_memWriteBytes]
    split
    · rfl
    · exact hs

/-! ## The highest number seen -/

theorem rxExtHi_rxRel :
    RxRel fun s t => s.rxSeqValid = true → t.rxSeqValid = true ∧ s.rxExtHi.toNat ≤ t.rxExtHi.toNat where
  trans := fun h k hs => ⟨(k (h hs).1).1, (h hs).2.trans (k (h hs).1).2⟩
  same := fun _ h hs => ⟨h.rxSeqValid.trans hs, (congrArg BitVec.toNat h.rxExtHi).ge⟩
  recv := fun _ _ _ _ hs => ⟨hs, le_rfl⟩
  accept := fun {b f s} _ hs => by
    refine ⟨rxAccepted_rxSeqValid b f s, ?_⟩
    rw [rxAccepted_rxExtHi]
    split
    · rename_i hadv
      have : s.rxExtHi.toNat < f.xseq.toNat := by simpa [seqAdvances, hs] using hadv
      exact this.le
    · exact le_rfl
  boundary := fun _ hs => ⟨hs, le_rfl⟩

/-- Settles O60: an accepted datagram raises the number or leaves it, and every other move but RX_INIT and the reset
leaves it. -/
theorem highestNumberSeenNeverFalls : Obligations.HighestNumberSeenNeverFalls := fun _ _ h hv hreset hinit =>
  step_rel (R := fun s t => s.rxSeqValid = true → t.rxSeqValid = true ∧ s.rxExtHi.toNat ≤ t.rxExtHi.toNat)
    (fun _ _ => Iff.rfl) h (fun _ hs => ⟨hs, le_rfl⟩) (fun hr => absurd hr hreset) (fun _ _ _ _ hs => ⟨hs, le_rfl⟩)
    (fun i u v hi hx => rxExtHi_rxRel.exec hx fun he => by
      obtain ⟨ops, hs⟩ := hi.rxInit he
      exact absurd hs (hinit ops)) hv

end Sys2Proof.Machine
end

section
/-! SUPPORT. The invariant of the block (`BlockInv`): RX_DGRAM and RX_FRAME keep the receive side's part of it, TX_FRAME
the transmit side's, and the busy bits are 0 again when a step ends. -/

namespace Sys2Proof.Machine

/-! ## The receive side's part -/

/-- What `BlockInv` says of RXE and ASM. -/
structure RxInv (s : State) : Prop where
  asmWf : s.asm.wf = true
  asmWithin : s.asm.within s.cfg.rxSize = true
  writtenRising : setRisingFrom 0 s.rxWritten = true
  writtenWithin : ∀ k ∈ s.rxWritten, k < s.cfg.rxSize
  writtenStored : ∀ k ∈ s.rxWritten, (memRead s.asm k).isSome = true
  writtenOff : s.cfg.rxValidate = false → s.rxWritten = []
  rxResting : s.rxState ≠ .complete

/-- It sees only CFG, ASM, `rx_written` and `rx_state`. -/
theorem RxInv.of_eq {s t : State} (h : RxInv s) (hc : t.cfg = s.cfg) (ha : t.asm = s.asm)
    (hw : t.rxWritten = s.rxWritten) (hr : t.rxState = s.rxState) : RxInv t := by
  obtain ⟨hwf, hin, hrise, hlt, hstored, hoff, hrest⟩ := h
  constructor <;> simpa only [hc, ha, hw, hr]

/-- With the frame's bookkeeping emptied only ASM matters. -/
theorem RxInv.of_empty {s : State} (hwf : s.asm.wf = true) (hin : s.asm.within s.cfg.rxSize = true)
    (hw : s.rxWritten = []) (hr : s.rxState = .idle) : RxInv s where
  asmWf := hwf
  asmWithin := hin
  writtenRising := by rw [hw]; rfl
  writtenWithin := by simp [hw]
  writtenStored := by simp [hw]
  writtenOff := fun _ => hw
  rxResting := by rw [hr]; decide

/-- An accepted datagram records the offsets it covers, and it covers offsets of ASM that it writes (R191, R194). -/
theorem RxInv.accepted {s : State} {b : Bytes} {f : HdrFields} (hd : decHdr s.cfg b = .ok f) (h : RxInv s) :
    RxInv (rxAccepted b f s) where
  asmWf := rxAccepted_asm_wf b f s h.asmWf
  asmWithin := by rw [rxAccepted_cfg]; exact rxAccepted_asm_within b f s h.asmWithin
  writtenRising := rxAccepted_rising b f s h.writtenRising
  writtenWithin := fun k hk => by
    rw [rxAccepted_cfg]
    cases hv : s.cfg.rxValidate with
    | false => rw [rxAccepted_rxWritten_off b f s hv] at hk; exact h.writtenWithin k hk
    | true =>
      rcases (mem_rxAccepted_rxWritten b f s hv k).1 hk with hk | hk
      · exact h.writtenWithin k hk
      · obtain ⟨d, _, hcov⟩ := List.any_eq_true.1 hk
        exact fragCovers_lt hcov
  writtenStored := fun k hk => by
    rw [rxAccepted_memRead b f s (decHdr_ok hd).1, Option.isSome_or, lastCovering_isSome]
    cases hv : s.cfg.rxValidate with
    | false =>
      rw [rxAccepted_rxWritten_off b f s hv] at hk
      rw [h.writtenStored k hk, Bool.or_true]
    | true =>
      rcases (mem_rxAccepted_rxWritten b f s hv k).1 hk with hk | hk
      · rw [h.writtenStored k hk, Bool.or_true]
      · rw [hk, Bool.true_or]
  writtenOff := fun hv => by
    rw [rxAccepted_cfg] at hv
    rw [rxAccepted_rxWritten_off b f s hv, h.writtenOff hv]
  rxResting := by
    rw [rxAccepted_rxState]
    split
    · decide
    · exact h.rxResting

theorem rxInv_rxRel : RxRel fun s t => RxInv s → RxInv t where
  trans := fun h k hs => k (h hs)
  same := fun hc hs h => h.of_eq hc hs.asm hs.rxWritten hs.rxState
  recv := fun _ _ _ _ h => h.of_eq rfl rfl rfl rfl
  accept := RxInv.accepted
  boundary := fun _ h => .of_empty h.asmWf h.asmWithin rfl rfl

theorem exec_rxInv {i : Instr} {s t : State} (h : exec i s = .next t) : RxInv s → RxInv t :=
  rxInv_rxRel.exec h fun _ hs => .of_empty hs.asmWf hs.asmWithin rfl rfl

/-- HOST's store stays inside ASM (R55). -/
theorem RxInv.store {s : State} {o : Nat} {b : Bytes} (hb : o + b.length ≤ s.cfg.rxSize) (h : RxInv s) :
    RxInv { s with asm := memWriteBytes s.asm o b } where
  asmWf := memWriteBytes_wf b o h.asmWf
  asmWithin := memWriteBytes_within _ b h.asmWithin hb
  writtenRising := h.writtenRising
  writtenWithin := h.writtenWithin
  writtenStored := fun k hk => by
    rw [memRead_memWriteBytes]
    split
    · rfl
    · exact h.writtenStored k hk
  writtenOff := h.writtenOff
  rxResting := h.rxResting

/-! ## The transmit side's part -/

/-- What `BlockInv` says of TXE: the ranges of the accumulator's registers, and no FRAME held. -/
structure TxInv (s : State) : Prop where
  acc : AccInRange s
  frameReleased : s.frame = []

/-- It sees only CFG, three of the accumulator's registers and FRAME. -/
theorem TxInv.of_eq {s t : State} (h : TxInv s) (hc : t.cfg = s.cfg) (hn : t.accN = s.accN)
    (hz : t.accSize = s.accSize) (hl : t.accLh = s.accLh) (hf : t.frame = s.frame) : TxInv t := by
  obtain ⟨⟨hcount, hmin, hmax, hentries⟩, hframe⟩ := h
  refine ⟨?_, hf.trans hframe⟩
  constructor <;> simpa only [hc, hn, hz, hl]

/-- A flush leaves the accumulator empty. -/
theorem TxInv.flush {s : State} (hc : s.cfg.wf = true) (m : Bool) (h : TxInv s) : TxInv (txFlush m s).2 := by
  have hwf := (cfg_wf_iff s.cfg).1 hc
  refine ⟨?_, by simp [h.frameReleased]⟩
  constructor <;> simp [hdrBase]
  omega

theorem exec_txInv {i : Instr} {s t : State} (h : exec i s = .next t) : TxInv s → TxInv t :=
  exec_tx_rel (R := fun s t => TxInv s → TxInv t) (fun h k hs => k (h hs))
    (fun hc hs h => h.of_eq hc hs.accN hs.accSize hs.accLh hs.frame) h
    (fun _ _ _ hs => hs.of_eq rfl rfl rfl rfl rfl) (fun _ hs => hs.of_eq rfl rfl rfl rfl rfl)
    (fun m _ => TxInv.flush (exec_next_wf h) m) (fun _ hr _ => ⟨hr.acc, hr.released⟩)

/-! ## The invariant without the busy bits -/

/-- What an instruction keeps of `BlockInv`: all but the busy bits, one of which is 1 while it runs. -/
structure CoreInv (s : State) : Prop where
  cfgWf : s.cfg.wf = true
  rx : RxInv s
  tx : TxInv s

theorem blockInv_iff {s : State} : BlockInv s ↔ CoreInv s ∧ s.txBusy = false ∧ s.rxBusy = false := by
  constructor
  · intro h
    exact ⟨⟨h.cfgWf, ⟨h.asmWf, h.asmWithin, h.writtenRising, h.writtenWithin, h.writtenStored, h.writtenOff,
      h.rxResting⟩, h.acc, h.frameReleased⟩, h.txIdle, h.rxIdle⟩
  · rintro ⟨⟨hc, hr, ht⟩, htx, hrx⟩
    exact ⟨hc, hr.asmWf, hr.asmWithin, hr.writtenRising, hr.writtenWithin, hr.writtenStored, hr.writtenOff,
      hr.rxResting, htx, hrx, ht.acc, ht.frameReleased⟩

/-- It does not see the ports' own bookkeeping. -/
theorem coreInv_bare {s : State} : CoreInv (bare s) ↔ CoreInv s :=
  ⟨fun h => ⟨h.cfgWf, h.rx.of_eq rfl rfl rfl rfl, h.tx.of_eq rfl rfl rfl rfl rfl⟩,
    fun h => ⟨h.cfgWf, h.rx.of_eq rfl rfl rfl rfl, h.tx.of_eq rfl rfl rfl rfl rfl⟩⟩

theorem CoreInv.exec {i : Instr} {s t : State} (hx : exec i s = .next t) (h : CoreInv s) : CoreInv t :=
  ⟨(exec_sameRest hx).cfg ▸ h.cfgWf, exec_rxInv hx h.rx, exec_txInv hx h.tx⟩

theorem CoreInv.outcome {s : State} (o : Option OpOutcome) (h : CoreInv s) : CoreInv { s with outcome := o } :=
  ⟨h.cfgWf, h.rx.of_eq rfl rfl rfl rfl, h.tx.of_eq rfl rfl rfl rfl rfl⟩

theorem CoreInv.store {s : State} {o : Nat} {b : Bytes} (hb : o + b.length ≤ s.cfg.rxSize) (h : CoreInv s) :
    CoreInv { s with asm := memWriteBytes s.asm o b } :=
  ⟨h.cfgWf, h.rx.store hb, h.tx.of_eq rfl rfl rfl rfl rfl⟩

theorem CoreInv.hwReset {s : State} (h : CoreInv s) : CoreInv (hwReset s) := by
  obtain ⟨hcount, hmin, hmax, hentries⟩ := txForget_acc h.cfgWf
  exact ⟨h.cfgWf, .of_empty h.rx.asmWf h.rx.asmWithin rfl rfl, ⟨hcount, hmin, hmax, hentries⟩, rfl⟩

theorem step_coreInv {s t : State} (h : step s = .next t) : CoreInv s → CoreInv t :=
  step_rel (R := fun s t => CoreInv s → CoreInv t) (fun _ _ => by simp only [coreInv_bare]) h
    CoreInv.outcome (fun _ => CoreInv.hwReset) (fun _ _ _ => CoreInv.store)
    (fun _ _ _ _ hx => CoreInv.exec hx)

/-! ## The busy bits -/

/-- No instruction writes a busy bit: the port does (R24, R37). -/
theorem exec_busy {i : Instr} {s t : State} (h : exec i s = .next t) : t.txBusy = s.txBusy ∧ t.rxBusy = s.rxBusy := by
  constructor
  · exact exec_tx_rel (R := fun s t => t.txBusy = s.txBusy) (fun h k => k.trans h) (fun _ h => h.txBusy) h
      (fun _ _ _ => rfl) (fun _ => rfl) (fun m _ => txFlush_txBusy s m) (fun _ hr => hr.txBusy)
  · have hR : RxRel fun s t => t.rxBusy = s.rxBusy :=
      ⟨fun h k => k.trans h, fun _ h => h.rxBusy, fun _ _ _ _ => rfl, fun _ => (rxAccepted_kept _ _ _).rxBusy,
        fun _ => rfl⟩
    exact hR.exec h fun _ => rfl

/-- A step from an idle block ends with both engines idle. -/
theorem step_idle {s t : State} (h : step s = .next t) (htx : s.txBusy = false) (hrx : s.rxBusy = false) :
    t.txBusy = false ∧ t.rxBusy = false := by
  cases step_cases h with
  | lone code ops hl hi hx => exact ⟨(exec_busy hx).1.trans htx, (exec_busy hx).2.trans hrx⟩
  | idle hl hp ht => exact ht ▸ ⟨htx, hrx⟩
  | reset rest hl hp ht => exact ht ▸ ⟨rfl, rfl⟩
  | store rest o b hl hp hb ht => exact ht ▸ ⟨htx, hrx⟩
  | wire rest bs i hl hp hd he hx => exact ⟨(exec_busy hx).1.trans htx, (exec_busy hx).2.trans hrx⟩
  | illegal rest port code ops hl hp hm ht => exact ht ▸ ⟨htx, hrx⟩
  | host rest port code ops u hl hp hm hx ht =>
    subst ht
    cases port with
    | txe => exact ⟨rfl, (exec_busy hx).2.trans hrx⟩
    | rxe => exact ⟨(exec_busy hx).1.trans htx, rfl⟩

/-! ## The claims -/

/-- Settles O50: a step keeps what does not concern the busy bits, and clears the one it sets. -/
theorem stepKeepsTheInvariant : Obligations.StepKeepsTheInvariant := by
  intro s t hs h
  obtain ⟨hcore, htx, hrx⟩ := blockInv_iff.1 hs
  exact blockInv_iff.2 ⟨step_coreInv h hcore, step_idle h htx hrx⟩

/-- Settles O49: at reset the buffer, the sets and the accumulator are empty. -/
theorem resetSatisfiesTheInvariant : Obligations.ResetSatisfiesTheInvariant :=
  blockInv_iff.2 ⟨⟨by decide, .of_empty rfl rfl rfl rfl, ⟨by decide, by decide, by decide, by decide⟩, rfl⟩, rfl, rfl⟩

/-- Settles O46: the values of `State.reset`. -/
theorem resetStateIsTheSpecs : Obligations.ResetStateIsTheSpecs :=
  ⟨rfl, rfl, rfl, rfl, rfl, rfl, rfl, rfl, rfl, rfl, rfl⟩

end Sys2Proof.Machine
end

section
/-! SUPPORT. The TXE working registers: consistent while TX_FRAME runs (10_state.md R28 to R31), and read by no step
between two commands before it writes them (R25, R58, U14). -/

namespace Sys2Proof.Machine

/-! ## The accumulator at each move of TX_FRAME's loop -/

/-- An empty accumulator is consistent, since CFG leaves room for a header (R52). -/
theorem AccEmpty.accOk {u : State} (hc : u.cfg.wf = true) (h : AccEmpty u) : AccOk u := by
  have hwf := (cfg_wf_iff u.cfg).1 hc
  obtain ⟨hn, hz, hl, hd⟩ := h
  constructor <;> simp only [hn, hz, hl, hd, hdrBase, lenSum_nil, List.length_nil] <;> omega

theorem txBegin_accEmpty (frame : Bytes) (s : State) : AccEmpty (txBegin frame s) := ⟨rfl, rfl, rfl, rfl⟩

theorem txFlush_accEmpty (m : Bool) (u : State) : AccEmpty (txFlush m u).2 :=
  ⟨txFlush_accN u m, txFlush_accSize u m, txFlush_accLh u m, txFlush_accData u m⟩

theorem AccOk.nextRow {u : State} (h : AccOk u) : AccOk (txNextRow u) :=
  ⟨h.count, h.countMax, h.size, h.sizeMax, h.data⟩

/-- Where there is room, the fragment taken fits the budget, and its bytes are in the frame (R166). -/
theorem AccOk.take {u : State} {frame : Bytes} {height rb : Nat} (h : AccOk u) (hfull : accFull u = false)
    (hbuf : u.frame = frame) (hrb : rb ≤ 65535) (hlen : frame.length = height * rb) (hrow : u.txRow.toNat < height)
    (hoff : u.txOff.toNat < rb) : AccOk (txTake rb u) := by
  obtain ⟨hcount, hmax, hsize, hbudget, hdata⟩ := h
  simp only [accFull, Bool.or_eq_false_iff, decide_eq_false_iff_not] at hfull
  have hfrag : txFragLen rb u = min (rb - u.txOff.toNat) (u.cfg.mtuBudget - u.accSize - u.cfg.lhStride) := rfl
  have hmod : txFragLen rb u % 2 ^ 16 = txFragLen rb u := Nat.mod_eq_of_lt (by omega)
  have htake : u.accLh.take u.accN = u.accLh := by rw [hcount, List.take_length]
  have hin : u.txRow.toNat * rb + u.txOff.toNat + txFragLen rb u ≤ u.frame.length := by
    rw [hbuf, hlen]
    calc u.txRow.toNat * rb + u.txOff.toNat + txFragLen rb u ≤ (u.txRow.toNat + 1) * rb := by
          rw [Nat.add_mul]; omega
      _ ≤ height * rb := Nat.mul_le_mul_right _ hrow
  have hsum : lenSum (txTake rb u).accLh = lenSum u.accLh + txFragLen rb u := by
    simp only [txTake_accLh, htake, lenSum_append, lenSum_cons, lenSum_nil, BitVec.toNat_ofNat, hmod, Nat.add_zero]
  constructor
  case count => simp [hcount]
  case countMax => simp only [txTake_accN, txTake_cfg]; omega
  case size => simp only [hsum, txTake_accSize, txTake_accN, txTake_cfg, hsize, Nat.add_mul]; omega
  case sizeMax => simp only [txTake_accSize, txTake_cfg]; omega
  case data => rw [hsum, txTake_accData, List.length_append, hdata, frameRead, slice_length _ hin]

/-! ## The loop with any number of turns -/

/-- A loop that ended ends the same way with more turns. -/
theorem txLoop_more_turns {height rb : Nat} {e : LoopEnd} (k : Nat) : ∀ {n : Nat} {s : State},
    txLoop height rb n s = e → e ≠ .stuck → txLoop height rb (n + k) s = e := by
  intro n
  induction n with
  | zero => intro s h he; exact absurd h.symm he
  | succ n ih =>
    intro s h he
    rw [show n + 1 + k = (n + k) + 1 by omega]
    simp only [txLoop] at h ⊢
    split_ifs at h ⊢
    · exact ih h he
    · rcases hf : txFlush false s with ⟨a, t⟩
      rw [hf] at h
      cases a with
      | ok => exact ih h he
      | ioError => exact h
    · exact ih h he
    · exact h

/-- How the loop of a TX_FRAME with valid arguments ends, if it ends within the turns given. -/
theorem txLoop_end {s : State} {frame : Bytes} {height width bpp turns : Nat} {e : LoopEnd} (hc : s.cfg.wf = true)
    (hv : ValidFrame frame height width bpp) (h : txLoop height (width * bpp) turns (txBegin frame s) = e)
    (he : e ≠ .stuck) :
    (∃ t, e = .rowsDone t ∧ AccOk t ∧ t.accLh ≠ []) ∨ (∃ t, e = .sendFailed (txFlush false t).2) := by
  have hbegin := TxProgress.begin (frame := frame) hc hv.heightMin (Nat.mul_pos hv.widthMin hv.bppMin)
  have hmore := txLoop_more_turns (txTurns height (width * bpp)) h he
  have hneed : turnsNeeded height (width * bpp) (txBegin frame s) < turns + txTurns height (width * bpp) :=
    Nat.lt_add_left _ (turnsNeeded_begin hc)
  rcases txLoop_spec hc hv.heightMax hv.rowMax hv.size _ hbegin hneed with
    ⟨t, groups, hl, hp, _, hne⟩ | ⟨t, groups, hl, _⟩
  · exact .inl ⟨t, hmore.symm.trans hl, hp.acc, hne⟩
  · exact .inr ⟨t, hmore.symm.trans hl⟩

/-- Settles O16: the moves one by one, and the ends of the loop from its invariant. -/
theorem accumulatorIsConsistentWhileTxFrameRuns : Obligations.AccumulatorIsConsistentWhileTxFrameRuns := by
  intro s frame height width bpp hc hv
  refine ⟨(txBegin_accEmpty frame s).accOk hc, txBegin_accEmpty frame s, fun u hu => hu.nextRow,
    fun u hu hfull hbuf hrow hoff => hu.take hfull hbuf hv.rowMax hv.size hrow hoff,
    fun u m hcu => ⟨(txFlush_accEmpty m u).accOk (by simpa using hcu), txFlush_accEmpty m u⟩,
    fun turns u hl => ?_, fun turns u hl => ?_⟩
  · rcases txLoop_end hc hv hl (by simp) with ⟨t, he, hacc, hne⟩ | ⟨t, he⟩
    · obtain rfl := LoopEnd.rowsDone.inj he
      exact ⟨hacc, hacc.count ▸ List.length_pos_iff.2 hne⟩
    · cases he
  · rcases txLoop_end hc hv hl (by simp) with ⟨t, he, _⟩ | ⟨t, he⟩
    · cases he
    · obtain rfl := LoopEnd.sendFailed.inj he
      exact txFlush_accEmpty false t

/-! ## The working registers between two commands -/

/-- The state `s` with the working registers of `w`. -/
def withWorking (w s : State) : State :=
  { s with
    txTs := w.txTs, txRow := w.txRow, txOff := w.txOff, txSent := w.txSent, accN := w.accN, accSize := w.accSize
    accLh := w.accLh, accData := w.accData }

theorem withWorking_of_eq {s s' : State} (h : withoutWorking s' = withoutWorking s) : withWorking s' s = s' :=
  show withWorking s' (withoutWorking s) = withWorking s' (withoutWorking s') by rw [h]

/-- Two results that differ at most in the working registers. -/
def SameResult (o o' : Host.Outcome State Fault Refusal) : Prop := mapNext withoutWorking o' = mapNext withoutWorking o

theorem SameResult.guarded {s s' : State} (hc : s'.cfg = s.cfg) {k k' : Host.Outcome State Fault Refusal}
    (h : SameResult k k') : SameResult (guarded s k) (guarded s' k') := by
  unfold SameResult
  rw [← guarded_mapNext rfl rfl, ← guarded_mapNext rfl rfl, h]
  unfold Machine.guarded
  rw [hc]

section working
variable (w s : State)

theorem exec_pure_withWorking {i : Instr} {o : OpOutcome} (hp : pureOutcome s.cfg i = some o) :
    SameResult (exec i s) (exec i (withWorking w s)) := by
  rw [exec_pure hp, exec_pure (s := withWorking w s) hp]
  exact .guarded rfl rfl

/-- The start of TX_FRAME writes all of them, so with valid arguments the two runs are one (R166). -/
theorem execTxFrame_withWorking (frame : Bytes) (height width bpp : Nat) :
    SameResult (execTxFrame frame height width bpp s) (execTxFrame frame height width bpp (withWorking w s)) := by
  refine .guarded rfl ?_
  have hb : txBegin frame (withWorking w s) = txBegin frame s := rfl
  rw [hb]
  split
  · rfl
  · rfl

/-- No instruction but TX_FLUSH reads a working register before writing it. -/
theorem exec_withWorking {i : Instr} (hm : ∀ m, i ≠ .txFlush m) :
    SameResult (exec i s) (exec i (withWorking w s)) := by
  rcases hi : engineOf i with _ | (_ | _)
  · obtain ⟨o, ho⟩ := pureOutcome_of_engineOf_none hi s.cfg
    exact exec_pure_withWorking w s ho
  · match i, hi with
    | .encHdr .., _ | .tsFrame _, _ => exact exec_pure_withWorking w s rfl
    | .txInit _ _, _ | .nextSeq, _ => exact .guarded rfl rfl
    | .txFrame f n v p, _ => exact execTxFrame_withWorking w s f n v p
    | .txFlush m, _ => exact absurd rfl (hm m)
  · have h' : exec i (withWorking w s) = mapNext (rxAnswer (withWorking w s)) (exec i s) :=
      exec_rxOver (withWorking w s) hi s
    have h : exec i s = mapNext (rxAnswer s) (exec i s) := exec_rxOver s hi s
    unfold SameResult
    rw [h', mapNext_mapNext]
    conv_rhs => rw [h, mapNext_mapNext]
    rfl

end working

/-- HOST cannot issue TX_FLUSH (R110). -/
theorem decodeCmd_ne_txFlush {port : Engine} {code : BitVec 4} (hm : hostMayIssue port code = true) (ops : Operands)
    (m : Bool) : decodeCmd code ops ≠ .txFlush m := by
  intro h
  have hr := rowForm_decodeCmd code ops
  rw [h] at hr
  obtain rfl : (0x7 : BitVec 4) = code := Laws.RowForm.code.inj hr
  cases port <;> exact absurd hm (by decide)

theorem endCommand_eq_mapNext (port : Engine) (o : Host.Outcome State Fault Refusal) :
    endCommand port o = mapNext (setBusy port false) o := by cases o <;> rfl

/-- The busy bit is no working register. -/
theorem SameResult.endCommand (port : Engine) {o o' : Host.Outcome State Fault Refusal} (h : SameResult o o') :
    SameResult (endCommand port o) (endCommand port o') := by
  have hcomm : withoutWorking ∘ setBusy port false = setBusy port false ∘ withoutWorking := by
    funext u; cases port <;> rfl
  unfold SameResult at *
  rw [endCommand_eq_mapNext, endCommand_eq_mapNext, mapNext_mapNext, mapNext_mapNext, hcomm, ← mapNext_mapNext,
    ← mapNext_mapNext, h]

theorem hostCommand_withWorking (port : Engine) (code : BitVec 4) (ops : Operands) (w s : State) :
    SameResult (hostCommand port code ops s) (hostCommand port code ops (withWorking w s)) := by
  have hbusy : busy port (withWorking w s) = busy port s := by cases port <;> rfl
  have hset : setBusy port true (withWorking w s) = withWorking w (setBusy port true s) := by cases port <;> rfl
  unfold hostCommand
  rw [hbusy, hset]
  split
  · rename_i hm
    split
    · rfl
    · exact .endCommand port (exec_withWorking w _ (decodeCmd_ne_txFlush hm ops))
  · exact .guarded rfl rfl

theorem wire_withWorking (bytes : Bytes) (w s : State) :
    SameResult (runEncoded (.wire bytes) s) (runEncoded (.wire bytes) (withWorking w s)) := by
  have hc : (withWorking w s).cfg = s.cfg := rfl
  unfold runEncoded
  rw [hc]
  split
  · rename_i i hd
    refine exec_withWorking w s fun m hi => ?_
    have he := decode_wire_engine hd
    rw [hi] at he
    cases he
  · rfl

theorem serve_withWorking (r : Request) (w s : State) : SameResult (serve r s) (serve r (withWorking w s)) := by
  cases r with
  | host port code ops => exact hostCommand_withWorking port code ops w s
  | wire bytes => exact wire_withWorking bytes w s
  | reset => rfl
  | hostWriteAsm offset bytes =>
    have hc : (withWorking w s).cfg = s.cfg := rfl
    simp only [serve, hostStore, hc]
    split <;> rfl

/-- Without a lone call two states that differ only in the working registers take the same step. -/
theorem step_withWorking {w s : State} (hl : s.loneCall = none) : SameResult (step s) (step (withWorking w s)) := by
  cases hp : s.pending with
  | nil =>
    have hw : (withWorking w s).pending = [] := hp
    simp only [step, hl, hp, hw, show (withWorking w s).loneCall = none from hl]
    rfl
  | cons r rest =>
    rw [step_serves hl hp, step_serves (s := withWorking w s) hl hp]
    exact serve_withWorking r w { s with pending := rest }

/-- Settles O17: the second state is the first one with working registers of its own. -/
theorem workingRegistersAreNotReadBetweenCommands : Obligations.WorkingRegistersAreNotReadBetweenCommands := by
  intro s s' t hl hw h
  have hs : SameResult (step s) (step s') := withWorking_of_eq hw ▸ step_withWorking hl
  unfold SameResult at hs
  rw [h] at hs
  exact mapNext_eq_next hs

end Sys2Proof.Machine
end

section
/-! SUPPORT. Single operations: the refusal under a CFG that is not well formed (10_state.md R52), the set of written
offsets after a datagram (R36) and HOST's store into its buffer (R55). -/

namespace Sys2Proof.Machine

/-- Every arm of the dispatcher is behind the guard of R52. -/
theorem exec_guarded (i : Instr) (s : State) : ∃ k, exec i s = guarded s k := by
  cases i <;> exact ⟨_, rfl⟩

/-- Settles O43: the guard refuses. -/
theorem illFormedConfigurationIsRefused : Obligations.IllFormedConfigurationIsRefused := by
  intro i s hc
  obtain ⟨k, hk⟩ := exec_guarded i s
  rw [hk, guarded, if_neg (by simp [hc])]

/-- Settles O29: without a marker the datagram's last step is the acceptance, whose effect on `rx_written` is known. -/
theorem writtenSetGainsTheCoveredOffsets : Obligations.WrittenSetGainsTheCoveredOffsets := by
  intro s b f hc hd hm
  have hx : exec (.rxDgram b) s = .next (deliver (.ok .accepted) (rxAccepted b f s)) := by
    rw [exec, execRxDgram, guarded_of_wf hc, rxDgram_open hd hm, finish]
  exact ⟨_, hx, rxAccepted_rxWritten_off b f s, mem_rxAccepted_rxWritten b f s⟩

/-- Settles O42: the store is one `MemWrite` (R67), inside ASM or not at all. -/
theorem hostStoreFillsTheBuffer : Obligations.HostStoreFillsTheBuffer := by
  intro s offset bytes rest hl hp
  refine ⟨fun hin => ⟨memWriteBytes s.asm offset bytes, ?_, memRead_memWriteBytes bytes s.asm offset⟩, fun hout => ?_⟩
  · rw [step_serves hl hp]
    exact if_pos hin
  · rw [step_serves hl hp]
    exact if_neg (Nat.not_le_of_lt hout)

end Sys2Proof.Machine
end

section
/-! SUPPORT. The encodings: header word 0 as a number (30_encoding.md R91), the bytes of a descriptor's slots (R97), and
what a step makes of a request that decodes (R110, R115). -/

namespace Sys2Proof

/-- Concatenation puts its first operand above the bits of its second. -/
theorem toNat_append_eq_add {v w : Nat} (a : BitVec v) (b : BitVec w) : (a ++ b).toNat = a.toNat * 2 ^ w + b.toNat := by
  rw [BitVec.toNat_append, ← Nat.shiftLeft_add_eq_or_of_lt b.isLt, Nat.shiftLeft_eq]

theorem word0_toNat (v : BitVec 2) (p x : Bool) (cc : BitVec 4) (m : Bool) (pt : BitVec 7) (seq : Half) :
    (word0 v p x cc m pt seq).toNat = v.toNat * 2 ^ 30 + p.toNat * 2 ^ 29 + x.toNat * 2 ^ 28 + cc.toNat * 2 ^ 24
      + m.toNat * 2 ^ 23 + pt.toNat * 2 ^ 16 + seq.toNat := by
  simp only [word0, toNat_append_eq_add, BitVec.toNat_ofBool]
  ring

/-- The encoder's word 0 has three fields that are zero (R92). -/
theorem txWord0_toNat (c : Cfg) (m : Bool) (seq : Half) :
    (txWord0 c m seq).toNat =
      c.rtpVersion.toNat * 2 ^ 30 + m.toNat * 2 ^ 23 + c.payloadType.toNat * 2 ^ 16 + seq.toNat := by
  simp [txWord0, word0_toNat]

/-- The two bytes of a 16-bit value, the first the more significant (R9). -/
theorem be16_toNat (v : Half) : (byteAt (be16 v) 0).toNat * 256 + (byteAt (be16 v) 1).toNat = v.toNat := by
  have h := toNat_append_eq_add (byteAt (be16 v) 0) (byteAt (be16 v) 1)
  rwa [show byteAt (be16 v) 0 ++ byteAt (be16 v) 1 = v from rd16_be16 v, eq_comm] at h

/-- Settles O1: each word is a closed term, and the decoder is evaluated on it. -/
theorem tableWordsDecodeToTheirRows : Obligations.TableWordsDecodeToTheirRows := by
  unfold Obligations.TableWordsDecodeToTheirRows
  decide

/-- Settles O4: the number from the concatenation, the fields from the reading rules of word 0. -/
theorem headerWordHoldsEachFieldAtItsPlace : Obligations.HeaderWordHoldsEachFieldAtItsPlace := by
  intro v p x cc m pt seq
  exact ⟨word0_toNat .., word0V_word0 .., word0P_word0 .., word0X_word0 .., word0CC_word0 .., word0M_word0 ..,
    word0PT_word0 .., word0Seq_word0 ..⟩

end Sys2Proof

namespace Sys2Proof.Machine

/-! ## Instructions that change only the outcome -/

/-- Under a well-formed CFG a pure instruction ends with its outcome, and that is all it does. -/
theorem exec_pure_of_wf {i : Instr} {s : State} {o : OpOutcome} (hc : s.cfg.wf = true)
    (ho : pureOutcome s.cfg i = some o) : exec i s = .next { s with outcome := some o } := by
  rw [exec_pure ho, guarded_of_wf hc, deliver]

/-- The word PKT_RX stands for has V = RTP_VERSION, so check 2 of R135 lets it through with every field reported. -/
theorem pureOutcome_pktRx (c : Cfg) (p x : Bool) (cc : BitVec 4) (m : Bool) (pt : BitVec 7) (seq : Half) :
    pureOutcome c (.pktRx p x cc m pt seq) = some (.ok (.word0Fields c.rtpVersion p x cc m pt seq)) := by
  simp [pureOutcome]

theorem readDesc_encDesc_self {c : Cfg} (h : 2 ≤ c.lhSlot) (d : LineDesc) : readDesc c (encDesc c d) 0 = d := by
  simpa using readDesc_encDesc h d []

/-- Past its value a slot holds zeros (R97). -/
theorem byteAt_encSlot_pad {c : Cfg} (v : Half) {k : Nat} (h : 2 ≤ k) : byteAt (encSlot c v) k = 0 := by
  rw [encSlot, byteAt_append_right (by simpa using h)]
  rw [byteAt, zeros, List.getD_eq_getElem?_getD]
  exact List.getElem?_getD_replicate_default_eq ..

/-- The pads of a descriptor are zeros, whichever of its three slots they stand in (R97). -/
theorem byteAt_encDesc_pad {c : Cfg} (h : 2 ≤ c.lhSlot) (d : LineDesc) {slot k : Nat} (hs : slot < 3) (h2 : 2 ≤ k)
    (hk : k < c.lhSlot) : byteAt (encDesc c d) (slot * c.lhSlot + k) = 0 := by
  have hl := encSlot_length h
  match slot, hs with
  | 0, _ =>
    rw [encDesc, List.append_assoc, byteAt_append_left (by rw [hl]; omega), Nat.zero_mul, Nat.zero_add,
      byteAt_encSlot_pad _ h2]
  | 1, _ =>
    rw [encDesc, byteAt_append_left (by rw [List.length_append, hl, hl]; omega),
      byteAt_append_right (by rw [hl]; omega), hl, show 1 * c.lhSlot + k - c.lhSlot = k by omega,
      byteAt_encSlot_pad _ h2]
  | 2, _ =>
    have hlen : (encSlot c d.len ++ encSlot c d.line).length = 2 * c.lhSlot := by
      rw [List.length_append, hl, hl]; omega
    rw [encDesc, byteAt_append_right (by omega), hlen, Nat.add_sub_cancel_left, byteAt_encSlot_pad _ h2]

/-- Settles O8: the four rows are pure instructions, and what they report is what the encoder's bytes read back as. -/
theorem wireRowsReportTheirFields : Obligations.WireRowsReportTheirFields := by
  intro s hc
  have hslot := lhSlot_ge hc
  refine ⟨fun m seq => ?_, fun p x cc m pt seq => ?_, fun ext => ?_, fun len line off => ?_⟩
  · refine ⟨be32 (txWord0 s.cfg m seq), exec_pure_of_wf hc rfl, be32_length _, ?_⟩
    rw [rd32_be32, txWord0_toNat]
  · exact exec_pure_of_wf hc (pureOutcome_pktRx ..)
  · exact ⟨be16 ext, exec_pure_of_wf hc (by rw [pureOutcome, rd16_be16]), be16_length ext, be16_toNat ext⟩
  · have hread := readDesc_encDesc_self hslot ⟨len, line, off⟩
    obtain ⟨hlen, hline, hoff⟩ := LineDesc.mk.inj hread
    rw [Nat.zero_add] at hline hoff
    exact ⟨encDesc s.cfg ⟨len, line, off⟩, exec_pure_of_wf hc (by rw [pureOutcome, hread]), encDesc_length hslot _,
      hlen, hline, hoff, fun slot hs k h2 hk => byteAt_encDesc_pad hslot _ hs h2 hk⟩

/-- Settles O37: the reserved codes are pure instructions. -/
theorem reservedCodesAnswerIllegalCommand : Obligations.ReservedCodesAnswerIllegalCommand := fun _ hc =>
  ⟨exec_pure_of_wf hc rfl, exec_pure_of_wf hc rfl, exec_pure_of_wf hc rfl, exec_pure_of_wf hc rfl⟩

/-! ## Requests that decode -/

theorem runEncoded_of_decode {e : Encoded} {s : State} {i : Instr} (h : decode s.cfg e = .ok i) :
    runEncoded e s = exec i s := by
  rw [runEncoded, h]

/-- HOST's command on an idle engine runs with the engine's busy bit 1 and ends with it 0 (R24, R37). -/
theorem hostCommand_of_decode {port : Engine} {code : BitVec 4} {ops : Operands} {s : State} {i : Instr}
    (hm : hostMayIssue port code = true) (hb : busy port s = false) (h : decode s.cfg (.cmd code ops) = .ok i) :
    hostCommand port code ops s = endCommand port (exec i (setBusy port true s)) := by
  rw [hostCommand, if_pos hm, if_neg (by simp [hb]), runEncoded_of_decode (by rwa [setBusy_cfg])]

/-- A lone call comes before everything pending (log entry 2). -/
theorem step_of_loneCall {s : State} {code : BitVec 4} {ops : Operands} (hl : s.loneCall = some (code, ops)) :
    step s = internalCall code ops { s with loneCall := none } := by
  rw [step, hl]

/-- Taking a request off does not touch the busy bits. -/
theorem busy_pending (port : Engine) (s : State) (rest : List Request) :
    busy port { s with pending := rest } = busy port s := by
  cases port <;> rfl

/-- Settles O39: the request is served by the port's rule for a command that decodes. -/
theorem stepRunsTheCommandIssued : Obligations.StepRunsTheCommandIssued := by
  intro s port code ops rest i hl hp hm hb hd
  rw [step_serves hl hp, serve, hostCommand_of_decode (s := { s with pending := rest }) hm (by rwa [busy_pending]) hd]
  cases exec i (setBusy port true { s with pending := rest }) <;> rfl

/-- Settles O40: a lone call runs the code as it is, a wire-format element the row its bytes decode to. -/
theorem stepRunsInternalCallsAndWireElements : Obligations.StepRunsInternalCallsAndWireElements := by
  refine fun s i => ⟨fun code ops hl hi hd => ?_, fun bs rest hl hp hd => ?_⟩
  · rw [step_of_loneCall hl, internalCall, if_pos hi]
    exact runEncoded_of_decode hd
  · rw [step_serves hl hp]
    exact runEncoded_of_decode hd

end Sys2Proof.Machine
end

section
/-! SUPPORT. WireFormat's two operations: where ENC_HDR puts each field and each descriptor (40_wireformat.md R130),
which outcome DEC_HDR has for a byte string (R135), and that the second undoes the first (R137). -/

namespace Sys2Proof.Machine

/-! ## DEC_HDR, check by check (R135) -/

theorem decHdr_short {c : Cfg} {b : Bytes} (h : b.length < 14) : decHdr c b = .error (.truncated b.length) := if_pos h

theorem decHdr_version {c : Cfg} {b : Bytes} (h : 14 ≤ b.length) (hv : word0V (rd32 b 0) ≠ c.rtpVersion) :
    decHdr c b = .error (.versionMismatch (word0V (rd32 b 0))) := by
  rw [decHdr, if_neg (Nat.not_lt_of_le h), if_pos hv]

/-- Past checks 1 and 2 the length walk decides. -/
theorem decHdr_walk {c : Cfg} {b : Bytes} (h : 14 ≤ b.length) (hv : word0V (rd32 b 0) = c.rtpVersion) :
    decHdr c b = (lengthWalk c b c.maxLines 0 14 0 []).map fun r => hdrFields b r.1 r.2 := by
  rw [decHdr, if_neg (Nat.not_lt_of_le h), if_neg (not_not_intro hv)]
  cases lengthWalk c b c.maxLines 0 14 0 [] <;> rfl

/-! ## DEC_HDR of ENC_PKT (R137) -/

/-- EXT above SEQ is the extended sequence number (R94). -/
theorem xseq_eq_ofNat (ext seq : Half) : ext ++ seq = BitVec.ofNat 32 (ext.toNat * 65536 + seq.toNat) := by
  apply BitVec.eq_of_toNat_eq
  rw [BitVec.toNat_ofNat, toNat_append_eq_add]
  exact (Nat.mod_eq_of_lt (by omega)).symm

/-- An encoded packet passes both checks, and the walk reads off the descriptors ENC_HDR wrote. -/
theorem decHdr_encPkt {c : Cfg} {m : Bool} {xseq ts : Word} {lines : List LineDesc} {data : Bytes} (hs : 2 ≤ c.lhSlot)
    (hn : lines.length ≤ c.maxLines) (hd : data.length = lenSum lines) :
    decHdr c (encPkt c m xseq ts lines data) =
      .ok (hdrFields (encPkt c m xseq ts lines data) lines (14 + lines.length * c.lhStride)) := by
  have hlen : 14 ≤ (encPkt c m xseq ts lines data).length := by rw [encPkt_length _ _ _ _ _ _ hs]; omega
  have hv : word0V (rd32 (encPkt c m xseq ts lines data) 0) = c.rtpVersion := by
    rw [encPkt_word0, txWord0, word0V_word0]
  have hwalk : lengthWalk c (encPkt c m xseq ts lines data) c.maxLines 0 14 0 [] =
      .ok (lines, 14 + lines.length * c.lhStride) := by
    rw [encPkt_split]
    exact lengthWalk_encoded hs data lines _ [] c.maxLines 0 0 hn (by omega)
  rw [decHdr_walk hlen hv, hwalk, Except.map]

/-- Settles O7: each field is read back from the bytes ENC_PKT wrote for it. -/
theorem headersRoundTrip : Obligations.HeadersRoundTrip := by
  intro c m xseq ts lines data hc hn hd
  refine ⟨_, decHdr_encPkt (lhSlot_ge hc) hn hd, ?_⟩
  simp [hdrFields, encPkt_word0, encPkt_ts, encPkt_ssrc, encPkt_ext, txWord0, word_of_halves]

/-! ## What ENC_HDR writes (R130) -/

/-- A header is a packet without data, so what is known of a packet's first 14 bytes holds of it. -/
theorem encHdrBytes_eq_encPkt (c : Cfg) (m : Bool) (xseq ts : Word) (lines : List LineDesc) :
    encHdrBytes c m xseq ts lines = encPkt c m xseq ts lines [] := (List.append_nil _).symm

theorem encHdrBytes_append (c : Cfg) (m : Bool) (xseq ts : Word) (l l' : List LineDesc) :
    encHdrBytes c m xseq ts (l ++ l') = encHdrBytes c m xseq ts l ++ l'.flatMap (encDesc c) := by simp [encHdrBytes]

/-- The bytes of the i-th descriptor stand at `14 + i * LH_STRIDE`. -/
theorem encHdrBytes_at_desc {c : Cfg} {lines : List LineDesc} {i : Nat} {d : LineDesc} (hs : 2 ≤ c.lhSlot) (m : Bool)
    (xseq ts : Word) (hd : lines[i]? = some d) :
    ∃ pre rest, encHdrBytes c m xseq ts lines = pre ++ (encDesc c d ++ rest) ∧ pre.length = 14 + i * c.lhStride := by
  obtain ⟨hi, rfl⟩ := List.getElem?_eq_some_iff.1 hd
  refine ⟨encHdrBytes c m xseq ts (lines.take i), (lines.drop (i + 1)).flatMap (encDesc c), ?_, ?_⟩
  · rw [← List.flatMap_cons, ← encHdrBytes_append, ← List.drop_eq_getElem_cons hi, List.take_append_drop]
  · rw [encHdrBytes_length hs, List.length_take_of_le hi.le]

/-- The i-th descriptor reads back from its place. -/
theorem readDesc_encHdrBytes {c : Cfg} {lines : List LineDesc} {i : Nat} {d : LineDesc} (hs : 2 ≤ c.lhSlot) (m : Bool)
    (xseq ts : Word) (hd : lines[i]? = some d) :
    readDesc c (encHdrBytes c m xseq ts lines) (14 + i * c.lhStride) = d := by
  obtain ⟨pre, rest, heq, hpre⟩ := encHdrBytes_at_desc hs m xseq ts hd
  rw [heq, ← hpre, readDesc_append, readDesc_encDesc hs]

/-- Behind each value of the i-th descriptor its slot holds zeros (R97). -/
theorem byteAt_encHdrBytes_pad {c : Cfg} {lines : List LineDesc} {i : Nat} {d : LineDesc} (hs : 2 ≤ c.lhSlot) (m : Bool)
    (xseq ts : Word) (hd : lines[i]? = some d) {slot k : Nat} (hslot : slot < 3) (h2 : 2 ≤ k) (hk : k < c.lhSlot) :
    byteAt (encHdrBytes c m xseq ts lines) (14 + i * c.lhStride + slot * c.lhSlot + k) = 0 := by
  obtain ⟨pre, rest, heq, hpre⟩ := encHdrBytes_at_desc hs m xseq ts hd
  have hin : slot * c.lhSlot + k < c.lhStride := by
    have : slot * c.lhSlot ≤ 2 * c.lhSlot := Nat.mul_le_mul_right _ (by omega)
    rw [Cfg.lhStride]; omega
  rw [heq, ← hpre, Nat.add_assoc, byteAt_append_right (Nat.le_add_right ..), Nat.add_sub_cancel_left,
    byteAt_append_left (by rwa [encDesc_length hs]), byteAt_encDesc_pad hs d hslot h2 hk]

/-- Settles O5: the fixed fields are a packet's, and each descriptor is read back from its place. -/
theorem encodeHeaderWritesTheLayout : Obligations.EncodeHeaderWritesTheLayout := by
  intro s m xseq ts lines hc
  have hs := lhSlot_ge hc
  refine ⟨fun hn => ⟨encHdrBytes s.cfg m xseq ts lines, exec_pure_of_wf hc ?_, encHdrBytes_length hs .., ?_, ?_, ?_, ?_,
    fun i d hd => ?_⟩, fun hn => exec_pure_of_wf hc ?_⟩
  · rw [pureOutcome, encHdr, if_neg (Nat.not_lt_of_le hn)]
  · rw [encHdrBytes_eq_encPkt, encPkt_word0, txWord0_toNat, BitVec.extractLsb'_toNat, Nat.shiftRight_zero]
  · rw [encHdrBytes_eq_encPkt, encPkt_ts]
  · rw [encHdrBytes_eq_encPkt, encPkt_ssrc]
  · rw [encHdrBytes_eq_encPkt, encPkt_ext, BitVec.extractLsb'_toNat, Nat.shiftRight_eq_div_pow]
    have := xseq.isLt
    omega
  · obtain ⟨hlen, hline, hoff⟩ := LineDesc.mk.inj (readDesc_encHdrBytes hs m xseq ts hd)
    exact ⟨hlen, hline, hoff, fun slot hslot k h2 hk => byteAt_encHdrBytes_pad hs m xseq ts hd hslot h2 hk⟩
  · rw [pureOutcome, encHdr, if_pos hn]

/-! ## The outcome of DEC_HDR (R135) -/

@[simp] theorem descsAt_length (c : Cfg) (b : Bytes) (n : Nat) : (descsAt c b n).length = n := by simp [descsAt]

/-- The walk DEC_HDR starts, told by the totals of R101: it stops at the count whose total is the length, if there is
one, and otherwise at the limit or past the end. -/
theorem lengthWalk_start {c : Cfg} (hs : 2 ≤ c.lhSlot) (b : Bytes) :
    let r := lengthWalk c b c.maxLines 0 14 0 []
    (∀ n, n ≤ c.maxLines → walkTotal c b n = b.length → r = .ok (descsAt c b n, 14 + n * c.lhStride)) ∧
    (walkTotal c b c.maxLines < b.length → r = .error (.lineCountExceeded (c.maxLines + 1))) ∧
    ((∀ n, n ≤ c.maxLines → walkTotal c b n ≠ b.length) → b.length < walkTotal c b c.maxLines →
      r = .error (.truncated b.length)) := by
  simpa [descsAt] using lengthWalk_outcome hs b c.maxLines 0 (Nat.zero_add _) fun k hk => absurd hk (Nat.not_lt_zero k)

/-- Settles O6: the two checks come first, and past them the outcome is the walk's. -/
theorem decodeHeaderOutcomeByLengths : Obligations.DecodeHeaderOutcomeByLengths := by
  intro s b hc
  obtain ⟨hfits, hmany, hover⟩ := lengthWalk_start (lhSlot_ge hc) b
  refine ⟨fun h => exec_pure_of_wf hc ?_, fun h hv => exec_pure_of_wf hc ?_, fun h hv =>
    ⟨fun n hn ht => exec_pure_of_wf hc ?_, fun ht => exec_pure_of_wf hc ?_, fun hne ht => exec_pure_of_wf hc ?_⟩⟩
  · rw [pureOutcome, decHdr_short h]
  · rw [pureOutcome, decHdr_version h hv]
  · rw [pureOutcome, decHdr_walk h hv, hfits n hn ht, ← xseq_eq_ofNat, Except.map, hdrFields, descsAt_length]
  · rw [pureOutcome, decHdr_walk h hv, hmany ht, Except.map]
  · rw [pureOutcome, decHdr_walk h hv, hover hne ht, Except.map]

end Sys2Proof.Machine
end

section
/-! SUPPORT. SessionClock (41_sessionclock.md): the two operations of the clock, and the single producer, which is the
running TX_FRAME: it uses up one number for each packet it hands to `Send` (R151, R154). -/

namespace Sys2Proof.Machine

/-! ## The two operations -/

/-- Settles O9: NEXT_SEQ answers the value it has just stored, and under a well-formed CFG nothing stops it. -/
theorem nextSeqIssuesTheSuccessor : Obligations.NextSeqIssuesTheSuccessor := fun s hc =>
  ⟨s.seqLast + 1, BitVec.toNat_add s.seqLast 1, guarded_of_wf hc _⟩

/-- The ticks of a frame index (R152), SAMPLE_RATE being 90000 (R44). -/
theorem tsFrame_toNat {c : Cfg} (hc : c.wf = true) (k : Word) :
    (tsFrame c k).toNat = k.toNat * (90000 / c.frameRate) % 2 ^ 32 := by
  obtain ⟨hrate, -⟩ := (cfg_wf_iff c).1 hc
  rw [tsFrame, BitVec.toNat_ofNat, Cfg.tpf, hrate]

/-- Settles O10: TS_FRAME is pure, and its outcome is the frame index in ticks. -/
theorem tsFrameIsTheFrameIndexInTicks : Obligations.TsFrameIsTheFrameIndexInTicks := fun s k hc =>
  ⟨tsFrame s.cfg k, tsFrame_toNat hc k, exec_pure_of_wf hc rfl⟩

/-! ## The single producer -/

/-- Between the two states some packets were handed to `Send`, and `seq_last` advanced by exactly their number. -/
def OneNumberPerPacket (s t : State) : Prop :=
  ∃ new : List (Bytes × SendAnswer), t.txd = s.txd ++ new ∧ t.seqLast = s.seqLast + BitVec.ofNat 32 new.length

theorem OneNumberPerPacket.of_eq {s t : State} (htxd : t.txd = s.txd) (hseq : t.seqLast = s.seqLast) :
    OneNumberPerPacket s t := ⟨[], by simp [htxd], by simp [hseq]⟩

theorem OneNumberPerPacket.trans {s t u : State} (h : OneNumberPerPacket s t) (k : OneNumberPerPacket t u) :
    OneNumberPerPacket s u := by
  obtain ⟨new, htxd, hseq⟩ := h
  obtain ⟨new', htxd', hseq'⟩ := k
  refine ⟨new ++ new', by rw [htxd', htxd, List.append_assoc], ?_⟩
  rw [hseq', hseq, List.length_append, BitVec.ofNat_add, BitVec.add_assoc]

theorem txFlush_oneNumberPerPacket (m : Bool) (s : State) : OneNumberPerPacket s (txFlush m s).2 :=
  ⟨_, txFlush_txd s m, txFlush_seqLast s m⟩

theorem TxRun.oneNumberPerPacket {s t : State} {frame : Bytes} {rb : Nat} {groups : List (List LineDesc)}
    {g : List LineDesc} {m : Bool} {a : SendAnswer} (h : TxRun s frame rb groups g m a t) : OneNumberPerPacket s t :=
  ⟨_, h.txd, by simpa [sentPackets] using h.seqLast⟩

/-- But for TX_INIT, which loads `seq_last`, and NEXT_SEQ on its own, every instruction pairs numbers and packets. -/
theorem exec_oneNumberPerPacket {i : Instr} {s t : State} (h : exec i s = .next t) (hi : ∀ a b, i ≠ .txInit a b)
    (hq : i ≠ .nextSeq) : OneNumberPerPacket s t :=
  exec_tx_rel .trans (fun _ h => .of_eq h.txd h.seqLast) h (fun a b he => absurd he (hi a b))
    (fun he => absurd he hq) (fun m _ => txFlush_oneNumberPerPacket m s) (fun _ hr => hr.oneNumberPerPacket)

/-- Only TX_FRAME and TX_FLUSH hand packets to `Send` (R167, R252). -/
theorem exec_txd_eq {i : Instr} {s t : State} (h : exec i s = .next t) (hf : ∀ f n w p, i ≠ .txFrame f n w p)
    (hm : ∀ m, i ≠ .txFlush m) : t.txd = s.txd :=
  exec_tx_rel (R := fun s t => t.txd = s.txd) (fun h k => k.trans h) (fun _ h => h.txd) h (fun _ _ _ => rfl)
    (fun _ => rfl) (fun m he => absurd he (hm m)) (fun he _ => absurd he (hf _ _ _ _))

/-- A step uses up the lone call it finds, and none leaves one behind. -/
theorem step_loneCall {s t : State} (h : step s = .next t) : t.loneCall = none := by
  cases step_cases h with
  | lone code ops hl hi hx => exact (exec_sameRest hx).loneCall
  | idle hl hp ht => exact ht ▸ hl
  | reset rest hl hp ht => exact ht ▸ rfl
  | store rest o b hl hp hb ht => exact ht ▸ hl
  | wire rest bs i hl hp hd he hx => exact (exec_sameRest hx).loneCall.trans hl
  | illegal rest port code ops hl hp hm ht => exact ht ▸ hl
  | host rest port code ops u hl hp hm hx ht =>
    rw [ht, setBusy_loneCall, (exec_sameRest hx).loneCall, setBusy_loneCall, hl]

section noLoneCall
variable {s t : State} (h : step s = .next t) (hl : s.loneCall = none)
include h hl

theorem step_oneNumberPerPacket (hreset : served s ≠ some .reset) (hinit : ∀ ops, served s ≠ some (.host .txe 0x1 ops)) :
    OneNumberPerPacket s t :=
  step_rel (fun _ _ => Iff.rfl) h (fun _ => .of_eq rfl rfl) (fun hs => absurd hs hreset)
    (fun _ _ _ _ => .of_eq rfl rfl) fun i u v hi hx => by
      refine exec_oneNumberPerPacket hx (fun a b he => ?_) (fun he => ?_)
      · exact (hi.txInit he).elim hinit
      · obtain ⟨ops, hs⟩ := hi.nextSeq he
        cases hl.symm.trans hs

theorem step_txd_eq (hreset : served s ≠ some .reset) (hframe : ∀ ops, served s ≠ some (.host .txe 0x6 ops)) :
    t.txd = s.txd :=
  step_rel (R := fun s t => t.txd = s.txd) (fun _ _ => Iff.rfl) h (fun _ => rfl) (fun hs => absurd hs hreset)
    (fun _ _ _ _ => rfl) fun i u v hi hx => by
      refine exec_txd_eq hx (fun f n w p he => ?_) (fun m he => ?_)
      · exact (hi.txFrame he).elim hframe
      · obtain ⟨ops, hs⟩ := hi.txFlush he
        cases hl.symm.trans hs

end noLoneCall

/-- `frame_idx` moves only at the reset, HOST's TX_INIT and HOST's TX_FRAME (R22, R151). -/
theorem step_frameIdx_eq {s t : State} (h : step s = .next t) (hreset : served s ≠ some .reset)
    (hinit : ∀ ops, served s ≠ some (.host .txe 0x1 ops)) (hframe : ∀ ops, served s ≠ some (.host .txe 0x6 ops)) :
    t.frameIdx = s.frameIdx := by
  by_contra hne
  obtain hr | ⟨ops, h1 | h6⟩ := (countersMoveOnlyByTheirOperations s t h).1 hne
  · exact hreset hr
  · exact hinit ops h1
  · exact hframe ops h6

/-- Settles O58: numbers and packets go together in every step, and without TX_FRAME there is no packet. -/
theorem numbersGoOnlyToThePacketsOfTxFrame : Obligations.NumbersGoOnlyToThePacketsOfTxFrame := by
  refine fun s t h => ⟨step_loneCall h, fun hl hreset hinit => ?_⟩
  obtain ⟨new, htxd, hseq⟩ := step_oneNumberPerPacket h hl hreset hinit
  refine ⟨new, htxd, ?_, fun hframe => ⟨?_, step_frameIdx_eq h hreset hinit hframe⟩⟩
  · rw [hseq, BitVec.toNat_add, BitVec.toNat_ofNat, Nat.add_mod_mod]
  · exact List.append_right_eq_self.1 (htxd.symm.trans (step_txd_eq h hl hreset hframe))

end Sys2Proof.Machine
end

section
/-! SUPPORT. Packetizer (42_packetizer.md): the packets of a TX_FRAME decode to the descriptors and the data they were
made from, and the claims about a TX_FRAME are read off what its run leaves behind (`TxRun`). -/

namespace Sys2Proof.Machine

/-! ## Places in a frame -/

/-- A row and an offset inside it are told by the byte they name. -/
theorem row_off_unique {rb r o r' o' : Nat} (ho : o < rb) (ho' : o' < rb) (h : r * rb + o = r' * rb + o') :
    r = r' ∧ o = o' := by
  have hrb : 0 < rb := Nat.zero_lt_of_lt ho
  have div_mod {r o : Nat} (ho : o < rb) : (r * rb + o) / rb = r ∧ (r * rb + o) % rb = o :=
    (Nat.div_mod_unique hrb).2 ⟨by rw [Nat.mul_comm, Nat.add_comm], ho⟩
  obtain ⟨hr, hm⟩ := div_mod (r := r) ho
  obtain ⟨hr', hm'⟩ := div_mod (r := r') ho'
  rw [h] at hr hm
  exact ⟨hr.symm.trans hr', hm.symm.trans hm'⟩

/-- Descriptors that take up all bytes from a place in row `row` on go through the rows in order (R170 (b)). -/
theorem coversRows_of_coversBytes {height rb : Nat} : ∀ {ds : List LineDesc} {row off : Nat}, off < rb →
    coversBytes rb (row * rb + off) ds (height * rb) → coversRows height rb row off ds = true := by
  intro ds
  induction ds with
  | nil =>
    intro row off hoff h
    obtain ⟨hrow, hzero⟩ := row_off_unique (r' := height) (o' := 0) hoff (Nat.zero_lt_of_lt hoff) h
    simp [coversRows, hrow, hzero]
  | cons d ds ih =>
    rintro row off hoff ⟨hplace, hfit, hlen, hrest⟩
    obtain ⟨hline, hstart⟩ := row_off_unique (by omega) hoff hplace
    have hrow : row < height := by
      have := coversBytes_length hrest
      exact Nat.lt_of_mul_lt_mul_right (a := rb) (by omega)
    rw [hstart] at hfit
    simp only [coversRows, hrow, hline, hstart, hlen, hfit, decide_true, Bool.true_and]
    split_ifs with hend
    · have hnext : row * rb + off + d.len.toNat = (row + 1) * rb + 0 := by rw [Nat.add_mul, Nat.one_mul]; omega
      exact ih (Nat.zero_lt_of_lt hoff) (hnext ▸ hrest)
    · exact ih (by omega) (by rwa [← Nat.add_assoc])

/-- A stretch of the descriptors takes up a run of bytes of its own. -/
theorem coversBytes_segment {rb p q : Nat} {a b c : List LineDesc} (h : coversBytes rb p (a ++ b ++ c) q) :
    ∃ p' q', coversBytes rb p' b q' ∧ q' ≤ q := by
  obtain ⟨q', hab, hc⟩ := coversBytes_append.1 h
  obtain ⟨p', -, hb⟩ := coversBytes_append.1 hab
  exact ⟨p', q', hb, by have := coversBytes_length hc; omega⟩

theorem coversBytes_of_mem_flatten {rb p q : Nat} {groups : List (List LineDesc)} {g : List LineDesc}
    (h : coversBytes rb p groups.flatten q) (hg : g ∈ groups) : ∃ p' q', coversBytes rb p' g q' ∧ q' ≤ q := by
  obtain ⟨a, b, rfl⟩ := List.append_of_mem hg
  exact coversBytes_segment (a := a.flatten) (c := b.flatten) (by simpa using h)

/-- A descriptor's bytes lie below the end of the run. -/
theorem coversBytes_mem {rb p q : Nat} {ds : List LineDesc} {d : LineDesc} (h : coversBytes rb p ds q) (hd : d ∈ ds) :
    d.line.toNat * rb + d.off.toNat + d.len.toNat ≤ q := by
  obtain ⟨a, b, rfl⟩ := List.append_of_mem hd
  obtain ⟨p', q', ⟨hplace, -, -, hend⟩, hq⟩ := coversBytes_segment (a := a) (b := [d]) (c := b) (by simpa using h)
  have : p' + d.len.toNat = q' := hend
  omega

/-- The descriptor that takes up the last byte of the frame ends the last row (R171). -/
theorem coversBytes_last {height rb p : Nat} {ds : List LineDesc} {d : LineDesc} (hh : 1 ≤ height)
    (h : coversBytes rb p (ds ++ [d]) (height * rb)) :
    d.line.toNat = height - 1 ∧ d.off.toNat + d.len.toNat = rb := by
  obtain ⟨m, -, hplace, hfit, hlen, hend⟩ := coversBytes_append.1 h
  have hend : m + d.len.toNat = height * rb := hend
  have hlast : (height - 1) * rb + rb = height * rb := by rw [← Nat.succ_mul, Nat.succ_eq_add_one, Nat.sub_add_cancel hh]
  obtain ⟨hline, hoff⟩ := row_off_unique (rb := rb) (r := d.line.toNat) (o := d.off.toNat + d.len.toNat - 1)
    (r' := height - 1) (o' := rb - 1) (by omega) (by omega) (by omega)
  exact ⟨hline, by omega⟩

/-! ## The packets of a frame -/

/-- The data of one descriptor (R170 (c)). -/
def fragData (frame : Bytes) (rb : Nat) (d : LineDesc) : Bytes :=
  slice frame (d.line.toNat * rb + d.off.toNat) d.len.toNat

theorem dataOf_eq_flatMap (frame : Bytes) (rb : Nat) (g : List LineDesc) :
    dataOf frame rb g = g.flatMap (fragData frame rb) := rfl

/-- What may be sent as a packet of the frame: a group of descriptors that fits (R169, R170 (a)) and takes up a run of
the frame's bytes. -/
structure FrameGroup (c : Cfg) (frame : Bytes) (rb : Nat) (g : List LineDesc) : Prop extends GroupOk c g where
  covers : ∃ p q, coversBytes rb p g q ∧ q ≤ frame.length

/-- The k-th packet of a TX_FRAME issued in the state `s`, with the descriptors `g` (R166, R167). -/
def framePacket (s : State) (frame : Bytes) (rb k : Nat) (m : Bool) (g : List LineDesc) : Bytes :=
  encPkt s.cfg m (s.seqLast + BitVec.ofNat 32 (k + 1)) (tsFrame s.cfg s.frameIdx) g (dataOf frame rb g)

/-- What DEC_HDR reads from it. -/
def packetFields (s : State) (frame : Bytes) (rb k : Nat) (m : Bool) (g : List LineDesc) : HdrFields :=
  hdrFields (framePacket s frame rb k m g) g (14 + g.length * s.cfg.lhStride)

/-- What DEC_PKT gives for the k-th packet. -/
def decodedPacket (s : State) (frame : Bytes) (rb k : Nat) (m : Bool) (g : List LineDesc) : HdrFields × List Bytes :=
  (packetFields s frame rb k m g, g.map (fragData frame rb))

section packets
variable (s : State) (frame : Bytes) (rb k : Nat) (m : Bool) (g : List LineDesc)

@[simp] theorem packetFields_lines : (packetFields s frame rb k m g).lines = g := rfl
@[simp] theorem packetFields_n : (packetFields s frame rb k m g).n = g.length := rfl
@[simp] theorem packetFields_ds : (packetFields s frame rb k m g).ds = 14 + g.length * s.cfg.lhStride := rfl

@[simp] theorem packetFields_m : (packetFields s frame rb k m g).m = m := by
  simp [packetFields, hdrFields, framePacket, encPkt_word0, txWord0]

@[simp] theorem packetFields_pt : (packetFields s frame rb k m g).pt = s.cfg.payloadType := by
  simp [packetFields, hdrFields, framePacket, encPkt_word0, txWord0]

@[simp] theorem packetFields_ts : (packetFields s frame rb k m g).ts = tsFrame s.cfg s.frameIdx := encPkt_ts ..

@[simp] theorem packetFields_ssrc : (packetFields s frame rb k m g).ssrc = s.cfg.ssrc := encPkt_ssrc ..

@[simp] theorem packetFields_xseq : (packetFields s frame rb k m g).xseq = s.seqLast + BitVec.ofNat 32 (k + 1) := by
  simp [packetFields, hdrFields, framePacket, encPkt_word0, encPkt_ext, txWord0, word_of_halves]

end packets

/-- The data of descriptors laid one after another behind a header is read back piece by piece (R98). -/
theorem descData_flatMap {data : LineDesc → Bytes} : ∀ {ds : List LineDesc} (pre : Bytes),
    (∀ d ∈ ds, (data d).length = d.len.toNat) → descData (pre ++ ds.flatMap data) pre.length ds = ds.map data := by
  intro ds
  induction ds with
  | nil => intro pre _; rfl
  | cons d ds ih =>
    intro pre h
    obtain ⟨hd, hds⟩ := List.forall_mem_cons.1 h
    have hhead : slice (pre ++ (data d ++ ds.flatMap data)) pre.length d.len.toNat = data d := by
      rw [slice, List.drop_left, ← hd, List.take_left]
    have htail := ih (pre ++ data d) hds
    rw [List.length_append, hd, List.append_assoc] at htail
    rw [List.flatMap_cons, descData, hhead, htail, List.map_cons]

section decoding
variable {s : State} {frame : Bytes} {rb : Nat} {g : List LineDesc}

theorem FrameGroup.dataOf_length {c : Cfg} (h : FrameGroup c frame rb g) :
    (dataOf frame rb g).length = lenSum g := by
  obtain ⟨p, q, hc, hq⟩ := h.covers
  exact Machine.dataOf_length hc hq

theorem FrameGroup.fragData_length {c : Cfg} (h : FrameGroup c frame rb g) {d : LineDesc} (hd : d ∈ g) :
    (fragData frame rb d).length = d.len.toNat := by
  obtain ⟨p, q, hc, hq⟩ := h.covers
  exact slice_length _ ((coversBytes_mem hc hd).trans hq)

/-- The length of a packet is the size its accumulator had (R29). -/
theorem FrameGroup.packet_length (h : FrameGroup s.cfg frame rb g) (hc : s.cfg.wf = true) (k : Nat) (m : Bool) :
    (framePacket s frame rb k m g).length = pktSize s.cfg g := by
  rw [framePacket, encPkt_length _ _ _ _ _ _ (lhSlot_ge hc), h.dataOf_length, pktSize, hdrBase]

/-- Every packet has a descriptor with a byte (R170 (a)). -/
theorem FrameGroup.pktSize_ge {c : Cfg} (h : FrameGroup c frame rb g) : 14 + c.lhStride + 1 ≤ pktSize c g := by
  obtain ⟨p, q, hc, -⟩ := h.covers
  have hone : 1 ≤ g.length := List.length_pos_iff.2 h.ne
  have hbytes := coversBytes_count hc
  have hstride : 1 * c.lhStride ≤ g.length * c.lhStride := Nat.mul_le_mul_right _ hone
  simp only [pktSize, hdrBase]
  omega

theorem FrameGroup.decHdr_packet (h : FrameGroup s.cfg frame rb g) (hc : s.cfg.wf = true) (k : Nat) (m : Bool) :
    decHdr s.cfg (framePacket s frame rb k m g) = .ok (packetFields s frame rb k m g) :=
  decHdr_encPkt (lhSlot_ge hc) h.count h.dataOf_length

/-- Decoding a packet gives back its descriptors and the data of each (R114). -/
theorem FrameGroup.decPkt_packet (h : FrameGroup s.cfg frame rb g) (hc : s.cfg.wf = true) (k : Nat) (m : Bool) :
    decPkt s.cfg (framePacket s frame rb k m g) = .ok (decodedPacket s frame rb k m g) := by
  have hdata : descData (framePacket s frame rb k m g) (14 + g.length * s.cfg.lhStride) g =
      g.map (fragData frame rb) := by
    rw [framePacket, encPkt, dataOf_eq_flatMap, ← encHdrBytes_length (lhSlot_ge hc)]
    exact descData_flatMap _ fun d hd => h.fragData_length hd
  simp only [decPkt, h.decHdr_packet hc, packetFields_ds, packetFields_lines, hdata, decodedPacket]

end decoding

/-! ## What a TX_FRAME sends -/

/-- Everything a TX_FRAME hands to `Send`, in order. -/
def runPackets (s : State) (frame : Bytes) (rb : Nat) (groups : List (List LineDesc)) (g : List LineDesc) (m : Bool)
    (a : SendAnswer) : List (Bytes × SendAnswer) :=
  sentPackets s frame rb groups ++ [(framePacket s frame rb groups.length m g, a)]

section run
variable {s t : State} {frame : Bytes} {rb : Nat} {groups : List (List LineDesc)} {g : List LineDesc} {m : Bool}
  {a : SendAnswer}

theorem sentPackets_getElem? (k : Nat) : (sentPackets s frame rb groups)[k]? =
    groups[k]?.map fun g => (framePacket s frame rb k false g, SendAnswer.ok) := List.getElem?_mapIdx

@[simp] theorem sentPackets_length : (sentPackets s frame rb groups).length = groups.length := List.length_mapIdx

@[simp] theorem runPackets_length : (runPackets s frame rb groups g m a).length = groups.length + 1 := by
  simp [runPackets]

/-- A packet sent before the last has M = 0 and was answered `Ok`. -/
theorem mem_sentPackets {e : Bytes × SendAnswer} (he : e ∈ sentPackets s frame rb groups) :
    ∃ k, ∃ g ∈ groups, e = (framePacket s frame rb k false g, .ok) := by
  obtain ⟨k, hk⟩ := List.mem_iff_getElem?.1 he
  rw [sentPackets_getElem?] at hk
  obtain ⟨g, hg, rfl⟩ := Option.map_eq_some_iff.1 hk
  exact ⟨k, g, List.mem_of_getElem? hg, rfl⟩

/-- The k-th packet is made from the k-th group. -/
theorem runPackets_getElem? {k : Nat} {e : Bytes × SendAnswer}
    (he : (runPackets s frame rb groups g m a)[k]? = some e) :
    ∃ m', ∃ g' ∈ groups ++ [g], e.1 = framePacket s frame rb k m' g' := by
  rcases Nat.lt_or_ge k groups.length with hk | hk
  · rw [runPackets, List.getElem?_append_left (by simpa using hk), sentPackets_getElem?] at he
    obtain ⟨g', hg, rfl⟩ := Option.map_eq_some_iff.1 he
    exact ⟨false, g', List.mem_append_left _ (List.mem_of_getElem? hg), rfl⟩
  · rw [runPackets, List.getElem?_append_right (by simpa using hk), sentPackets_length] at he
    rw [List.getElem?_singleton, Option.ite_none_right_eq_some] at he
    obtain ⟨hlast, he⟩ := he
    obtain rfl : k = groups.length := by omega
    exact ⟨m, g, by simp, by rw [← Option.some.inj he]⟩

theorem sentPackets_answered_ok : ∀ e ∈ sentPackets s frame rb groups, e.2 = .ok := by
  intro e he
  obtain ⟨k, g, -, rfl⟩ := mem_sentPackets he
  rfl

theorem sentPackets_answers : (sentPackets s frame rb groups).map Prod.snd = List.replicate groups.length .ok :=
  List.eq_replicate_iff.2 ⟨by simp, List.forall_mem_map.2 sentPackets_answered_ok⟩

section ofRun
variable (h : TxRun s frame rb groups g m a t)
include h

theorem TxRun.txd_eq : t.txd = s.txd ++ runPackets s frame rb groups g m a := h.txd

theorem TxRun.answer_of_count {n : Word} (ho : t.outcome = some (.ok (.packetCount n))) : a = .ok := by
  cases a with
  | ok => rfl
  | ioError => cases (h.failed rfl).symm.trans ho

theorem TxRun.answer_of_failure {n : Word} (ho : t.outcome = some (.err (.transportSend n))) : a = .ioError := by
  cases a with
  | ok => cases (h.done rfl).2.symm.trans ho
  | ioError => rfl

/-- The descriptors of a run that ended `Ok` take up the whole frame (R170 (b), R171). -/
theorem TxRun.covers_frame (ha : a = .ok) : coversBytes rb 0 (groups.flatten ++ g) frame.length := by
  obtain ⟨q, -, hq, hend⟩ := h.covers
  rwa [hend (h.done ha).1] at hq

theorem TxRun.frameGroup {g' : List LineDesc} (hg : g' ∈ groups ++ [g]) : FrameGroup s.cfg frame rb g' := by
  obtain ⟨q, hq, hcovers, -⟩ := h.covers
  have hok : GroupOk s.cfg g' := by
    rcases List.mem_append.1 hg with hg | hg
    · exact h.groupsOk g' hg
    · exact List.mem_singleton.1 hg ▸ h.groupOk
  obtain ⟨p', q', hrun, hle⟩ := coversBytes_of_mem_flatten (groups := groups ++ [g]) (by simpa using hcovers) hg
  exact ⟨hok, p', q', hrun, hle.trans hq⟩

/-- There is at most one packet per byte of the frame. -/
theorem TxRun.packets_le : groups.length + 1 ≤ frame.length := by
  obtain ⟨q, hq, hcovers, -⟩ := h.covers
  have hgroups : (groups ++ [g]).length ≤ (groups ++ [g]).flatten.length := by
    rw [List.length_flatten, ← List.length_map (f := List.length)]
    refine List.length_le_sum_of_one_le _ fun n hn => ?_
    obtain ⟨g', hg', rfl⟩ := List.mem_map.1 hn
    exact List.length_pos_iff.2 (h.frameGroup hg').ne
  have hdescs := coversBytes_count hcovers
  have hbytes := coversBytes_length hcovers
  simp only [List.length_append, List.length_singleton, List.flatten_append, List.flatten_singleton] at hgroups hdescs
  omega

end ofRun
end run

/-! ## The packets decoded (R170) -/

/-- What DEC_PKT gives for each of `runPackets`. -/
def decodedPackets (s : State) (frame : Bytes) (rb : Nat) (groups : List (List LineDesc)) (g : List LineDesc)
    (m : Bool) : List (HdrFields × List Bytes) :=
  groups.mapIdx (decodedPacket s frame rb · false) ++ [decodedPacket s frame rb groups.length m g]

section decoded
variable {s t : State} {frame : Bytes} {rb : Nat} {groups : List (List LineDesc)} {g : List LineDesc} {m : Bool}
  {a : SendAnswer}

/-- The descriptors read in sending order are those of the groups in order. -/
theorem decodedPackets_lines :
    (decodedPackets s frame rb groups g m).flatMap (fun p => p.1.lines) = groups.flatten ++ g := by
  have hfront : (groups.mapIdx (decodedPacket s frame rb · false)).map (fun p => p.1.lines) = groups := by
    ext1 k
    simp [decodedPacket, Function.comp_def]
  rw [decodedPackets, List.flatMap_append, List.flatMap_def, hfront, List.flatMap_singleton, decodedPacket,
    packetFields_lines]

/-- Every packet's descriptors are one of the groups, and its data their fragments of the frame. -/
theorem mem_decodedPackets {p : HdrFields × List Bytes} (hp : p ∈ decodedPackets s frame rb groups g m) :
    ∃ g' ∈ groups ++ [g], p.1.lines = g' ∧ p.1.n = g'.length ∧ p.2 = g'.map (fragData frame rb) := by
  rcases List.mem_append.1 hp with hp | hp
  · obtain ⟨k, hk, rfl⟩ := List.mem_mapIdx.1 hp
    exact ⟨groups[k], by simp, rfl, rfl, rfl⟩
  · obtain rfl := List.mem_singleton.1 hp
    exact ⟨g, by simp, rfl, rfl, rfl⟩

/-- All data together are the data of all descriptors. -/
theorem decodedPackets_data :
    ((decodedPackets s frame rb groups g m).flatMap Prod.snd).flatten = dataOf frame rb (groups.flatten ++ g) := by
  have hdata : (decodedPackets s frame rb groups g m).flatMap Prod.snd =
      (decodedPackets s frame rb groups g m).flatMap fun p => p.1.lines.map (fragData frame rb) := by
    refine List.flatMap_congr fun p hp => ?_
    obtain ⟨g', -, hlines, -, hdata⟩ := mem_decodedPackets hp
    rw [hlines, hdata]
  rw [hdata, ← List.map_flatMap, decodedPackets_lines, dataOf_eq_flatMap, List.flatMap_def]

theorem TxRun.decodes (h : TxRun s frame rb groups g m a t) (hc : s.cfg.wf = true) :
    (runPackets s frame rb groups g m a).map (fun e => decPkt s.cfg e.1) =
      (decodedPackets s frame rb groups g m).map Except.ok := by
  have hdec {g' : List LineDesc} (hg : g' ∈ groups ++ [g]) := (h.frameGroup hg).decPkt_packet hc
  rw [runPackets, decodedPackets, List.map_append, List.map_append, List.map_singleton, List.map_singleton,
    hdec (by simp)]
  congr 1
  ext1 k
  rw [List.getElem?_map, List.getElem?_map, sentPackets_getElem?, List.getElem?_mapIdx]
  cases hk : groups[k]? with
  | none => rfl
  | some g' => exact congrArg some (hdec (List.mem_append_left _ (List.mem_of_getElem? hk)) k false)

end decoded

/-- Settles O22: the groups of a run that ended `Ok` take up the whole frame, and its packets decode to them. -/
theorem fragmentsCoverTheFrameInOrder : Obligations.FragmentsCoverTheFrameInOrder := by
  intro s frame height width bpp hc hv
  obtain ⟨t, groups, g, m, a, hx, hr⟩ := execTxFrame_run hc hv
  refine ⟨t, _, hx, hr.txd_eq, fun n ho => ⟨_, hr.decodes hc, ?_, ?_, fun p hp => ?_⟩⟩
  · have hcovers := hr.covers_frame (hr.answer_of_count ho)
    rw [hv.size] at hcovers
    rw [decodedPackets_lines]
    exact coversRows_of_coversBytes (Nat.mul_pos hv.widthMin hv.bppMin) (by simpa using hcovers)
  · rw [decodedPackets_data, dataOf_covers (hr.covers_frame (hr.answer_of_count ho)), slice, List.drop_zero,
      Nat.sub_zero, List.take_length]
  · obtain ⟨g', hg, hlines, hn, hdata⟩ := mem_decodedPackets hp
    have hok := hr.frameGroup hg
    exact ⟨hn ▸ List.length_pos_iff.2 hok.ne, hn ▸ hok.count, hlines ▸ hdata⟩

/-! ## Counts and answers (R151, R166, R172) -/

/-- A frame with valid arguments has fewer bytes than a 32-bit counter has values (R165). -/
theorem ValidFrame.length_lt {frame : Bytes} {height width bpp : Nat} (hv : ValidFrame frame height width bpp) :
    frame.length < 2 ^ 32 :=
  calc frame.length = height * (width * bpp) := hv.size
    _ ≤ 65536 * 65535 := Nat.mul_le_mul hv.heightMax hv.rowMax
    _ < 2 ^ 32 := by decide

/-- TRANSPORT's answers against those it was given: `n` times `Ok`, then `a`, as far as there are any. -/
theorem answers_in_order {n : Nat} {a : SendAnswer} {given : List SendAnswer} (hok : ∀ x ∈ given.take n, x = .ok)
    (hlast : ∀ x ∈ (given.drop n).take 1, x = a) :
    (List.replicate n SendAnswer.ok ++ [a]).take given.length = given.take (n + 1) := by
  have hfront : given.take n = List.replicate (min given.length n) .ok :=
    List.eq_replicate_iff.2 ⟨by rw [List.length_take, Nat.min_comm], hok⟩
  have hend : (given.drop n).take 1 = List.replicate (min (given.length - n) 1) a :=
    List.eq_replicate_iff.2 ⟨by rw [List.length_take, List.length_drop, Nat.min_comm], hlast⟩
  rw [List.take_add, hfront, hend, List.take_append, List.take_replicate, List.length_replicate,
    ← List.replicate_one, List.take_replicate]

section counts
variable {s t : State} {frame : Bytes} {height width bpp : Nat} {groups : List (List LineDesc)} {g : List LineDesc}
  {m : Bool} {a : SendAnswer} (h : TxRun s frame (width * bpp) groups g m a t)
include h

/-- The packets counted in the outcome do not wrap the counter `tx_sent`. -/
theorem TxRun.count_toNat (hv : ValidFrame frame height width bpp) {n : Nat} (hn : n ≤ groups.length + 1) :
    (BitVec.ofNat 32 n).toNat = n := by
  have := h.packets_le
  have := hv.length_lt
  rw [BitVec.toNat_ofNat]
  exact Nat.mod_eq_of_lt (by omega)

/-- The outcome counts the packets answered `Ok`, and a failure is the last packet's (R166, R234). -/
theorem TxRun.outcome_counts (hv : ValidFrame frame height width bpp) :
    let new := runPackets s frame (width * bpp) groups g m a
    (∃ n : Word, n.toNat = new.length ∧ t.outcome = some (.ok (.packetCount n)) ∧ ∀ e ∈ new, e.2 = .ok) ∨
    (∃ (n : Word) (front : List (Bytes × SendAnswer)) (p : Bytes), new = front ++ [(p, .ioError)] ∧
      n.toNat = front.length ∧ t.outcome = some (.err (.transportSend n)) ∧ ∀ e ∈ front, e.2 = .ok) := by
  cases a with
  | ok =>
    refine .inl ⟨_, (h.count_toNat hv (Nat.le_refl _)).trans runPackets_length.symm, (h.done rfl).2, fun e he => ?_⟩
    rcases List.mem_append.1 he with he | he
    · exact sentPackets_answered_ok e he
    · rw [List.mem_singleton.1 he]
  | ioError =>
    exact .inr ⟨_, sentPackets s frame (width * bpp) groups, _, rfl,
      (h.count_toNat hv (Nat.le_succ _)).trans sentPackets_length.symm, h.failed rfl,
      sentPackets_answered_ok⟩

end counts

/-- Settles O15: what a run leaves behind, with the counters read as numbers. -/
theorem txFrameEndsWithExactCounts : Obligations.TxFrameEndsWithExactCounts := by
  intro s frame height width bpp hc hv
  obtain ⟨t, groups, g, m, a, hx, hr⟩ := execTxFrame_run hc hv
  refine ⟨t, _, hx, hr.txd_eq, by simp [runPackets], hr.outcome_counts hv, ?_, ?_, ?_, ?_, ?_, hr.acc, hr.released,
    hr.txBusy, hr.rx, hr.rest⟩
  · rw [hr.frameIdx, BitVec.toNat_add]
    rfl
  · rw [hr.seqLast, BitVec.toNat_add, BitVec.toNat_ofNat, Nat.add_mod_mod, runPackets_length]
  · rw [hr.seqOvf, runPackets_length]
  · rw [runPackets_length, runPackets, List.map_append, sentPackets_answers]
    exact answers_in_order hr.answered hr.answeredLast
  · rw [hr.answers, runPackets_length]

/-- Settles O18: there are no more packets than answers given, so the last packet's answer is an `Ok` too. -/
theorem txFrameSucceedsOnAWillingTransport : Obligations.TxFrameSucceedsOnAWillingTransport := by
  intro s frame height width bpp rest hc hv hgiven
  obtain ⟨t, groups, g, m, a, hx, hr⟩ := execTxFrame_run hc hv
  have hle := hr.packets_le
  have hok : a = .ok := by
    refine (hr.answeredLast .ok ?_).symm
    obtain ⟨k, hk⟩ := Nat.exists_eq_add_of_le hle
    rw [hgiven, List.drop_append_of_le_length (by rw [List.length_replicate]; omega), List.drop_replicate,
      show frame.length - groups.length = k + 1 by omega]
    simp [List.replicate_succ]
  exact ⟨t, _, _, hx, hr.txd_eq, (hr.count_toNat hv (Nat.le_refl _)).trans runPackets_length.symm, by simp,
    by rwa [runPackets_length], (hr.done hok).2⟩

/-! ## Each packet on its own (R153, R169 to R171) -/

/-- Settles O19: a packet's length is its group's size. -/
theorem packetsRespectTheMtuBudget : Obligations.PacketsRespectTheMtuBudget := by
  intro s frame height width bpp hc hv
  obtain ⟨t, groups, g, m, a, hx, hr⟩ := execTxFrame_run hc hv
  refine ⟨t, _, hx, hr.txd_eq, fun e he => ?_⟩
  obtain ⟨k, hk⟩ := List.mem_iff_getElem?.1 he
  obtain ⟨m', g', hg, hpkt⟩ := runPackets_getElem? hk
  have hgroup := hr.frameGroup hg
  rw [hpkt, hgroup.packet_length hc]
  exact ⟨hgroup.pktSize_ge, hgroup.size⟩

/-- Settles O20: each packet decodes to the fields it was made with. -/
theorem packetsCarryOneTimestampAndConsecutiveNumbers : Obligations.PacketsCarryOneTimestampAndConsecutiveNumbers := by
  intro s frame height width bpp hc hv
  obtain ⟨t, groups, g, m, a, hx, hr⟩ := execTxFrame_run hc hv
  refine ⟨t, _, hx, hr.txd_eq, fun k e hk => ?_⟩
  obtain ⟨m', g', hg, hpkt⟩ := runPackets_getElem? hk
  have hgroup := hr.frameGroup hg
  refine ⟨_, hpkt ▸ hgroup.decHdr_packet hc k m', ?_, ?_, packetFields_ssrc .., packetFields_pt ..,
    List.length_pos_iff.2 hgroup.ne, hgroup.count⟩
  · rw [packetFields_ts, tsFrame, BitVec.toNat_ofNat]
  · rw [packetFields_xseq, BitVec.toNat_add, BitVec.toNat_ofNat, Nat.add_mod_mod, Nat.add_assoc]

section sent
variable {s t : State} {frame : Bytes} {rb : Nat} {groups : List (List LineDesc)} {g : List LineDesc} {m : Bool}
  {a : SendAnswer} (h : TxRun s frame rb groups g m a t) (hc : s.cfg.wf = true)
include h hc

/-- The packets before the last decode with M = 0. -/
theorem TxRun.sent_unmarked {e : Bytes × SendAnswer} (he : e ∈ sentPackets s frame rb groups) :
    ∃ f, decHdr s.cfg e.1 = .ok f ∧ f.m = false := by
  obtain ⟨k, g', hg, rfl⟩ := mem_sentPackets he
  exact ⟨_, (h.frameGroup (List.mem_append_left _ hg)).decHdr_packet hc k false, packetFields_m ..⟩

/-- The packets before the last have no room for a further descriptor with a byte (R168 (e)). -/
theorem TxRun.sent_full {e : Bytes × SendAnswer} (he : e ∈ sentPackets s frame rb groups) :
    ∃ f, decHdr s.cfg e.1 = .ok f ∧ (f.n = s.cfg.maxLines ∨ s.cfg.mtuBudget - e.1.length < s.cfg.lhStride + 1) := by
  obtain ⟨k, g', hg, rfl⟩ := mem_sentPackets he
  have hgroup := h.frameGroup (List.mem_append_left [g] hg)
  refine ⟨_, hgroup.decHdr_packet hc k false, (h.groupsFull g' hg).imp_right fun hroom => ?_⟩
  rw [hgroup.packet_length hc]
  omega

end sent

/-- Settles O21: the last packet's group ends the frame when the run ended `Ok`, and the others were made with M = 0. -/
theorem markerIsOnTheLastPacketOnly : Obligations.MarkerIsOnTheLastPacketOnly := by
  intro s frame height width bpp hc hv
  obtain ⟨t, groups, g, m, a, hx, hr⟩ := execTxFrame_run hc hv
  refine ⟨t, _, hx, hr.txd_eq, fun n ho => ?_, fun n ho e he hok => ?_⟩
  · have ha := hr.answer_of_count ho
    have hgroup := hr.frameGroup (g' := g) (by simp)
    obtain ⟨init, d, rfl⟩ := (List.eq_nil_or_concat' g).resolve_left hgroup.ne
    have hcovers := hr.covers_frame ha
    rw [hv.size, ← List.append_assoc] at hcovers
    obtain ⟨hline, hend⟩ := coversBytes_last hv.heightMin hcovers
    exact ⟨_, _, _, d, rfl, hgroup.decHdr_packet hc _ m, (packetFields_m ..).trans (hr.done ha).1, by simp, hline, hend,
      fun e he => hr.sent_unmarked hc he⟩
  · rcases List.mem_append.1 he with he | he
    · exact hr.sent_unmarked hc he
    · obtain rfl := List.mem_singleton.1 he
      cases (hr.answer_of_failure ho).symm.trans hok

/-- Settles O23: the packets before the last were flushed because they were full. -/
theorem everyPacketButTheLastIsFull : Obligations.EveryPacketButTheLastIsFull := by
  intro s frame height width bpp hc hv
  obtain ⟨t, groups, g, m, a, hx, hr⟩ := execTxFrame_run hc hv
  exact ⟨t, _, _, hx, hr.txd_eq, fun e he => hr.sent_full hc he⟩

/-! ## The argument check and TX_FLUSH (R165, R167) -/

/-- Settles O13: the argument check comes before anything is changed. -/
theorem txFrameRefusesInvalidArguments : Obligations.TxFrameRefusesInvalidArguments := by
  intro s frame height width bpp hc hv
  exact (guarded_of_wf hc _).trans (if_neg (mt (txArgsOk_iff ..).1 hv))

/-- `Send` takes the next answer given, or draws a free one (U16). -/
theorem send_eq (b : Bytes) (s : State) : (send b s).2 = { s with
    txd := s.txd ++ [(b, (send b s).1)]
    sendAnswers := s.sendAnswers.tail
    txFree := if s.sendAnswers = [] then s.txFree + 1 else s.txFree } := by
  unfold send
  split <;> simp_all

theorem send_answer_head (b : Bytes) {s : State} {a : SendAnswer} (h : s.sendAnswers.head? = some a) :
    (send b s).1 = a := by
  obtain ⟨rest, hs⟩ := List.head?_eq_some_iff.1 h
  simp [send, hs]

theorem flushOutcome_eq (a : SendAnswer) :
    flushOutcome a = if a = .ok then .ok .unit else .err .transportFlush := by
  cases a <;> rfl

/-- Settles O14: ENC_HDR cannot fail on what the accumulator holds, and the rest is what `Send` does. -/
theorem txFlushSendsTheAccumulator : Obligations.TxFlushSendsTheAccumulator := by
  intro s m hc hn
  have hfits : ¬ s.cfg.maxLines < (s.accLh.take s.accN).length :=
    Nat.not_lt_of_le ((List.length_take_le _ _).trans hn)
  refine ⟨_, (txFlush m s).1, _, if_neg hfits, fun b hb => send_answer_head _ hb, rfl, ?_⟩
  refine (guarded_of_wf hc _).trans (congrArg Host.Outcome.next ?_)
  simp only [deliver, flushOutcome_eq, txFlush, accClear, send_eq, nextSeq, seqOvfAfter]
  rfl

end Sys2Proof.Machine
end

section
/-! SUPPORT. RXE's operations one by one: what RX_DGRAM answers for a datagram that decodes and for one that does not
(43_depacketizer.md R191 to R196), what RX_FRAME does at each answer of TRANSPORT and that it ends (R190), the two ways
to discard a partial frame (R197, R198), and the hardware reset as RXE sees it (R196). -/

namespace Sys2Proof.Machine

/-! ## RX_DGRAM (R191) -/

theorem exec_rxDgram {s : State} (hc : s.cfg.wf = true) (b : Bytes) :
    exec (.rxDgram b) s = .next (deliver (.ok (rxDgram b s).1) (rxDgram b s).2) := guarded_of_wf hc _

/-- Settles O24: the datagram is dropped before any of the three steps. -/
theorem undecodableDatagramChangesNothing : Obligations.UndecodableDatagramChangesNothing := by
  intro s b e hc hd
  rw [exec_rxDgram hc, rxDgram_error hd]
  rfl

/-- The state after RX_DGRAM of a datagram that decodes to `f`. -/
def rxDecoded (b : Bytes) (f : HdrFields) (s : State) : State :=
  if f.m then deliver (.ok (.frameDone (incompleteFlag (rxAccepted b f s)))) (rxFrameBoundary (rxAccepted b f s))
  else deliver (.ok .accepted) (rxAccepted b f s)

theorem exec_rxDgram_decoded {b : Bytes} {f : HdrFields} {s : State} (hc : s.cfg.wf = true)
    (hd : decHdr s.cfg b = .ok f) : exec (.rxDgram b) s = .next (rxDecoded b f s) := by
  rw [exec_rxDgram hc, rxDecoded]
  cases hm : f.m with
  | false => rw [rxDgram_open hd hm, if_neg Bool.false_ne_true]
  | true => rw [rxDgram_marker hd hm, if_pos rfl]

section decoded
variable (b : Bytes) (f : HdrFields) (s : State)

theorem rxDecoded_open {f : HdrFields} (hm : f.m = false) :
    rxDecoded b f s = deliver (.ok .accepted) (rxAccepted b f s) := by
  rw [rxDecoded, hm, if_neg Bool.false_ne_true]

theorem rxDecoded_marker {f : HdrFields} (hm : f.m = true) : rxDecoded b f s =
    deliver (.ok (.frameDone (incompleteFlag (rxAccepted b f s)))) (rxFrameBoundary (rxAccepted b f s)) := if_pos hm

@[simp] theorem rxDecoded_asm : (rxDecoded b f s).asm = (rxAccepted b f s).asm := by unfold rxDecoded; split <;> rfl
@[simp] theorem rxDecoded_diag : (rxDecoded b f s).diag = (rxAccepted b f s).diag := by
  unfold rxDecoded; split <;> rfl
@[simp] theorem rxDecoded_rxSeqValid : (rxDecoded b f s).rxSeqValid = (rxAccepted b f s).rxSeqValid := by
  unfold rxDecoded; split <;> rfl
@[simp] theorem rxDecoded_rxExtHi : (rxDecoded b f s).rxExtHi = (rxAccepted b f s).rxExtHi := by
  unfold rxDecoded; split <;> rfl

end decoded

/-- Settles O25: without a marker the state is the acceptance's, with one the frame boundary's, and neither touches what
is not RXE's own. -/
theorem acceptedDatagramMovesTheStateMachine : Obligations.AcceptedDatagramMovesTheStateMachine := by
  intro s b f hc hd
  have hx := exec_rxDgram hc b
  have hkept := rxDgram_kept b s
  refine ⟨_, hx, fun hm => ?_, fun hm => ?_, exec_sameTx hx (by simp [engineOf]), exec_sameRest hx, hkept.rxBusy,
    hkept.recvAnswers, hkept.recvLog, hkept.rxFree⟩
  · rw [rxDgram_open hd hm]
    exact ⟨rfl, rxAccepted_rxState b f s⟩
  · rw [rxDgram_marker hd hm]
    exact ⟨⟨_, rfl⟩, rfl, rfl, rfl⟩

/-- Settles O27: ASM is the acceptance's, whatever the marker. -/
theorem assemblyBufferHoldsTheLastCoveringByte : Obligations.AssemblyBufferHoldsTheLastCoveringByte := by
  intro s b f hc hd
  refine ⟨_, exec_rxDgram_decoded hc hd, fun a => ?_⟩
  rw [rxDecoded_asm, rxAccepted_memRead b f s (decHdr_ok hd).1]

/-! ### The sequence step (R193) -/

theorem seqGap_iff {s : State} {q : Word} :
    seqGap s q = true ↔ s.rxSeqValid = true ∧ s.rxExtHi.toNat + 1 < q.toNat := by
  simp [seqGap]

/-- The descriptors report no sequence gap (R237 to R239). -/
theorem fragEvents_ne_seqGap {c : Cfg} {w : List Nat} : ∀ {ds before : List LineDesc} {e : DiagEvent},
    e ∈ fragEvents c w before ds → ∀ x y, e ≠ .seqGap x y := by
  intro ds
  induction ds with
  | nil => intro before e he; cases he
  | cons d ds ih =>
    intro before e he
    rcases List.mem_append.1 he with he | he
    · unfold fragEvent at he
      split_ifs at he
      · simp [List.mem_singleton.1 he]
      · cases he
      · simp [List.mem_singleton.1 he]
    · exact ih he

/-- Where a number was seen, `rx_ext_hi` becomes the larger of the two. -/
theorem rxAccepted_rxExtHi_max {b : Bytes} {f : HdrFields} {s : State} (hv : s.rxSeqValid = true) :
    (rxAccepted b f s).rxExtHi.toNat = max s.rxExtHi.toNat f.xseq.toNat := by
  rw [rxAccepted_rxExtHi]
  by_cases h : s.rxExtHi.toNat < f.xseq.toNat
  · rw [if_pos (by simp [seqAdvances, h]), Nat.max_eq_right h.le]
  · rw [if_neg (by simp [seqAdvances, hv, h]), Nat.max_eq_left (Nat.le_of_not_lt h)]

theorem rxAccepted_rxExtHi_first {b : Bytes} {f : HdrFields} {s : State} (hv : s.rxSeqValid = false) :
    (rxAccepted b f s).rxExtHi = f.xseq := by
  rw [rxAccepted_rxExtHi, if_pos (by simp [seqAdvances, hv])]

/-- Settles O26: the events of the acceptance are the gap's, if there is one, and then the descriptors'. -/
theorem sequenceGapsAreNoticedOnce : Obligations.SequenceGapsAreNoticedOnce := by
  intro s b f hc hd
  refine ⟨_, fragEvents s.cfg s.rxWritten [] f.lines, exec_rxDgram_decoded hc hd, ?_, fun hv => ?_, fun hv => ?_,
    fun e he => fragEvents_ne_seqGap he, fun hgap => ?_, fun hgap => ?_⟩
  · rw [rxDecoded_rxSeqValid, rxAccepted_rxSeqValid]
  · rw [rxDecoded_rxExtHi, rxAccepted_rxExtHi_first hv]
  · rw [rxDecoded_rxExtHi, rxAccepted_rxExtHi_max hv]
  · have hg : seqGap s f.xseq = true := seqGap_iff.2 hgap
    refine ⟨by rw [rxDecoded_diag, rxAccepted_diag, if_pos hg], fun hm => ?_⟩
    rw [rxDecoded_open b s hm, deliver_rxGap, rxAccepted_rxGap, hg, Bool.or_true]
  · have hg : seqGap s f.xseq = false := Bool.eq_false_iff.2 (mt seqGap_iff.1 hgap)
    refine ⟨by rw [rxDecoded_diag, rxAccepted_diag, hg]; simp, fun hm => ?_⟩
    rw [rxDecoded_open b s hm, deliver_rxGap, rxAccepted_rxGap, hg, Bool.or_false]

/-! ### The `incomplete` flag (R195) -/

/-- The flag, where `rx_written` is a set of offsets of ASM (R36). -/
theorem incompleteFlag_iff {s : State} (hrise : setRisingFrom 0 s.rxWritten = true)
    (hlt : s.cfg.rxValidate = true → ∀ k ∈ s.rxWritten, k < s.cfg.rxSize) : incompleteFlag s = true ↔
      s.rxGap = true ∨ (s.cfg.rxValidate = true ∧ ∃ k, k < s.cfg.rxSize ∧ k ∉ s.rxWritten) := by
  rw [incompleteFlag, Bool.or_eq_true, Bool.and_eq_true, fullyWritten]
  refine or_congr_right (and_congr_right fun hv => ?_)
  rw [Bool.not_eq_true', beq_eq_false_iff_ne, Ne, rising_eq_range_iff hrise (hlt hv)]
  push Not
  rfl

/-- An accepted datagram records offsets of ASM only (R192). -/
theorem rxAccepted_rxWritten_lt {b : Bytes} {f : HdrFields} {s : State} (hv : s.cfg.rxValidate = true)
    (hlt : ∀ k ∈ s.rxWritten, k < s.cfg.rxSize) : ∀ k ∈ (rxAccepted b f s).rxWritten, k < s.cfg.rxSize := by
  intro k hk
  rcases (mem_rxAccepted_rxWritten b f s hv k).1 hk with hk | hk
  · exact hlt k hk
  · obtain ⟨d, -, hcov⟩ := List.any_eq_true.1 hk
    exact fragCovers_lt hcov

/-- Settles O30: the flag is read after the acceptance, whose gap flag and written set are known. -/
theorem incompleteFlagTellsGapsAndMissingBytes : Obligations.IncompleteFlagTellsGapsAndMissingBytes := by
  intro s b f hc hd hm hrise hlt
  refine ⟨_, _, exec_rxDgram_decoded hc hd, congrArg State.outcome (rxDecoded_marker b s hm), ?_⟩
  rw [incompleteFlag_iff (rxAccepted_rising b f s hrise)
    (by rw [rxAccepted_cfg]; exact fun hv => rxAccepted_rxWritten_lt hv hlt), rxAccepted_rxGap, Bool.or_eq_true,
    seqGap_iff, rxAccepted_cfg, or_assoc]
  refine or_congr_right (or_congr_right (and_congr_right fun hv => exists_congr fun k => and_congr_right fun _ => ?_))
  rw [mem_rxAccepted_rxWritten b f s hv, not_or, Bool.not_eq_true]

/-! ## RX_EXPIRE, RX_IOERR and the hardware reset (R196 to R198) -/

/-- Settles O31: the frame boundary is all RX_EXPIRE does. -/
theorem expireDiscardsThePartialFrame : Obligations.ExpireDiscardsThePartialFrame := fun _ hc => guarded_of_wf hc _

/-- Settles O32: the frame boundary is all RX_IOERR does. -/
theorem ioErrorDiscardsThePartialFrame : Obligations.IoErrorDiscardsThePartialFrame := fun _ hc => guarded_of_wf hc _

/-- Settles O48: the request is served by the reset, which writes neither what is pending nor TRANSPORT's answers. -/
theorem hardwareResetAnswersOkAndKeepsTheInputs : Obligations.HardwareResetAnswersOkAndKeepsTheInputs :=
  fun _ _ hl hp => ⟨_, step_serves hl hp, rfl, rfl, rfl, rfl, rfl, rfl, rfl⟩

/-! ## RX_FRAME (R190) -/

section rxLoop
variable {timeout : Nat} {b : Bytes} {rest : List RecvAnswer} {s : State}

/-- A datagram that ends the frame ends RX_FRAME. -/
theorem rxLoop_frameDone {inc : Bool}
    (h : (rxDgram b (recvAnswered timeout (.dgram b) rest s)).1 = .frameDone inc) :
    rxLoop timeout (.dgram b :: rest) s =
      (.ok (.completeFrame inc), (rxDgram b (recvAnswered timeout (.dgram b) rest s)).2) := by
  rw [rxLoop]
  rcases hr : rxDgram b (recvAnswered timeout (.dgram b) rest s) with ⟨v, t⟩
  rw [hr] at h
  obtain rfl : v = .frameDone inc := h
  rfl

/-- After any other datagram RX_FRAME goes on. -/
theorem rxLoop_goes_on (h : ∀ inc, (rxDgram b (recvAnswered timeout (.dgram b) rest s)).1 ≠ .frameDone inc) :
    rxLoop timeout (.dgram b :: rest) s =
      rxLoop timeout rest (rxDgram b (recvAnswered timeout (.dgram b) rest s)).2 := by
  rw [rxLoop]
  rcases hr : rxDgram b (recvAnswered timeout (.dgram b) rest s) with ⟨v, t⟩
  rw [hr] at h
  cases v with
  | frameDone inc => exact absurd rfl (h inc)
  | _ => rfl

end rxLoop

theorem exec_rxFrame {s : State} (hc : s.cfg.wf = true) (timeout : Nat) : exec (.rxFrame timeout) s =
    .next (deliver (rxLoop timeout s.recvAnswers s).1 (rxLoop timeout s.recvAnswers s).2) := execRxFrame_eq hc timeout

/-- A state that differs from `s` in CFG, RXE and the outcome alone is its own answer over `s`. -/
theorem rxAnswer_of_same {s t : State} (h : SameTx s t) (hr : SameRest s t) : rxAnswer s t = t := by
  unfold rxAnswer rxOver
  rw [← h.seqLast, ← h.frameIdx, ← h.seqOvf, ← h.txBusy, ← h.txTs, ← h.txRow, ← h.txOff, ← h.txSent, ← h.accN,
    ← h.accSize, ← h.accLh, ← h.accData, ← h.txd, ← h.frame, ← h.sendAnswers, ← h.txFree, ← hr.pending, ← hr.loneCall]

/-- An RXE operation does not look at the outcome of the operation before it. -/
theorem exec_rxe_deliver {i : Instr} {s t : State} (he : engineOf i = some .rxe) (o : OpOutcome)
    (h : exec i s = .next t) : exec i (deliver o s) = .next t := by
  have hover : exec i (deliver o s) = mapNext (rxAnswer s) (exec i s) := exec_rxOver (deliver o s) he s
  rw [hover, h, mapNext, rxAnswer_of_same (exec_sameTx h (by rw [he]; decide)) (exec_sameRest h)]

/-- Settles O33: the answers that end RX_FRAME end its loop at once, and after a datagram the loop goes on from what
RX_DGRAM left. -/
theorem receiveFrameFollowsTransport : Obligations.ReceiveFrameFollowsTransport := by
  intro s timeout rest hc
  refine ⟨?_, fun ha => ?_, fun b ha =>
    ⟨_, exec_rxDgram (s := recvAnswered timeout (.dgram b) rest s) hc b, fun inc ho => ?_, fun ho => ?_⟩⟩
  · rintro (ha | ⟨ha, rfl⟩)
    · rw [exec_rxFrame hc, ha]; rfl
    · rw [exec_rxFrame hc, ha]; rfl
  · rw [exec_rxFrame hc, ha]; rfl
  · have hdone : (rxDgram b (recvAnswered timeout (.dgram b) rest s)).1 = .frameDone inc := by simpa using ho
    rw [exec_rxFrame hc, ha, rxLoop_frameDone hdone]
    rfl
  · have hkept := rxDgram_kept b (recvAnswered timeout (.dgram b) rest s)
    have hmore : ∀ inc, (rxDgram b (recvAnswered timeout (.dgram b) rest s)).1 ≠ .frameDone inc := by simpa using ho
    have hx := exec_rxFrame (hkept.rest.cfg ▸ hc) timeout
    rw [hkept.recvAnswers] at hx
    rw [exec_rxFrame hc, ha, rxLoop_goes_on hmore]
    exact (exec_rxe_deliver rfl _ hx).symm

/-! ### RX_FRAME ends (R138, R190) -/

/-- Between two frames on receive (R195, R197, R198). -/
structure RxBetweenFrames (s : State) : Prop where
  rxState : s.rxState = .idle
  rxGap : s.rxGap = false
  rxWritten : s.rxWritten = []

theorem rxFrameBoundary_between (s : State) : RxBetweenFrames (rxFrameBoundary s) := ⟨rfl, rfl, rfl⟩

theorem rxDgram_frameDone_between {b : Bytes} {s : State} {inc : Bool} (h : (rxDgram b s).1 = .frameDone inc) :
    RxBetweenFrames (rxDgram b s).2 := by
  cases hd : decHdr s.cfg b with
  | error e => rw [rxDgram_error hd] at h; cases h
  | ok f =>
    cases hm : f.m with
    | false => rw [rxDgram_open hd hm] at h; cases h
    | true => rw [rxDgram_marker hd hm]; exact rxFrameBoundary_between _

/-- How the loop of RX_FRAME ends, with these answers waiting. -/
structure RxLoopEnd (answers : List RecvAnswer) (r : OpOutcome × State) : Prop where
  outcome : (∃ inc, r.1 = .ok (.completeFrame inc)) ∨ r.1 = .err .timeout ∨ r.1 = .err .transportRecv
  between : RxBetweenFrames r.2
  answersUsed : r.2.recvAnswers.length ≤ answers.length

theorem rxLoop_ends (timeout : Nat) : ∀ (answers : List RecvAnswer) (s : State),
    RxLoopEnd answers (rxLoop timeout answers s) := by
  intro answers
  induction answers with
  | nil => exact fun s => ⟨.inr (.inl rfl), rxFrameBoundary_between _, Nat.le_refl _⟩
  | cons a rest ih =>
    intro s
    cases a with
    | timeout => exact ⟨.inr (.inl rfl), rxFrameBoundary_between _, Nat.le_succ _⟩
    | ioError => exact ⟨.inr (.inr rfl), rxFrameBoundary_between _, Nat.le_succ _⟩
    | dgram b =>
      by_cases hdone : ∃ inc, (rxDgram b (recvAnswered timeout (.dgram b) rest s)).1 = .frameDone inc
      · obtain ⟨inc, hinc⟩ := hdone
        rw [rxLoop_frameDone hinc]
        refine ⟨.inl ⟨inc, rfl⟩, rxDgram_frameDone_between hinc, ?_⟩
        rw [(rxDgram_kept b _).recvAnswers]
        exact Nat.le_succ _
      · rw [rxLoop_goes_on (not_exists.1 hdone)]
        obtain ⟨hout, hbetween, hused⟩ := ih (rxDgram b (recvAnswered timeout (.dgram b) rest s)).2
        exact ⟨hout, hbetween, hused.trans (Nat.le_succ _)⟩

/-- Neither RX_DGRAM nor a frame boundary draws a free value. -/
theorem rxLoop_rxFree (timeout : Nat) (answers : List RecvAnswer) (s : State) :
    (rxLoop timeout answers s).2.rxFree = s.rxFree :=
  rxLoop_rel (fun s t => t.rxFree = s.rxFree) (fun _ _ _ h k => k.trans h) (fun _ _ _ _ => rfl)
    (fun b s => (rxDgram_kept b s).rxFree) (fun _ => rfl) timeout answers s

/-- Settles O34: the loop goes down the answers, and each way out of it is a frame boundary. -/
theorem receiveFrameAlwaysEnds : Obligations.ReceiveFrameAlwaysEnds := by
  intro s timeout hc
  have hx := exec_rxFrame hc timeout
  obtain ⟨hout, ⟨hstate, hgap, hwritten⟩, hused⟩ := rxLoop_ends timeout s.recvAnswers s
  refine ⟨_, hx, ?_, hstate, hgap, hwritten, exec_sameTx hx (by simp [engineOf]), exec_sameRest hx, hused,
    (exec_busy hx).2, rxLoop_rxFree timeout _ s⟩
  simpa using hout

end Sys2Proof.Machine
end

section
/-! SUPPORT. A frame received part by part (43_depacketizer.md R200): the packets of a TX_FRAME decode on a receiver of
the same geometry to fragments that lie side by side in its frame, so whatever the order in which they come, none of
their bytes is lost or written twice, and the sequence numbers alone decide what is reported. -/

namespace Sys2Proof.Machine

/-! ## A receiver that reads what the sender writes (R135) -/

/-- With the sender's RTP_VERSION and LH_SLOT and at least its MAX_LINES a receiver decodes what the sender encodes. -/
structure Reads (r c : Cfg) : Prop where
  rtpVersion : r.rtpVersion = c.rtpVersion
  lhSlot : r.lhSlot = c.lhSlot
  maxLines : c.maxLines ≤ r.maxLines

/-- A walk that ends well has reached the end of the datagram, or reads one descriptor more. -/
theorem lengthWalk_ok_cases {c : Cfg} {b : Bytes} {left n pos dsum : Nat} {ls : List LineDesc}
    {x : List LineDesc × Nat} (h : lengthWalk c b left n pos dsum ls = .ok x) :
    (pos + dsum = b.length ∧ x = (ls, pos)) ∨
    ∃ k, left = k + 1 ∧ pos + dsum < b.length ∧ pos + c.lhStride ≤ b.length ∧
      lengthWalk c b k (n + 1) (pos + c.lhStride) (dsum + (readDesc c b pos).len.toNat) (ls ++ [readDesc c b pos]) =
        .ok x := by
  rcases Nat.lt_trichotomy (pos + dsum) b.length with hlt | heq | hgt
  · cases left with
    | zero => rw [lengthWalk_tooMany hlt] at h; cases h
    | succ k =>
      by_cases hp : pos + c.lhStride ≤ b.length
      · exact .inr ⟨k, rfl, hlt, hp, lengthWalk_next hlt hp ▸ h⟩
      · rw [lengthWalk_partial hlt (Nat.lt_of_not_le hp)] at h; cases h
  · rw [lengthWalk_fits heq] at h
    exact .inl ⟨heq, (Except.ok.inj h).symm⟩
  · rw [lengthWalk_overrun hgt] at h; cases h

section reads
variable {r c : Cfg} (h : Reads r c) {b : Bytes}
include h

theorem Reads.lhStride : r.lhStride = c.lhStride := by rw [Cfg.lhStride, Cfg.lhStride, h.lhSlot]

theorem Reads.readDesc (pos : Nat) : readDesc r b pos = readDesc c b pos := by
  rw [Machine.readDesc, Machine.readDesc, h.lhSlot]

/-- A walk that ends well does so with more descriptors allowed too. -/
theorem Reads.lengthWalk : ∀ {left left' n pos dsum : Nat} {ls : List LineDesc} {x : List LineDesc × Nat},
    left ≤ left' → lengthWalk c b left n pos dsum ls = .ok x → lengthWalk r b left' n pos dsum ls = .ok x := by
  intro left
  induction left with
  | zero =>
    intro left' n pos dsum ls x _ hw
    rcases lengthWalk_ok_cases hw with ⟨hend, rfl⟩ | ⟨k, hk, -⟩
    · exact lengthWalk_fits hend
    · cases hk
  | succ left ih =>
    intro left' n pos dsum ls x hle hw
    obtain ⟨left', rfl⟩ : ∃ k, left' = k + 1 := ⟨left' - 1, by omega⟩
    rcases lengthWalk_ok_cases hw with ⟨hend, rfl⟩ | ⟨k, hk, hmore, hp, hnext⟩
    · exact lengthWalk_fits hend
    · obtain rfl := Nat.succ.inj hk
      rw [lengthWalk_next hmore (h.lhStride ▸ hp), h.readDesc, h.lhStride]
      exact ih (Nat.le_of_succ_le_succ hle) hnext

theorem Reads.decHdr {f : HdrFields} (hd : decHdr c b = .ok f) : decHdr r b = .ok f := by
  have hlen : 14 ≤ b.length := by
    by_contra hshort
    rw [decHdr_short (Nat.lt_of_not_le hshort)] at hd
    cases hd
  have hv : word0V (rd32 b 0) = c.rtpVersion := by
    by_contra hother
    rw [decHdr_version hlen hother] at hd
    cases hd
  rw [decHdr_walk hlen hv] at hd
  rw [decHdr_walk hlen (hv.trans h.rtpVersion.symm)]
  cases hw : Machine.lengthWalk c b c.maxLines 0 14 0 [] with
  | error e => rw [hw] at hd; cases hd
  | ok x => rw [h.lengthWalk h.maxLines hw, ← hd, hw]

end reads

/-! ## Descriptors that take up a run of bytes, as the receiver sees them (R68, R192) -/

/-- One of the descriptors covers offset a. -/
def groupCovers (c : Cfg) (g : List LineDesc) (a : Nat) : Bool := g.any fun d => fragCovers c d a

/-- No offset is covered by both. -/
def GroupsDisjoint (c : Cfg) (g g' : List LineDesc) : Prop :=
  ∀ a, ¬ (groupCovers c g a = true ∧ groupCovers c g' a = true)

theorem GroupsDisjoint.symm {c : Cfg} {g g' : List LineDesc} (h : GroupsDisjoint c g g') : GroupsDisjoint c g' g :=
  fun a hc => h a hc.symm

theorem groupCovers_cons (c : Cfg) (d : LineDesc) (ds : List LineDesc) (a : Nat) :
    groupCovers c (d :: ds) a = true ↔ fragCovers c d a = true ∨ groupCovers c ds a = true := by
  rw [groupCovers, List.any_cons, Bool.or_eq_true]
  rfl

theorem groupCovers_append (c : Cfg) (g g' : List LineDesc) (a : Nat) :
    groupCovers c (g ++ g') a = true ↔ groupCovers c g a = true ∨ groupCovers c g' a = true := by
  rw [groupCovers, List.any_append, Bool.or_eq_true]
  rfl

theorem groupCovers_flatten {c : Cfg} {gs : List (List LineDesc)} {a : Nat} :
    groupCovers c gs.flatten a = true ↔ ∃ g ∈ gs, groupCovers c g a = true := by
  rw [groupCovers, List.any_flatten, List.any_eq_true]
  rfl

section run
variable {c : Cfg}

/-- A descriptor whose place and length lie in a frame of RX_HEIGHT rows passes the bounds check. -/
theorem fragInFrame_of_place {d : LineDesc} (hfit : d.off.toNat + d.len.toNat ≤ c.rxStride) (hlen : 1 ≤ d.len.toNat)
    (hend : fragAddr c d + d.len.toNat ≤ c.rxSize) : fragInFrame c d = true := by
  have hline : d.line.toNat < c.rxHeight := by
    refine Nat.lt_of_mul_lt_mul_right (a := c.rxStride) ?_
    simp only [fragAddr, Cfg.rxSize] at hend
    omega
  simp [fragInFrame, hline, hfit]

/-- The first descriptor of a run: it passes the bounds check, and it covers its own bytes. -/
theorem coversBytes_head {d : LineDesc} {ds : List LineDesc} {p q : Nat} (h : coversBytes c.rxStride p (d :: ds) q)
    (hq : q ≤ c.rxSize) : fragAddr c d = p ∧ fragInFrame c d = true ∧
      (∀ a, fragCovers c d a = true ↔ p ≤ a ∧ a < p + d.len.toNat) ∧ p + d.len.toNat ≤ q := by
  obtain ⟨hplace, hfit, hlen, hrest⟩ := h
  have hplace : fragAddr c d = p := hplace
  have hle : p + d.len.toNat ≤ q := by rw [coversBytes_length hrest]; exact Nat.le_add_right _ _
  have hin : fragInFrame c d = true := fragInFrame_of_place hfit hlen (by omega)
  refine ⟨hplace, hin, fun a => ?_, hle⟩
  rw [fragCovers_iff, hplace, hin, eq_self, true_and]

/-- The offsets that a run of descriptors covers are those of the run. -/
theorem coversBytes_groupCovers {g : List LineDesc} : ∀ {p q : Nat}, coversBytes c.rxStride p g q → q ≤ c.rxSize →
    ∀ a, groupCovers c g a = true ↔ p ≤ a ∧ a < q := by
  induction g with
  | nil =>
    rintro p q rfl - a
    simp only [groupCovers, List.any_nil, Bool.false_eq_true, false_iff]
    omega
  | cons d ds ih =>
    intro p q h hq a
    obtain ⟨-, -, hcov, hle⟩ := coversBytes_head h hq
    rw [groupCovers_cons, hcov, ih h.2.2.2 hq]
    omega

/-- The byte that a run of descriptors brings to each of its offsets, the run's data starting at `start`. -/
theorem coversBytes_lastCovering {b : Bytes} {g : List LineDesc} : ∀ {p q start : Nat},
    coversBytes c.rxStride p g q → q ≤ c.rxSize → ∀ a,
      lastCovering c b start g a = if p ≤ a ∧ a < q then some (byteAt b (start + (a - p))) else none := by
  induction g with
  | nil =>
    rintro p q start rfl - a
    rw [if_neg (by omega)]
    rfl
  | cons d ds ih =>
    intro p q start h hq a
    obtain ⟨hplace, -, hcov, hle⟩ := coversBytes_head h hq
    rw [lastCovering, ih h.2.2.2 hq, hplace]
    by_cases hin : p + d.len.toNat ≤ a ∧ a < q
    · have hwhole : p ≤ a ∧ a < q := by omega
      rw [if_pos hin, if_pos hwhole, Option.some_or,
        show start + d.len.toNat + (a - (p + d.len.toNat)) = start + (a - p) by omega]
    · rw [if_neg hin, Option.none_or]
      exact if_congr ((hcov a).trans (by omega)) rfl rfl

/-- A run of descriptors over offsets not written before, in the frame or by descriptors before it, reports nothing. -/
theorem coversBytes_fragEvents {w : List Nat} {g : List LineDesc} : ∀ {p q : Nat} {before : List LineDesc},
    coversBytes c.rxStride p g q → q ≤ c.rxSize →
    (∀ k, p ≤ k → k < q → k ∉ w ∧ groupCovers c before k = false) → fragEvents c w before g = [] := by
  induction g with
  | nil => intros; rfl
  | cons d ds ih =>
    intro p q before h hq hfresh
    obtain ⟨hplace, hin, hcov, hle⟩ := coversBytes_head h hq
    have hhead : fragEvent c w before before.length d = [] := by
      rw [fragEvent, if_pos hin, if_neg]
      rw [Bool.and_eq_true, List.any_eq_true]
      rintro ⟨-, k, hk, hmeets⟩
      obtain ⟨hw, hb⟩ := hfresh (p + k) (Nat.le_add_right p k) (by rw [List.mem_range] at hk; omega)
      rw [hplace, Bool.or_eq_true, List.contains_iff_mem] at hmeets
      rcases hmeets with hmeets | hmeets
      · exact hw hmeets
      · exact Bool.false_ne_true (hb.symm.trans hmeets)
    rw [fragEvents, hhead, List.nil_append]
    refine ih h.2.2.2 hq fun k hk hkq => ⟨(hfresh k (by omega) hkq).1, ?_⟩
    rw [Bool.eq_false_iff, Ne, groupCovers_append, groupCovers_cons, hcov]
    rintro (hb | hd | hnil)
    · exact Bool.false_ne_true ((hfresh k (by omega) hkq).2.symm.trans hb)
    · omega
    · cases hnil

/-- Runs one after another are pairwise disjoint. -/
theorem coversBytes_pairwise {gs : List (List LineDesc)} : ∀ {p q : Nat}, coversBytes c.rxStride p gs.flatten q →
    q ≤ c.rxSize → gs.Pairwise (GroupsDisjoint c) := by
  induction gs with
  | nil => intros; exact .nil
  | cons g gs ih =>
    intro p q h hq
    obtain ⟨m, hg, hgs⟩ := coversBytes_append.1 h
    have hm : m ≤ q := by rw [coversBytes_length hgs]; exact Nat.le_add_right _ _
    refine .cons (fun g' hg' a hboth => ?_) (ih hgs hq)
    obtain ⟨-, hbelow⟩ := (coversBytes_groupCovers hg (hm.trans hq) a).1 hboth.1
    obtain ⟨habove, -⟩ := (coversBytes_groupCovers hgs hq a).1 (groupCovers_flatten.2 ⟨g', hg', hboth.2⟩)
    omega

end run

/-! ## A packet of the frame at the receiver -/

/-- The datagram `b` brings a part of the frame to a receiver of configuration `c`: it decodes to `f`, each offset that
its fragments cover gets the frame's byte, and they report nothing where nothing was written yet. -/
structure FramePart (c : Cfg) (frame b : Bytes) (f : HdrFields) : Prop where
  decodes : decHdr c b = .ok f
  bytes : ∀ a, groupCovers c f.lines a = true → lastCovering c b f.ds f.lines a = some (byteAt frame a)
  quiet : ∀ w : List Nat, (∀ k ∈ w, groupCovers c f.lines k = false) → fragEvents c w [] f.lines = []

/-- Every packet of a TX_FRAME is one (R170, R200). -/
theorem FrameGroup.framePart {s : State} {r : Cfg} {frame : Bytes} {g : List LineDesc}
    (h : FrameGroup s.cfg frame r.rxStride g) (hc : s.cfg.wf = true) (hr : Reads r s.cfg)
    (hsize : frame.length = r.rxSize) (k : Nat) (m : Bool) :
    FramePart r frame (framePacket s frame r.rxStride k m g) (packetFields s frame r.rxStride k m g) := by
  obtain ⟨p, q, hcov, hq⟩ := h.covers
  rw [hsize] at hq
  refine ⟨hr.decHdr (h.decHdr_packet hc k m), fun a ha => ?_, fun w hw => ?_⟩
  · rw [packetFields_lines] at ha ⊢
    have hin := (coversBytes_groupCovers hcov hq a).1 ha
    rw [coversBytes_lastCovering hcov hq, if_pos hin, packetFields_ds, framePacket, encPkt,
      ← encHdrBytes_length (lhSlot_ge hc), byteAt_append_right (Nat.le_add_right _ _), Nat.add_sub_cancel_left,
      dataOf_covers hcov, byteAt_slice (by omega), Nat.add_sub_cancel' hin.1]
  · rw [packetFields_lines] at hw ⊢
    refine coversBytes_fragEvents hcov hq fun a hp ha => ⟨fun hmem => ?_, rfl⟩
    exact Bool.false_ne_true ((hw a hmem).symm.trans ((coversBytes_groupCovers hcov hq a).2 ⟨hp, ha⟩))

/-! ## The sequence numbers (R193) -/

/-- The highest number seen, where there is one (R34). -/
def highestSeen (s : State) : Option Nat := if s.rxSeqValid then some s.rxExtHi.toNat else none

/-- The highest number after the number x. -/
def seenAfter (h : Option Nat) (x : Nat) : Nat := h.elim x (max · x)

/-- The gap that the number x is, with `h` the highest before it. -/
def gapEvent (h : Option Nat) (x : Nat) : List DiagEvent :=
  h.elim [] fun y => if y + 1 < x then [.seqGap (y + 1) x] else []

/-- The gaps that the numbers are, one after another. -/
def gapEvents : Option Nat → List Nat → List DiagEvent
  | _, [] => []
  | h, x :: xs => gapEvent h x ++ gapEvents (some (seenAfter h x)) xs

/-- The highest number after all of them. -/
def seenAll (h : Option Nat) (xs : List Nat) : Option Nat := xs.foldl (fun h x => some (seenAfter h x)) h

theorem gapEvents_append (xs ys : List Nat) : ∀ h,
    gapEvents h (xs ++ ys) = gapEvents h xs ++ gapEvents (seenAll h xs) ys := by
  induction xs with
  | nil => intro h; rfl
  | cons x xs ih => intro h; simp only [List.cons_append, gapEvents, ih, List.append_assoc]; rfl

theorem gapEvents_concat (h : Option Nat) (xs : List Nat) (x : Nat) :
    gapEvents h (xs ++ [x]) = gapEvents h xs ++ gapEvent (seenAll h xs) x := by
  rw [gapEvents_append, gapEvents, gapEvents, List.append_nil]

theorem seenAll_concat (h : Option Nat) (xs : List Nat) (x : Nat) :
    seenAll h (xs ++ [x]) = some (seenAfter (seenAll h xs) x) := by
  rw [seenAll, List.foldl_append]
  rfl

theorem mem_gapEvents : ∀ {xs : List Nat} {h : Option Nat} {e : DiagEvent},
    e ∈ gapEvents h xs → ∃ x y, e = .seqGap x y := by
  intro xs
  induction xs with
  | nil => intro h e he; cases he
  | cons x xs ih =>
    intro h e he
    rcases List.mem_append.1 he with he | he
    · cases h with
      | none => cases he
      | some y =>
        obtain ⟨-, he⟩ := List.mem_ite_nil_right.1 he
        exact ⟨_, _, List.mem_singleton.1 he⟩
    · exact ih he

theorem seenAfter_ge (h : Option Nat) (x : Nat) : x ≤ seenAfter h x := by
  cases h with
  | none => exact Nat.le_refl x
  | some y => exact Nat.le_max_right y x

/-- Numbers that never step up by more than one are no gap. -/
theorem gapEvents_of_steps {num : Nat → Nat} (hstep : ∀ k, num (k + 1) ≤ num k + 1) : ∀ (n k : Nat) {h : Option Nat},
    (∀ y ∈ h, num k ≤ y + 1) → gapEvents h ((List.range' k n).map num) = [] := by
  intro n
  induction n with
  | zero => intros; rfl
  | succ n ih =>
    intro k h hk
    have hhead : gapEvent h (num k) = [] := by
      cases h with
      | none => rfl
      | some y => exact if_neg (Nat.not_lt_of_le (hk y rfl))
    rw [List.range'_succ, List.map_cons, gapEvents, hhead, List.nil_append]
    refine ih (k + 1) fun y hy => ?_
    obtain rfl := Option.some.inj hy
    exact (hstep k).trans (Nat.succ_le_succ (seenAfter_ge h (num k)))

/-- Numbers that follow on y without a gap, none missing and none twice, come in order. -/
theorem eq_range'_of_no_gap : ∀ {n y : Nat} {xs : List Nat}, xs.Perm (List.range' (y + 1) n) →
    gapEvents (some y) xs = [] → xs = List.range' (y + 1) n := by
  intro n
  induction n with
  | zero => intro y xs hp _; exact hp.eq_nil
  | succ n ih =>
    intro y xs hp hgap
    cases xs with
    | nil => exact hp.nil_eq
    | cons x xs =>
      obtain ⟨hx, hxs⟩ := List.append_eq_nil_iff.1 hgap
      have hlow : ¬ y + 1 < x := fun hlt => by simp [gapEvent, hlt] at hx
      have hmem : x ∈ List.range' (y + 1) (n + 1) := hp.subset List.mem_cons_self
      obtain rfl : x = y + 1 := by rw [List.mem_range'_1] at hmem; omega
      rw [List.range'_succ] at hp ⊢
      have hmax : seenAfter (some y) (y + 1) = y + 1 := Nat.max_eq_right (Nat.le_succ y)
      rw [hmax] at hxs
      rw [ih hp.cons_inv hxs]

section accepted
variable (b : Bytes) (f : HdrFields) (s : State)

theorem highestSeen_rxAccepted : highestSeen (rxAccepted b f s) = some (seenAfter (highestSeen s) f.xseq.toNat) := by
  rw [highestSeen, rxAccepted_rxSeqValid, if_pos rfl, highestSeen]
  cases hv : s.rxSeqValid with
  | false => rw [rxAccepted_rxExtHi_first hv, if_neg Bool.false_ne_true]; rfl
  | true => rw [rxAccepted_rxExtHi_max hv, if_pos rfl]; rfl

theorem gapEvent_highestSeen : gapEvent (highestSeen s) f.xseq.toNat =
    if seqGap s f.xseq then [.seqGap (s.rxExtHi.toNat + 1) f.xseq.toNat] else [] := by
  rw [highestSeen]
  cases hv : s.rxSeqValid with
  | false => simp [seqGap, hv, gapEvent]
  | true => simp [seqGap, hv, gapEvent]

theorem seqGap_iff_gapEvent : seqGap s f.xseq = true ↔ gapEvent (highestSeen s) f.xseq.toNat ≠ [] := by
  rw [gapEvent_highestSeen]
  simp

end accepted

/-! ## A frame being assembled -/

/-- The numbers of datagrams, each with the fields it decodes to. -/
def partNumbers (parts : List (Bytes × HdrFields)) : List Nat := parts.map fun e => e.2.xseq.toNat

/-- All their descriptors. -/
def partLines (parts : List (Bytes × HdrFields)) : List LineDesc := parts.flatMap fun e => e.2.lines

theorem partNumbers_concat (parts : List (Bytes × HdrFields)) (b : Bytes) (f : HdrFields) :
    partNumbers (parts ++ [(b, f)]) = partNumbers parts ++ [f.xseq.toNat] := by simp [partNumbers]

theorem partLines_concat (parts : List (Bytes × HdrFields)) (b : Bytes) (f : HdrFields) :
    partLines (parts ++ [(b, f)]) = partLines parts ++ f.lines := by simp [partLines]

/-- The receiver that was in the state `r` between two frames has accepted these parts of the frame and is in the state
`u`. -/
structure Assembled (r : State) (frame : Bytes) (parts : List (Bytes × HdrFields)) (u : State) : Prop where
  cfg : u.cfg = r.cfg
  bytes : ∀ a, groupCovers r.cfg (partLines parts) a = true → memRead u.asm a = some (byteAt frame a)
  writtenCovered : ∀ k ∈ u.rxWritten, groupCovers r.cfg (partLines parts) k = true
  coveredWritten : r.cfg.rxValidate = true → ∀ k, groupCovers r.cfg (partLines parts) k = true → k ∈ u.rxWritten
  rising : setRisingFrom 0 u.rxWritten = true
  diag : u.diag = r.diag ++ gapEvents (highestSeen r) (partNumbers parts)
  gap : u.rxGap = true ↔ gapEvents (highestSeen r) (partNumbers parts) ≠ []
  seen : highestSeen u = seenAll (highestSeen r) (partNumbers parts)

section assembled
variable {r u : State} {frame : Bytes} {parts : List (Bytes × HdrFields)}

theorem Assembled.start (hr : RxBetweenFrames r) : Assembled r frame [] r where
  cfg := rfl
  bytes := fun a ha => by cases ha
  writtenCovered := by rw [hr.rxWritten]; simp
  coveredWritten := fun _ k hk => by cases hk
  rising := by rw [hr.rxWritten]; rfl
  diag := (List.append_nil _).symm
  gap := by rw [hr.rxGap]; simp [partNumbers, gapEvents]
  seen := rfl

/-- A further part is accepted: its bytes are added, and its number alone is reported. -/
theorem Assembled.accept {b : Bytes} {f : HdrFields} (h : Assembled r frame parts u) (hpart : FramePart r.cfg frame b f)
    (hnew : GroupsDisjoint r.cfg (partLines parts) f.lines) :
    Assembled r frame (parts ++ [(b, f)]) (rxAccepted b f u) := by
  have hd : decHdr u.cfg b = .ok f := h.cfg ▸ hpart.decodes
  have hcov (a : Nat) : groupCovers r.cfg (partLines (parts ++ [(b, f)])) a = true ↔
      groupCovers r.cfg (partLines parts) a = true ∨ groupCovers r.cfg f.lines a = true := by
    rw [partLines_concat, groupCovers_append]
  have hgaps : gapEvents (highestSeen r) (partNumbers (parts ++ [(b, f)])) =
      gapEvents (highestSeen r) (partNumbers parts) ++ gapEvent (highestSeen u) f.xseq.toNat := by
    rw [partNumbers_concat, gapEvents_concat, h.seen]
  constructor
  case cfg => rw [rxAccepted_cfg, h.cfg]
  case bytes =>
    intro a ha
    rw [rxAccepted_memRead b f u (decHdr_ok hd).1, h.cfg]
    by_cases hnow : groupCovers r.cfg f.lines a = true
    · rw [hpart.bytes a hnow, Option.some_or]
    · have hnone : lastCovering r.cfg b f.ds f.lines a = none := by
        rw [← Option.not_isSome_iff_eq_none, lastCovering_isSome]
        exact hnow
      rw [hnone, Option.none_or, h.bytes a (((hcov a).1 ha).resolve_right hnow)]
  case writtenCovered =>
    intro k hk
    rw [hcov]
    cases hv : u.cfg.rxValidate with
    | false => exact .inl (h.writtenCovered k (rxAccepted_rxWritten_off b f u hv ▸ hk))
    | true =>
      rw [mem_rxAccepted_rxWritten b f u hv, h.cfg] at hk
      exact hk.imp_left (h.writtenCovered k)
  case coveredWritten =>
    intro hv k hk
    rw [mem_rxAccepted_rxWritten b f u (h.cfg ▸ hv), h.cfg]
    exact ((hcov k).1 hk).imp_left (h.coveredWritten hv k)
  case rising => exact rxAccepted_rising b f u h.rising
  case diag =>
    have hquiet : fragEvents u.cfg u.rxWritten [] f.lines = [] := by
      rw [h.cfg]
      exact hpart.quiet _ fun k hk => Bool.eq_false_iff.2 fun hnow => hnew k ⟨h.writtenCovered k hk, hnow⟩
    rw [rxAccepted_diag, hquiet, List.append_nil, ← gapEvent_highestSeen, h.diag, hgaps, List.append_assoc]
  case gap =>
    rw [rxAccepted_rxGap, Bool.or_eq_true, h.gap, seqGap_iff_gapEvent, hgaps, Ne, Ne, Ne, List.append_eq_nil_iff,
      not_and_or]
  case seen => rw [highestSeen_rxAccepted, h.seen, partNumbers_concat, seenAll_concat]

/-- A part is disjoint from all the parts before it, if they are pairwise disjoint. -/
theorem partLines_disjoint {c : Cfg} {e : Bytes × HdrFields}
    (h : (parts ++ [e]).Pairwise fun x y => GroupsDisjoint c x.2.lines y.2.lines) :
    GroupsDisjoint c (partLines parts) e.2.lines := by
  intro a hboth
  obtain ⟨hbefore, hnow⟩ := hboth
  rw [partLines, List.flatMap_def, groupCovers_flatten] at hbefore
  obtain ⟨g, hg, hcov⟩ := hbefore
  obtain ⟨x, hx, rfl⟩ := List.mem_map.1 hg
  exact (List.pairwise_append.1 h).2.2 x hx e (List.mem_singleton_self e) a ⟨hcov, hnow⟩

theorem rxDgrams_append (bs bs' : List Bytes) : ∀ s : State, rxDgrams (bs ++ bs') s =
    ((rxDgrams bs s).1 ++ (rxDgrams bs' (rxDgrams bs s).2).1, (rxDgrams bs' (rxDgrams bs s).2).2) := by
  induction bs with
  | nil => intro s; rfl
  | cons b bs ih => intro s; simp only [List.cons_append, rxDgrams, ih]

/-- Parts without a marker are accepted one after another. -/
theorem Assembled.acceptAll : ∀ {more parts : List (Bytes × HdrFields)} {u : State}, Assembled r frame parts u →
    (∀ e ∈ more, FramePart r.cfg frame e.1 e.2 ∧ e.2.m = false) →
    (parts ++ more).Pairwise (fun x y => GroupsDisjoint r.cfg x.2.lines y.2.lines) →
    (rxDgrams (more.map Prod.fst) u).1 = List.replicate more.length .accepted ∧
      Assembled r frame (parts ++ more) (rxDgrams (more.map Prod.fst) u).2 := by
  intro more
  induction more with
  | nil => intro parts u h _ _; exact ⟨rfl, (List.append_nil parts).symm ▸ h⟩
  | cons e more ih =>
    obtain ⟨b, f⟩ := e
    intro parts u h hmore hpair
    obtain ⟨⟨hpart, hm⟩, hmore⟩ := List.forall_mem_cons.1 hmore
    have hrun : rxDgram b u = (.accepted, rxAccepted b f u) := rxDgram_open (h.cfg ▸ hpart.decodes) hm
    rw [List.append_cons] at hpair ⊢
    have hnew := partLines_disjoint (List.pairwise_append.1 hpair).1
    obtain ⟨hvals, hassembled⟩ := ih (h.accept hpart hnew) hmore hpair
    simp only [List.map_cons, rxDgrams, hrun]
    exact ⟨congrArg (OpValue.accepted :: ·) hvals, hassembled⟩

/-- Where the parts cover the whole frame, it is flagged just when there was a gap (R195). -/
theorem Assembled.incompleteFlag (h : Assembled r frame parts u)
    (hall : ∀ k, k < r.cfg.rxSize → groupCovers r.cfg (partLines parts) k = true) :
    incompleteFlag u = true ↔ gapEvents (highestSeen r) (partNumbers parts) ≠ [] := by
  have hlt : ∀ k ∈ u.rxWritten, k < u.cfg.rxSize := fun k hk => by
    obtain ⟨d, -, hcov⟩ := List.any_eq_true.1 (h.writtenCovered k hk)
    rw [h.cfg]
    exact fragCovers_lt hcov
  rw [incompleteFlag_iff h.rising fun _ => hlt, h.gap, h.cfg, or_iff_left]
  rintro ⟨hv, k, hk, hmissing⟩
  exact hmissing (h.coveredWritten hv k (hall k hk))

end assembled

/-- The parts of a frame, the one with the marker last, given to a receiver between two frames: the frame is complete,
and the gaps among the numbers are all that is reported. -/
theorem rxDgrams_frame {r : State} {frame : Bytes} {front : List (Bytes × HdrFields)} {last : Bytes × HdrFields}
    (hr : RxBetweenFrames r) (hparts : ∀ e ∈ front ++ [last], FramePart r.cfg frame e.1 e.2)
    (hfront : ∀ e ∈ front, e.2.m = false) (hlast : last.2.m = true)
    (hpair : (front ++ [last]).Pairwise fun x y => GroupsDisjoint r.cfg x.2.lines y.2.lines)
    (hall : ∀ k, k < r.cfg.rxSize → groupCovers r.cfg (partLines (front ++ [last])) k = true) :
    let q := rxDgrams (front.map Prod.fst ++ [last.1]) r
    let gaps := gapEvents (highestSeen r) (partNumbers (front ++ [last]))
    ∃ inc, q.1 = List.replicate front.length .accepted ++ [.frameDone inc] ∧ (inc = true ↔ gaps ≠ []) ∧
      q.2.diag = r.diag ++ gaps ∧ ∀ k, k < r.cfg.rxSize → memRead q.2.asm k = some (byteAt frame k) := by
  obtain ⟨b, f⟩ := last
  obtain ⟨hpf, hpl⟩ := List.forall_mem_append.1 hparts
  have hpart := hpl _ (List.mem_singleton_self _)
  obtain ⟨hvals, hbefore⟩ := (Assembled.start hr).acceptAll (fun e he => ⟨hpf e he, hfront e he⟩)
    (List.pairwise_append.1 hpair).1
  have hafter := hbefore.accept hpart (partLines_disjoint hpair)
  have hrun := rxDgram_marker (hbefore.cfg ▸ hpart.decodes) hlast
  intro q gaps
  refine ⟨_, ?_, hafter.incompleteFlag hall, ?_, fun k hk => ?_⟩
  · simp only [q, rxDgrams_append, hvals, rxDgrams, hrun]
  · simp only [q, rxDgrams_append, rxDgrams, hrun]
    exact hafter.diag
  · simp only [q, rxDgrams_append, rxDgrams, hrun]
    exact hafter.bytes k (hall k hk)

end Sys2Proof.Machine
end

section
/-! SUPPORT. The round trip (43_depacketizer.md R200): the packets of a TX_FRAME as the parts of its frame, told by
their index in the sending order, and the two claims about a receiver that is given them in this order or another. -/

namespace Sys2Proof.Machine

/-! ## The packets of a TX_FRAME as parts of its frame -/

/-- The k-th packet of a frame that is cut into the groups `gs`, with the fields it decodes to. -/
def txPart (s : State) (frame : Bytes) (rb : Nat) (gs : List (List LineDesc)) (k : Nat) : Bytes × HdrFields :=
  let m := decide (k + 1 = gs.length)
  (framePacket s frame rb k m (gs.getD k []), packetFields s frame rb k m (gs.getD k []))

/-- The number of the k-th packet (R151, R170 (e)). -/
def txNumber (s : State) (k : Nat) : Nat := (s.seqLast.toNat + (k + 1)) % 2 ^ 32

section txPart
variable (s : State) (frame : Bytes) (rb : Nat) (gs : List (List LineDesc)) (k : Nat)

@[simp] theorem txPart_lines : (txPart s frame rb gs k).2.lines = gs.getD k [] := rfl

@[simp] theorem txPart_m : (txPart s frame rb gs k).2.m = decide (k + 1 = gs.length) := packetFields_m ..

theorem txPart_number : (txPart s frame rb gs k).2.xseq.toNat = txNumber s k := by
  rw [txPart, packetFields_xseq, BitVec.toNat_add, BitVec.toNat_ofNat, Nat.add_mod_mod]
  rfl

theorem txNumber_step : txNumber s (k + 1) ≤ txNumber s k + 1 := by
  unfold txNumber
  omega

end txPart

theorem partNumbers_txPart (s : State) (frame : Bytes) (rb : Nat) (gs : List (List LineDesc)) (idx : List Nat) :
    partNumbers (idx.map (txPart s frame rb gs)) = idx.map (txNumber s) := by
  rw [partNumbers, List.map_map]
  exact List.map_congr_left fun k _ => txPart_number ..

/-- The groups are found again at their indices. -/
theorem map_getD_range (gs : List (List LineDesc)) : (List.range gs.length).map (gs.getD · []) = gs := by
  refine List.ext_getElem (by simp) fun k _ hk => ?_
  simp [hk]

/-- The packets of a run whose last one has the marker are these. -/
theorem runPackets_eq (s : State) (frame : Bytes) (rb : Nat) (groups : List (List LineDesc)) (g : List LineDesc)
    (a : SendAnswer) : (runPackets s frame rb groups g true a).map Prod.fst =
      (List.range (groups.length + 1)).map fun k => (txPart s frame rb (groups ++ [g]) k).1 := by
  have hlast : (txPart s frame rb (groups ++ [g]) groups.length).1 = framePacket s frame rb groups.length true g := by
    simp [txPart]
  have hfront : (sentPackets s frame rb groups).map Prod.fst =
      (List.range groups.length).map fun k => (txPart s frame rb (groups ++ [g]) k).1 := by
    ext1 k
    rw [List.getElem?_map, sentPackets_getElem?, List.getElem?_map, Option.map_map]
    rcases Nat.lt_or_ge k groups.length with hk | hk
    · simp [hk, txPart, Nat.ne_of_lt hk, List.getElem?_append_left hk]
    · simp [hk]
  rw [runPackets, List.map_append, List.range_succ, List.map_append, List.map_singleton, List.map_singleton, hfront,
    hlast]

/-- The receiver reads what the sender sends, its frame has these dimensions, and it is between two frames (R200). -/
structure ReceiverFor (s r : State) (height rb : Nat) : Prop where
  reads : Reads r.cfg s.cfg
  rxHeight : r.cfg.rxHeight = height
  rxStride : r.cfg.rxStride = rb
  between : RxBetweenFrames r

/-- The datagrams `pkt k`, numbered `num k`, for the indices `idx` in this order and then for `n`, complete the frame at
the receiver: all but the last are accepted, the gaps among the numbers are all that is reported, and they alone flag
the frame (R195, R200). -/
def ReceivesFrame (r : State) (frame : Bytes) (pkt : Nat → Bytes) (num : Nat → Nat) (n : Nat) (idx : List Nat) : Prop :=
  let q := rxDgrams ((idx ++ [n]).map pkt) r
  let gaps := gapEvents (highestSeen r) ((idx ++ [n]).map num)
  ∃ inc, q.1 = List.replicate idx.length .accepted ++ [.frameDone inc] ∧ (inc = true ↔ gaps ≠ []) ∧
    q.2.diag = r.diag ++ gaps ∧ ∀ k, k < r.cfg.rxSize → memRead q.2.asm k = some (byteAt frame k)

/-- The packets of groups that take up the whole frame, in any order that ends with the marker packet. -/
theorem txParts_received {s r : State} {frame : Bytes} {height rb n : Nat} {gs : List (List LineDesc)} {idx : List Nat}
    (hc : s.cfg.wf = true) (hr : ReceiverFor s r height rb) (hsize : frame.length = height * rb)
    (hgs : ∀ g ∈ gs, FrameGroup s.cfg frame rb g) (hcovers : coversBytes rb 0 gs.flatten frame.length)
    (hn : gs.length = n + 1) (hp : idx.Perm (List.range n)) :
    ReceivesFrame r frame (fun k => (txPart s frame rb gs k).1) (txNumber s) n idx := by
  obtain ⟨hreads, rfl, rfl, hbetween⟩ := hr
  have hsize : frame.length = r.cfg.rxSize := hsize
  have hall : (idx ++ [n]).Perm (List.range gs.length) := by
    rw [hn, List.range_succ]
    exact hp.append_right [n]
  have hlines : ((idx ++ [n]).map (gs.getD · [])).Perm gs := by
    conv_rhs => rw [← map_getD_range gs]
    exact hall.map _
  have hbelow : ∀ k ∈ idx, k < n := fun k hk => List.mem_range.1 (hp.subset hk)
  have hparts : idx.map (txPart s frame r.cfg.rxStride gs) ++ [txPart s frame r.cfg.rxStride gs n] =
      (idx ++ [n]).map (txPart s frame r.cfg.rxStride gs) := by rw [List.map_append, List.map_singleton]
  have h := rxDgrams_frame (front := idx.map (txPart s frame r.cfg.rxStride gs)) (frame := frame)
    (last := txPart s frame r.cfg.rxStride gs n) hbetween ?parts ?unmarked ?marked ?disjoint ?covered
  case parts =>
    rw [hparts, List.forall_mem_map]
    intro k hk
    have hmem : gs.getD k [] ∈ gs := hlines.subset (List.mem_map_of_mem hk)
    exact (hgs _ hmem).framePart hc hreads hsize k _
  case unmarked =>
    rw [List.forall_mem_map]
    intro k hk
    have := hbelow k hk
    rw [txPart_m, decide_eq_false_iff_not]
    omega
  case marked => rw [txPart_m, hn, decide_eq_true rfl]
  case disjoint =>
    rw [hparts, List.pairwise_map]
    have := (hlines.pairwise_iff (R := GroupsDisjoint r.cfg) fun h => h.symm).2 (coversBytes_pairwise hcovers hsize.le)
    rwa [List.pairwise_map] at this
  case covered =>
    intro k hk
    have hcov := (coversBytes_groupCovers hcovers hsize.le k).2 ⟨Nat.zero_le k, hsize ▸ hk⟩
    obtain ⟨g, hg, hgk⟩ := groupCovers_flatten.1 hcov
    rw [hparts, partLines, List.flatMap_def, groupCovers_flatten, List.map_map]
    exact ⟨g, hlines.symm.subset hg, hgk⟩
  rw [hparts, partNumbers_txPart, List.length_map] at h
  simpa only [ReceivesFrame, List.map_append, List.map_singleton, List.map_map, Function.comp_def] using h

/-- The packets of a TX_FRAME that ended `Ok`, in any order that ends with the last one. -/
theorem txFrame_received {s t r : State} {frame : Bytes} {height width bpp : Nat} {new : List (Bytes × SendAnswer)}
    {count : Word} (hc : s.cfg.wf = true) (hv : ValidFrame frame height width bpp)
    (hx : exec (.txFrame frame height width bpp) s = .next t) (ho : t.outcome = some (.ok (.packetCount count)))
    (hnew : t.txd = s.txd ++ new) (hr : ReceiverFor s r height (width * bpp)) :
    ∃ (pkt : Nat → Bytes) (n : Nat), new.map Prod.fst = (List.range n).map pkt ++ [pkt n] ∧
      ∀ idx : List Nat, idx.Perm (List.range n) → ReceivesFrame r frame pkt (txNumber s) n idx := by
  obtain ⟨t', groups, g, m, a, hx', hrun⟩ := execTxFrame_run hc hv
  obtain rfl := Host.Outcome.next.inj (hx.symm.trans hx')
  have ha := hrun.answer_of_count ho
  obtain rfl : m = true := (hrun.done ha).1
  have hnew : new = runPackets s frame (width * bpp) groups g true a :=
    List.append_cancel_left (hnew.symm.trans hrun.txd_eq)
  refine ⟨fun k => (txPart s frame (width * bpp) (groups ++ [g]) k).1, groups.length, ?_, fun idx hp => ?_⟩
  · rw [hnew, runPackets_eq, List.range_succ, List.map_append, List.map_singleton]
  · exact txParts_received hc hr hv.size (fun _ => hrun.frameGroup) (by simpa using hrun.covers_frame ha)
      (by simp) hp

/-- A receiver that expects the first packet's number, or any, sees no gap in the sending order (R193, R200). -/
theorem gapEvents_in_order {s r : State} (n : Nat)
    (hexpects : r.rxSeqValid = false ∨ r.rxExtHi.toNat = s.seqLast.toNat) :
    gapEvents (highestSeen r) ((List.range n).map (txNumber s)) = [] := by
  rw [List.range_eq_range']
  refine gapEvents_of_steps (txNumber_step s) n 0 fun y hy => ?_
  rw [highestSeen, Option.mem_def, Option.ite_none_right_eq_some] at hy
  obtain ⟨hvalid, hy⟩ := hy
  have hlast : r.rxExtHi.toNat = s.seqLast.toNat := hexpects.resolve_left (by simp [hvalid])
  have := Option.some.inj hy
  unfold txNumber
  omega

/-- Settles O35: in sending order the numbers are no gap, so nothing is reported and the frame is not flagged. -/
theorem transmitThenReceiveReproducesTheFrame : Obligations.TransmitThenReceiveReproducesTheFrame := by
  intro s t r frame height width bpp new count hc _ hv hx ho hnew hversion hslot hlines hheight hstride hstate hgap
    hwritten hexpects
  have hr : ReceiverFor s r height (width * bpp) :=
    ⟨⟨hversion, hslot, hlines⟩, hheight, hstride, ⟨hstate, hgap, hwritten⟩⟩
  obtain ⟨pkt, n, hpkts, hreceived⟩ := txFrame_received hc hv hx ho hnew hr
  obtain ⟨inc, hvals, hinc, hdiag, hasm⟩ := hreceived (List.range n) (.refl _)
  have hlen : new.length = n + 1 := by simpa using congrArg List.length hpkts
  rw [List.map_append, List.map_singleton, ← hpkts] at hvals hdiag hasm
  rw [← List.range_succ, gapEvents_in_order (n + 1) hexpects] at hinc hdiag
  obtain rfl : inc = false := by simpa using hinc
  refine ⟨?_, hdiag.trans (List.append_nil _), hasm⟩
  rw [hvals, hlen, List.length_range, Nat.add_sub_cancel]

/-- In a session that does not wrap, the numbers count on from `seq_last` (R287). -/
theorem txNumber_of_lt {s : State} {k : Nat} (h : s.seqLast.toNat + k + 1 < 2 ^ 32) :
    txNumber s k = s.seqLast.toNat + 1 + k := by
  unfold txNumber
  omega

/-- No gap at a receiver that expects the first packet's number: the packets came in the sending order. -/
theorem in_order_of_no_gap {s r : State} {n : Nat} {idx : List Nat} (hvalid : r.rxSeqValid = true)
    (hexpects : r.rxExtHi.toNat = s.seqLast.toNat) (hsession : s.seqLast.toNat + n + 1 < 2 ^ 32)
    (hp : idx.Perm (List.range n)) (hgap : gapEvents (highestSeen r) (idx.map (txNumber s)) = []) :
    idx = List.range n := by
  have hnum : ∀ l : List Nat, (∀ k ∈ l, k < n) → l.map (txNumber s) = l.map (s.seqLast.toNat + 1 + ·) :=
    fun l hl => List.map_congr_left fun k hk => txNumber_of_lt (by have := hl k hk; omega)
  rw [highestSeen, if_pos hvalid, hexpects, hnum idx fun k hk => List.mem_range.1 (hp.subset hk)] at hgap
  have hperm : (idx.map (s.seqLast.toNat + 1 + ·)).Perm (List.range' (s.seqLast.toNat + 1) n) := by
    rw [List.range'_eq_map_range]
    exact hp.map _
  have hsame := eq_range'_of_no_gap hperm hgap
  rw [List.range'_eq_map_range] at hsame
  exact List.map_injective_iff.2 (fun _ _ => Nat.add_left_cancel) hsame

/-- Settles O36: each order is a permutation of the indices of the packets, and a receiver that sees no gap saw them in
order. -/
theorem reorderedPacketsReproduceTheFrame : Obligations.ReorderedPacketsReproduceTheFrame := by
  intro s t r frame height width bpp front last order count hc _ hv hx ho hnew horder hversion hslot hlines hheight
    hstride hstate hgap hwritten hexpects
  have hr : ReceiverFor s r height (width * bpp) :=
    ⟨⟨hversion, hslot, hlines⟩, hheight, hstride, ⟨hstate, hgap, hwritten⟩⟩
  obtain ⟨pkt, n, hpkts, hreceived⟩ := txFrame_received hc hv hx ho hnew hr
  rw [List.map_append, List.map_singleton] at hpkts
  obtain ⟨hfront, hlast⟩ := List.append_inj' hpkts rfl
  rw [hfront] at horder ⊢
  rw [List.singleton_inj.1 hlast]
  obtain ⟨idx, rfl, hp⟩ : ∃ idx : List Nat, order = idx.map pkt ∧ idx.Perm (List.range n) :=
    (congrFun₂ (List.eq_map_comp_perm pkt) order (List.range n)).mpr horder
  obtain ⟨inc, hvals, hinc, hdiag, hasm⟩ := hreceived idx hp
  rw [List.map_append, List.map_singleton] at hvals hdiag hasm
  refine ⟨inc, _, by rwa [List.length_map], hdiag, fun e => mem_gapEvents, hinc, fun hvalid hsession hmoved hnone => ?_,
    hasm⟩
  rw [List.length_map, hp.length_eq, List.length_range] at hsession
  rw [List.map_append, List.map_singleton, gapEvents_concat] at hnone
  have hlastSeen : r.rxExtHi.toNat = s.seqLast.toNat := hexpects.resolve_left (by simp [hvalid])
  exact hmoved (congrArg _ (in_order_of_no_gap hvalid hlastSeen hsession hp (List.append_eq_nil_iff.1 hnone).1))

end Sys2Proof.Machine
end

section
/-! SUPPORT. Session control (44_session_control.md): the two commands that begin a session, each of which is its guard
(10_state.md R52) and one update of its own engine's registers. -/

namespace Sys2Proof.Machine

/-- Settles O11: under a well-formed CFG nothing stops TX_INIT, and loading the counters is all it does. -/
theorem txInitLoadsTheCounters : Obligations.TxInitLoadsTheCounters := fun _ _ _ hc => guarded_of_wf hc _

/-- Under a well-formed CFG RX_INIT does what `rxForget` does, and that is all it does (R221). -/
theorem exec_rxInit {s : State} (hc : s.cfg.wf = true) : exec .rxInit s = .next (deliver (.ok .unit) (rxForget s)) :=
  guarded_of_wf hc _

/-- Settles O12: `rx_ext_hi`, which holds no value from here on (R34), is the next free value. -/
theorem rxInitForgetsTheSession : Obligations.RxInitForgetsTheSession := fun s hc =>
  ⟨Config.freeRxExtHi s.rxFree, exec_rxInit hc⟩

end Sys2Proof.Machine
end

section
/-! SUPPORT. The exceptional events (60_exceptions.md): the order of an accepted datagram's events (R244), the refusal
of foreign codes at the ports (R241), and the codes (R230). -/

namespace Sys2Proof.Machine

/-- Settles O28: the acceptance reports the events of its sequence step, then those of the descriptors, and the frame
boundary reports none. -/
theorem diagnosticsComeInOrder : Obligations.DiagnosticsComeInOrder := by
  intro s b f hc hd
  refine ⟨_, exec_rxDgram_decoded hc hd, ?_⟩
  rw [rxDecoded_diag, rxAccepted_diag]
  simp only [seqGap_iff]

/-! ## Foreign codes at a port (R111, R241) -/

/-- The commands of TXE's port (R110). -/
theorem hostMayIssue_txe : ∀ {code : BitVec 4},
    hostMayIssue .txe code = true ↔ code = 0x1 ∨ code = 0x2 ∨ code = 0x6 := by decide

/-- The commands of RXE's port (R110). -/
theorem hostMayIssue_rxe : ∀ {code : BitVec 4},
    hostMayIssue .rxe code = true ↔ code = 0x3 ∨ code = 0x8 ∨ code = 0x9 ∨ code = 0xC := by decide

/-- A code HOST may not issue is refused before the operands or the busy bit are looked at (R244 (e)). -/
theorem hostCommand_of_foreign {port : Engine} {code : BitVec 4} {s : State} (hc : s.cfg.wf = true)
    (hm : ¬ hostMayIssue port code = true) (ops : Operands) :
    hostCommand port code ops s = .next (deliver (.err (.illegalCommand code)) s) := by
  rw [hostCommand, if_neg hm, illegalCommand, guarded_of_wf hc, raise]

/-- Settles O38: a code that is none of the port's commands is one HOST may not issue there. -/
theorem foreignCodesAreRefusedAtThePort : Obligations.ForeignCodesAreRefusedAtThePort := by
  intro s port code ops rest hc hl hp hforeign
  have hm : ¬ hostMayIssue port code = true := by
    cases port with
    | txe => simpa only [hostMayIssue_txe, not_or] using hforeign
    | rxe => simpa only [hostMayIssue_rxe, not_or] using hforeign
  rw [step_serves hl hp, serve, hostCommand_of_foreign (s := { s with pending := rest }) hc hm, deliver]

/-! ## The codes (R230) -/

/-- Settles O45: each clause is one case of the definition of the codes, whatever the event's information. -/
theorem eventCodesAreTheTables : Obligations.EventCodesAreTheTables :=
  ⟨fun _ => rfl, fun _ => rfl, fun _ => rfl, fun _ => rfl, fun _ => rfl, rfl, rfl, rfl, fun _ _ => rfl,
    fun _ _ => rfl, fun _ _ => rfl, rfl, fun _ => rfl, fun _ => rfl⟩

end Sys2Proof.Machine
end

section
/-! SUPPORT. The hardware reset (70_reset_and_hazards.md R270), the step with nothing pending (R272), and the stops of a
step (R280, R282; 93_implementation_defined.md U22). -/

namespace Sys2Proof.Machine

/-- Settles O47: the request is served by `hwReset`, of which each register named here has its own law. -/
theorem hardwareResetRestoresTheRegisters : Obligations.HardwareResetRestoresTheRegisters := fun s rest hl hp =>
  ⟨hwReset { s with pending := rest }, step_serves hl hp, hwReset_seqLast _, hwReset_frameIdx _, hwReset_seqOvf _,
    hwReset_txBusy _, hwReset_rxState _, hwReset_rxSeqValid _, hwReset_rxGap _, hwReset_rxWritten _, hwReset_rxBusy _,
    hwReset_txd _, hwReset_diag _, hwReset_cfg _, hwReset_asm _⟩

/-! ## Waiting, and the stops by name -/

/-- With nothing to serve the block waits (R272, log entry 21). -/
theorem step_of_nothingPending {s : State} (hl : s.loneCall = none) (hp : s.pending = []) : step s = .next s := by
  simp only [step, hl, hp]

/-- What does not decode is refused with the decoder's reason. -/
theorem runEncoded_of_decode_error {e : Encoded} {s : State} {r : Reject} (h : decode s.cfg e = .error r) :
    runEncoded e s = .refused (.undecodable r) := by
  rw [runEncoded, h]

/-- A code that is not an internal operation's has no lone call (R110, log entry 2). -/
theorem internalCall_of_foreign {code : BitVec 4} (hi : isInternalOp code = false) (ops : Operands) (s : State) :
    internalCall code ops s = .refused (.notAnInternalOperation code) := by
  rw [internalCall, if_neg (Bool.eq_false_iff.1 hi)]

/-- HOST does not issue a command on a busy engine (R280, R282, U22). -/
theorem hostCommand_of_busy {port : Engine} {code : BitVec 4} {s : State} (hm : hostMayIssue port code = true)
    (hb : busy port s = true) (ops : Operands) :
    hostCommand port code ops s = .fault (.commandWhileBusy port) := by
  rw [hostCommand, if_pos hm, if_pos hb]

/-- Settles O41: a step with nothing to serve, and one stop each of the decoder, the lone call and the port. -/
theorem stepWaitsOrStopsByName : Obligations.StepWaitsOrStopsByName := by
  refine fun s rest => ⟨step_of_nothingPending, fun bs e hl hp hd => ?_, fun code ops hl hi => ?_,
    fun port code ops hl hp hm hb => ?_⟩
  · rw [step_serves hl hp, serve, runEncoded_of_decode_error (s := { s with pending := rest }) hd]
  · rw [step_of_loneCall hl, internalCall_of_foreign hi]
  · rw [step_serves hl hp, serve, hostCommand_of_busy (s := { s with pending := rest }) hm (by rwa [busy_pending])]

end Sys2Proof.Machine
end

section
/-! SUPPORT. The decoder and the encoder as inverses of each other (30_encoding.md R91, R95, R96, R110, R111, R115; log
entry 4): bytes and words are the same thing, and a word with the block's V is read as one of the two rows of word 0. -/

namespace Sys2Proof

/-! ## A value put together from bytes is written as those bytes (R9) -/

/-- Concatenation with a byte loses neither operand. -/
theorem append_byte_inj {n : Nat} {x x' : BitVec n} {a a' : Byte} (h : x ++ a = x' ++ a') : x = x' ∧ a = a' := by
  constructor
  · rw [← BitVec.extractLsb'_append_eq_left (a := x) (b := a), h, BitVec.extractLsb'_append_eq_left]
  · rw [← BitVec.extractLsb'_append_eq_right (a := x) (b := a), h, BitVec.extractLsb'_append_eq_right]

theorem be16_append (a b : Byte) : be16 (a ++ b) = [a, b] := by
  obtain ⟨ha, hb⟩ := append_byte_inj (half_of_bytes (a ++ b))
  rw [be16, ha, hb]

theorem be32_append (a b d e : Byte) : be32 (a ++ b ++ d ++ e) = [a, b, d, e] := by
  obtain ⟨habd, he⟩ := append_byte_inj (word_of_bytes (a ++ b ++ d ++ e))
  obtain ⟨hab, hd⟩ := append_byte_inj habd
  obtain ⟨ha, hb⟩ := append_byte_inj hab
  rw [be32, ha, hb, hd, he]

/-! ## The decoder on the encoder's bytes -/

theorem decodeWire_be16 (c : Cfg) (v : Half) : decodeWire c (be16 v) = .ok (.payloadExt v) := by
  rw [be16, decodeWire, half_of_bytes]

theorem decodeWire_be32 (c : Cfg) (w : Word) : decodeWire c (be32 w) = decodeWord0 c w := by
  rw [be32, decodeWire, word_of_bytes]

theorem decodeWire_be16_be16_be16 (c : Cfg) (l n o : Half) :
    decodeWire c (be16 l ++ be16 n ++ be16 o) = .ok (.lineDesc l n o) := by
  simp only [be16, List.cons_append, List.nil_append, decodeWire, half_of_bytes]

/-! ## The two rows of word 0 (R115) -/

/-- A PKT_RX is ill-formed exactly when the decoder's test for PKT_TX holds of its fields (R92, log entry 4). -/
theorem not_wellFormed_pktRx (c : Cfg) (p x : Bool) (cc : BitVec 4) (m : Bool) (pt : BitVec 7) (q : Half) :
    (!(Instr.pktRx p x cc m pt q).wellFormed c) = (!p && !x && cc == 0 && pt == c.payloadType) := by
  simp [Instr.wellFormed, bne]

/-- An ill-formed PKT_RX has the bytes of a PKT_TX, so nothing but the choice of log entry 4 tells them apart. -/
theorem encode_pktRx_of_illFormed {c : Cfg} {p x : Bool} {cc : BitVec 4} {m : Bool} {pt : BitVec 7} {q : Half}
    (h : (Instr.pktRx p x cc m pt q).wellFormed c = false) :
    encode c (.pktRx p x cc m pt q) = encode c (.pktTx m q) := by
  obtain ⟨rfl, rfl, rfl, rfl⟩ : p = false ∧ x = false ∧ cc = 0 ∧ pt = c.payloadType := by
    simpa [Instr.wellFormed, and_assoc] using h
  rfl

/-- A word with the block's V is PKT_RX where that is well formed, else PKT_TX. -/
theorem decodeWord0_word0 (c : Cfg) (p x : Bool) (cc : BitVec 4) (m : Bool) (pt : BitVec 7) (q : Half) :
    decodeWord0 c (word0 c.rtpVersion p x cc m pt q) =
      .ok (if (Instr.pktRx p x cc m pt q).wellFormed c then .pktRx p x cc m pt q else .pktTx m q) := by
  simp only [decodeWord0, word0V_word0, word0P_word0, word0X_word0, word0CC_word0, word0M_word0, word0PT_word0,
    word0Seq_word0, ← not_wellFormed_pktRx c p x cc m pt q]
  cases (Instr.pktRx p x cc m pt q).wellFormed c <;> rfl

/-- Settles O2: a command's code selects its own row, and the bytes of an element are read back as its word. -/
theorem decodeOfEncodeIsTheInstruction : Obligations.DecodeOfEncodeIsTheInstruction := by
  intro c i hi
  cases i with
  | pktTx m q =>
    rw [encode, decode, decodeWire_be32, txWord0, decodeWord0_word0, if_neg]
    simp [Instr.wellFormed]
  | pktRx p x cc m pt q => rw [encode, decode, decodeWire_be32, decodeWord0_word0, if_pos hi]
  | payloadExt e => exact decodeWire_be16 c e
  | lineDesc l n o => exact decodeWire_be16_be16_be16 c l n o
  | _ => rfl

/-! ## The encoder on the decoder's reading -/

/-- The row read from a word has that word, and is the one reading the encoder writes it for: the word is word 0 of its
own fields, with the block's V. -/
theorem encode_of_decodeWord0 {c : Cfg} {w : Word} {i : Instr} (h : decodeWord0 c w = .ok i) :
    encode c i = .wire (be32 w) ∧ i.wellFormed c = true := by
  have hv : word0V w = c.rtpVersion := by
    by_contra hv
    rw [decodeWord0, if_neg hv] at h
    cases h
  have hw : word0 c.rtpVersion (word0P w) (word0X w) (word0CC w) (word0M w) (word0PT w) (word0Seq w) = w := by
    rw [← hv, word0_of_fields]
  rw [← hw, decodeWord0_word0] at h
  obtain rfl := Except.ok.inj h
  have henc : encode c (.pktRx (word0P w) (word0X w) (word0CC w) (word0M w) (word0PT w) (word0Seq w)) =
      .wire (be32 w) := by rw [encode, hw]
  split
  · exact ⟨henc, ‹_›⟩
  · exact ⟨(encode_pktRx_of_illFormed (Bool.eq_false_iff.2 ‹_›)).symm.trans henc, rfl⟩

/-- Settles O3: by the number of bytes; each element's word is written as the bytes it was put together from. -/
theorem wireBytesHaveOneReading : Obligations.WireBytesHaveOneReading := by
  intro c bs i h
  match bs, h with
  | [b0, b1], h =>
    obtain rfl := Except.ok.inj h
    exact ⟨congrArg Encoded.wire (be16_append b0 b1), rfl⟩
  | [b0, b1, b2, b3], h =>
    rw [← be32_append]
    exact encode_of_decodeWord0 h
  | [b0, b1, b2, b3, b4, b5], h =>
    obtain rfl := Except.ok.inj h
    exact ⟨by simp only [encode, be16_append, List.cons_append, List.nil_append], rfl⟩
  | [], h | [_], h | [_, _, _], h | [_, _, _, _, _], h | _ :: _ :: _ :: _ :: _ :: _ :: _ :: _, h => cases h

end Sys2Proof
end
